-- ==== Sys2Proof/Word.lean ====
section
/-! DEFINITION. The words of the SRC core: the 32-bit command word and the bit patterns of the two sample formats. -/

namespace Sys2Proof

/-- A command word (30 R80). -/
abbrev Word := BitVec 32

/-- The 32-bit pattern of a binary32 value; `as_f32` and `bits_f32` of the spec are the identity on it (00 R10, §5). -/
abbrev F32 := BitVec 32

/-- The 64-bit pattern of a binary64 value; `as_f64` and `bits_f64` of the spec are the identity on it (00 R10, §5). -/
abbrev F64 := BitVec 64

/-- A coefficient set: N = 64 taps (00 R5), each a binary32 pattern (00 R7). -/
abbrev Taps := Vector F32 64

end Sys2Proof
end

