-- ==== Sys2Proof/Syntax.lean ====
section
/-! DEFINITION. The commands of SRC-CMD v1: one constructor per row of spec/opcode_table.json (30 R83). -/

namespace Sys2Proof

/-- The pipeline a command acts on: the field U of its word (00 R9, 30 R81). -/
inductive PipeUnit where
  /-- The downsampling pipeline, unit number 0. -/
  | down
  /-- The upsampling pipeline, unit number 1. -/
  | up
  deriving DecidableEq, Repr

/-- The two FIR filter stage instances (00 R9). -/
inductive Stage where
  /-- The anti-aliasing filter, owned by the downsampling pipeline. -/
  | aa
  /-- The reconstruction filter, owned by the upsampling pipeline. -/
  | rc
  deriving DecidableEq, Repr

/-- The ten commands.
A command that exists for both units carries the unit; the three that exist for one unit only carry none (30 R81). -/
inductive Instr where
  | freset (u : PipeUnit)
  | fsamp (u : PipeUnit)
  | init (u : PipeUnit)
  | preset (u : PipeUnit)
  | dproc
  | expsz
  | uproc
  | getsrc (u : PipeUnit)
  | gettgt (u : PipeUnit)
  | getratio (u : PipeUnit)
  deriving DecidableEq, Repr

end Sys2Proof
end

