-- ==== Sys2Proof/WellFormed.lean ====
section
/-! DEFINITION. What is well formed: a command word (30 R84), a command, a coefficient set (00 R7). -/

namespace Sys2Proof

/-- The reserved field RSV of a command word, bits 31:9 (30 R80). -/
def rsvField (w : Word) : BitVec 23 := w.extractLsb' 9 23

/-- The unit field U of a command word, bit 8 (30 R80). -/
def unitField (w : Word) : Bool := w.getLsbD 8

/-- The opcode field OP of a command word, bits 7:0 (30 R80). -/
def opField (w : Word) : BitVec 8 := w.extractLsb' 0 8

/-- A legal command word: none of (a) to (e) of 30 R84 holds. -/
def legalWord (w : Word) : Bool :=
  !(decide (rsvField w ≠ 0)
    || decide (opField w = 0x00)
    || decide (0x0B ≤ (opField w).toNat)
    || (decide (opField w = 0x05 ∨ opField w = 0x06) && unitField w)
    || (decide (opField w = 0x07) && !unitField w))

/-- A well-formed command.
The syntax can only write the seventeen commands of 30 R83: the unit is a type of two values and the one-unit commands
carry none, so there is nothing left to check. -/
def Instr.wf : Instr → Bool
  | .freset _ => true
  | .fsamp _ => true
  | .init _ => true
  | .preset _ => true
  | .dproc => true
  | .expsz => true
  | .uproc => true
  | .getsrc _ => true
  | .gettgt _ => true
  | .getratio _ => true

/-- A finite binary32 pattern: its exponent field, bits 30:23, is not all ones (00 R7 (a)). -/
def finitePattern32 (x : F32) : Bool := x.extractLsb' 23 8 != 0xFF#8

/-- Condition (a) of a well-formed coefficient set: every tap is finite (00 R7). -/
def tapsFinite (c : Taps) : Bool := c.toList.all finitePattern32

/-- The sign and exponent dropped, a zero pattern: `-0 == +0` when values are compared (00 §5). -/
def zeroPattern32 (x : F32) : Bool := x.extractLsb' 0 31 == 0#31

/-- Two finite binary32 patterns hold equal values: the same pattern, or two zeros (00 §5). -/
def sameValue32 (x y : F32) : Bool := x == y || (zeroPattern32 x && zeroPattern32 y)

/-- Condition (b) of a well-formed coefficient set: `taps[i] == taps[63-i]` for i in 0..31 as values (00 R7). -/
def tapsSymmetric (c : Taps) : Bool :=
  (List.finRange 32).all fun i => sameValue32 (c.get ⟨i.val, by omega⟩) (c.get ⟨63 - i.val, by omega⟩)

/-- A well-formed coefficient set (00 R7): finite and symmetric.
No rule of the model assumes it; a claim that needs it names it. -/
def tapsWf (c : Taps) : Bool := tapsFinite c && tapsSymmetric c

end Sys2Proof
end

