-- ==== Sys2Proof/Decode.lean ====
section
/-! DEFINITION. The decoder of command words (30 R83, R84), which rejects by name, and the encoder (30 R80, R83). -/

namespace Sys2Proof

/-- Why a word is illegal: the five cases of 30 R84. -/
inductive Illegal where
  /-- (a) RSV is not 0. -/
  | reservedBits
  /-- (b) OP is 0x00. -/
  | opcodeZero
  /-- (c) OP is 0x0B or above. -/
  | opcodeUnassigned
  /-- (d) DPROC or EXPSZ with U = 1. -/
  | downCommandOnUp
  /-- (e) UPROC with U = 0. -/
  | upCommandOnDown
  deriving DecidableEq, Repr

/-- The unit of a value of the field U (30 R80). -/
def unitOfBit (b : Bool) : PipeUnit := if b then .up else .down

/-- The value of the field U for a unit (30 R80). -/
def bitOfUnit : PipeUnit → Bool
  | .down => false
  | .up => true

/-- The command of an opcode and a unit bit, or the case of 30 R84 that makes the word illegal (30 R83). -/
def decodeFields (op : Nat) (u : Bool) : Except Illegal Instr :=
  match op with
  | 0x00 => .error .opcodeZero
  | 0x01 => .ok (.freset (unitOfBit u))
  | 0x02 => .ok (.fsamp (unitOfBit u))
  | 0x03 => .ok (.init (unitOfBit u))
  | 0x04 => .ok (.preset (unitOfBit u))
  | 0x05 => if u then .error .downCommandOnUp else .ok .dproc
  | 0x06 => if u then .error .downCommandOnUp else .ok .expsz
  | 0x07 => if u then .ok .uproc else .error .upCommandOnDown
  | 0x08 => .ok (.getsrc (unitOfBit u))
  | 0x09 => .ok (.gettgt (unitOfBit u))
  | 0x0A => .ok (.getratio (unitOfBit u))
  | _ => .error .opcodeUnassigned

/-- The decoder: total on every 32-bit word (30 R83, R84). -/
def decode (w : Word) : Except Illegal Instr :=
  if rsvField w ≠ 0 then .error .reservedBits else decodeFields (opField w).toNat (unitField w)

/-- The opcode of a command (30 R83). -/
def opcodeOf : Instr → BitVec 8
  | .freset _ => 0x01
  | .fsamp _ => 0x02
  | .init _ => 0x03
  | .preset _ => 0x04
  | .dproc => 0x05
  | .expsz => 0x06
  | .uproc => 0x07
  | .getsrc _ => 0x08
  | .gettgt _ => 0x09
  | .getratio _ => 0x0A

/-- The unit a command's word selects (30 R81). -/
def unitOf : Instr → PipeUnit
  | .freset u => u
  | .fsamp u => u
  | .init u => u
  | .preset u => u
  | .dproc => .down
  | .expsz => .down
  | .uproc => .up
  | .getsrc u => u
  | .gettgt u => u
  | .getratio u => u

/-- The command word: { RSV = 0, U, OP } (30 R80). -/
def encode (i : Instr) : Word :=
  (0#23 ++ BitVec.ofBool (bitOfUnit (unitOf i)) ++ opcodeOf i : BitVec 32)

/-- The command the decoder reads from a word whose low `nbits` bits are those of `w` and whose other bits are 0.
The hardware takes a command word whole, so there are no bytes to lay out (20 R65). -/
def decodeTableWord (nbits w : Nat) : Option Instr :=
  match decode (BitVec.ofNat 32 (w % 2 ^ nbits)) with
  | .ok i => some i
  | .error _ => none

end Sys2Proof
end

