-- ==== Sys2Proof/Config.lean ====
section
/-! DEFINITION. What an implementation fixes (00 §3) and the free values (00 R17): opaque constants, with no value that a proof could use. -/

namespace Sys2Proof

/-- A buffer size: an integer in 0..2^32 (00 R8). -/
abbrev BufSize := Fin (2 ^ 32 + 1)

/-- TARGET_RATE = 16000.0, pattern 0x40CF400000000000 (00 R6; 44 R169). -/
def targetRate : F64 := 0x40CF400000000000#64

/-- TAPS_AA (00 R7): the source gives no tap value. -/
opaque Config.tapsAA : Taps

/-- TAPS_RC (00 R7): nothing says whether it equals TAPS_AA. -/
opaque Config.tapsRC : Taps

/-- IN_SIZE (00 R8). -/
opaque Config.inSize : BufSize

/-- MID_SIZE (00 R8). -/
opaque Config.midSize : BufSize

/-- OUT_SIZE (00 R8). -/
opaque Config.outSize : BufSize

/-- The free value behind the sign and payload of the binary32 NaN of draw `n` (00 R17, U3; notes/assumptions/1.md). -/
opaque Config.nanBits32 : Nat → BitVec 32

/-- The free value behind the sign and payload of the binary64 NaN of draw `n` (00 R17, U3; notes/assumptions/1.md). -/
opaque Config.nanBits64 : Nat → BitVec 64

end Sys2Proof
end

