-- ==== Sys2Proof/Machine/Float.lean ====
section
/-! DEFINITION. The arithmetic primitives of 00 §5 and R13 to R17: IEEE 754 binary32 and binary64.
Each primitive decodes its operands, computes the exact result with integers, and rounds once to nearest, ties to even.
The primitives are irreducible, so that no unification unfolds arithmetic; a proof unfolds one by name.
A power of two is the left factor of a product with an unknown number, since the kernel unfolds a product along its right
factor. -/

namespace Sys2Proof.Machine

/-- A binary format.
Every finite value of it is an integer multiple of its least subnormal number, 2^(-scale). -/
structure Format where
  /-- The bits of a significand, the hidden one included. -/
  prec : Nat
  /-- The pattern of +infinity, read as a number. -/
  infMag : Nat
  /-- The least subnormal number is 2^(-scale). -/
  scale : Nat
  deriving DecidableEq, Repr

/-- binary32 (00 R10). -/
def b32 : Format := { prec := 24, infMag := 0x7F800000, scale := 149 }

/-- binary64 (00 R10). -/
def b64 : Format := { prec := 53, infMag := 0x7FF0000000000000, scale := 1074 }

/-- What a pattern holds.
A finite value is a sign and a magnitude counted in least subnormals of its format, so that -0 and +0 differ in sign only. -/
inductive FVal where
  | nan
  | inf (neg : Bool)
  | fin (neg : Bool) (mag : Nat)
  deriving DecidableEq, Repr

/-- An exact result before rounding: `ratio neg num den` is the number num/den, counted in least subnormals of the format
it is rounded to, with its sign. -/
inductive Exact where
  | nan
  | inf (neg : Bool)
  | ratio (neg : Bool) (num den : Nat)
  deriving DecidableEq, Repr

/-- The magnitude of a finite pattern `m` (sign bit dropped), in least subnormals: exponent field 0 is subnormal. -/
def magValue (prec m : Nat) : Nat :=
  if m / 2 ^ (prec - 1) = 0 then m
  else (2 ^ (prec - 1) + m % 2 ^ (prec - 1)) * 2 ^ (m / 2 ^ (prec - 1) - 1)

/-- What a pattern of sign `neg` and remaining bits `m` holds. -/
def decodeFloat (f : Format) (neg : Bool) (m : Nat) : FVal :=
  if f.infMag < m then .nan
  else if m = f.infMag then .inf neg
  else .fin neg (magValue f.prec m)

/-- The value of a binary32 pattern: `as_f32` (00 §5). -/
def val32 (x : F32) : FVal := decodeFloat b32 x.msb (x.toNat % 2 ^ 31)

/-- The value of a binary64 pattern: `as_f64` (00 §5). -/
def val64 (x : F64) : FVal := decodeFloat b64 x.msb (x.toNat % 2 ^ 63)

/-- num/den rounded to an integer, to nearest, ties to even (00 R13). -/
def roundDiv (num den : Nat) : Nat :=
  if den < 2 * (num % den) ∨ (den = 2 * (num % den) ∧ num / den % 2 = 1) then num / den + 1
  else num / den

/-- How many low bits of the quotient num/den lie below a significand of `prec` bits: 0 in the subnormal range. -/
def roundShift (prec num den : Nat) : Nat := (num / den).log2 + 1 - prec

/-- The pattern, sign bit dropped, of num/den least subnormals rounded to nearest, ties to even, with gradual underflow
and an unbounded exponent (00 R13).
Consecutive patterns are consecutive representable magnitudes, so a significand that rounds up to 2^prec carries into the
exponent field by itself. -/
def roundMag (prec num den : Nat) : Nat :=
  roundShift prec num den * 2 ^ (prec - 1) + roundDiv num (den * 2 ^ roundShift prec num den)

/-- The pattern of sign and magnitude for a width whose sign bit has weight `top`. -/
def signedMag (top : Nat) (neg : Bool) (m : Nat) : Nat := (if neg then top else 0) + m

/-- Some quiet NaN of binary32: sign and payload are those of draw `k` (00 R17, U3). -/
def quietNan32 (k : Nat) : F32 := Config.nanBits32 k ||| 0x7FC00000#32

/-- Some quiet NaN of binary64: sign and payload are those of draw `k` (00 R17, U3). -/
def quietNan64 (k : Nat) : F64 := Config.nanBits64 k ||| 0x7FF8000000000000#64

/-- An exact result rounded to binary32; a magnitude past the largest finite one becomes an infinity (00 R13). -/
def round32 (k : Nat) : Exact → F32
  | .nan => quietNan32 k
  | .inf neg => BitVec.ofNat 32 (signedMag (2 ^ 31) neg b32.infMag)
  | .ratio neg num den => BitVec.ofNat 32 (signedMag (2 ^ 31) neg (min (roundMag b32.prec num den) b32.infMag))

/-- An exact result rounded to binary64; a magnitude past the largest finite one becomes an infinity (00 R13). -/
def round64 (k : Nat) : Exact → F64
  | .nan => quietNan64 k
  | .inf neg => BitVec.ofNat 64 (signedMag (2 ^ 63) neg b64.infMag)
  | .ratio neg num den => BitVec.ofNat 64 (signedMag (2 ^ 63) neg (min (roundMag b64.prec num den) b64.infMag))

/-- A signed magnitude as an integer. -/
def signedInt (neg : Bool) (mag : Nat) : Int := if neg then -(mag : Int) else (mag : Int)

/-- The exact sum of two values of one format.
A zero sum is -0 only when both operands are negative, `+0 + -0 = +0` (00 R17, G3). -/
def addVal : FVal → FVal → Exact
  | .nan, _ => .nan
  | .inf _, .nan => .nan
  | .fin _ _, .nan => .nan
  | .inf s, .inf s' => if s = s' then .inf s else .nan
  | .inf s, .fin _ _ => .inf s
  | .fin _ _, .inf s => .inf s
  | .fin s m, .fin s' m' =>
    if signedInt s m + signedInt s' m' = 0 then .ratio (s && s') 0 1
    else .ratio (decide (signedInt s m + signedInt s' m' < 0)) (signedInt s m + signedInt s' m').natAbs 1

/-- The value with its sign flipped. -/
def negVal : FVal → FVal
  | .nan => .nan
  | .inf s => .inf (!s)
  | .fin s m => .fin (!s) m

/-- The exact product of two values of one format; zero times infinity is a NaN. -/
def mulVal (scale : Nat) : FVal → FVal → Exact
  | .nan, _ => .nan
  | .inf _, .nan => .nan
  | .fin _ _, .nan => .nan
  | .inf s, .inf s' => .inf (s ^^ s')
  | .inf s, .fin s' m' => if m' = 0 then .nan else .inf (s ^^ s')
  | .fin s m, .inf s' => if m = 0 then .nan else .inf (s ^^ s')
  | .fin s m, .fin s' m' => .ratio (s ^^ s') (m * m') (2 ^ scale)

/-- The exact quotient of two values of one format; 0/0 and infinity/infinity are NaNs, a nonzero finite value over zero an
infinity. -/
def divVal (scale : Nat) : FVal → FVal → Exact
  | .nan, _ => .nan
  | .inf _, .nan => .nan
  | .fin _ _, .nan => .nan
  | .inf _, .inf _ => .nan
  | .inf s, .fin s' _ => .inf (s ^^ s')
  | .fin s _, .inf s' => .ratio (s ^^ s') 0 1
  | .fin s m, .fin s' m' =>
    if m' = 0 then (if m = 0 then .nan else .inf (s ^^ s')) else .ratio (s ^^ s') (2 ^ scale * m) m'

/-- `add32` (00 R13); `k` is the draw a NaN result takes. -/
@[irreducible]
def add32 (k : Nat) (a b : F32) : F32 := round32 k (addVal (val32 a) (val32 b))

/-- `mul32` (00 R13). -/
@[irreducible]
def mul32 (k : Nat) (a b : F32) : F32 := round32 k (mulVal b32.scale (val32 a) (val32 b))

/-- `add64` (00 R13). -/
@[irreducible]
def add64 (k : Nat) (a b : F64) : F64 := round64 k (addVal (val64 a) (val64 b))

/-- `sub64` (00 R13). -/
@[irreducible]
def sub64 (k : Nat) (a b : F64) : F64 := round64 k (addVal (val64 a) (negVal (val64 b)))

/-- `mul64` (00 R13). -/
@[irreducible]
def mul64 (k : Nat) (a b : F64) : F64 := round64 k (mulVal b64.scale (val64 a) (val64 b))

/-- `div64` (00 R13). -/
@[irreducible]
def div64 (k : Nat) (a b : F64) : F64 := round64 k (divVal b64.scale (val64 a) (val64 b))

/-- A value of a format whose scale is smaller by `up`, or larger by `down`, as an exact number of the other format. -/
def rescale (up down : Nat) : FVal → Exact
  | .nan => .nan
  | .inf s => .inf s
  | .fin s m => .ratio s (2 ^ up * m) (2 ^ down)

/-- `cvt64`: binary32 widened to binary64, exactly (00 §5). -/
@[irreducible]
def cvt64 (k : Nat) (a : F32) : F64 := round64 k (rescale (b64.scale - b32.scale) 0 (val32 a))

/-- `rnd32`: binary64 rounded to binary32 (00 §5). -/
@[irreducible]
def rnd32 (k : Nat) (a : F64) : F32 := round32 k (rescale 0 (b64.scale - b32.scale) (val64 a))

/-- The draw index handed to a primitive whose result is a NaN in no state that a run reaches: the rates, the accumulator,
the fractions and the positions (00 R17; 41 R121, R127; notes/assumptions/3.md). -/
def noDraw : Nat := 0

/-- `u2f`: a natural number below 2^53 as a binary64, exactly (00 §5). -/
@[irreducible]
def u2f (n : Nat) : F64 := round64 noDraw (.ratio false (2 ^ b64.scale * n) 1)

/-- `floor64` of a finite non-negative value; `none` for every other operand, to which no rule applies it (00 R16;
notes/assumptions/11.md). -/
@[irreducible]
def floor64 (d : F64) : Option Nat :=
  match val64 d with
  | .nan => none
  | .inf _ => none
  | .fin neg m => if neg && m != 0 then none else some (m / 2 ^ b64.scale)

/-- `ceil64` of a finite non-negative value; `none` for every other operand (00 R16; notes/assumptions/11.md). -/
@[irreducible]
def ceil64 (d : F64) : Option Nat :=
  match val64 d with
  | .nan => none
  | .inf _ => none
  | .fin neg m => if neg && m != 0 then none else some ((m + (2 ^ b64.scale - 1)) / 2 ^ b64.scale)

/-- IEEE 754 `<`: false when either side is a NaN; the two zeros are equal (00 §5). -/
def ltVal : FVal → FVal → Bool
  | .nan, _ => false
  | .inf _, .nan => false
  | .fin _ _, .nan => false
  | .inf s, .inf s' => s && !s'
  | .inf s, .fin _ _ => s
  | .fin _ _, .inf s' => !s'
  | .fin s m, .fin s' m' => decide (signedInt s m < signedInt s' m')

/-- IEEE 754 `<=`: false when either side is a NaN (00 §5). -/
def leVal : FVal → FVal → Bool
  | .nan, _ => false
  | .inf _, .nan => false
  | .fin _ _, .nan => false
  | .inf s, .inf s' => s || !s'
  | .inf s, .fin _ _ => s
  | .fin _ _, .inf s' => !s'
  | .fin s m, .fin s' m' => decide (signedInt s m ≤ signedInt s' m')

/-- `a < b` on binary64. -/
def lt64 (a b : F64) : Bool := ltVal (val64 a) (val64 b)

/-- `a >= b` on binary64. -/
def ge64 (a b : F64) : Bool := leVal (val64 b) (val64 a)

/-- A finite binary64: neither a NaN nor an infinity. -/
def finite64 (a : F64) : Bool :=
  match val64 a with
  | .nan => false
  | .inf _ => false
  | .fin _ _ => true

/-- A finite binary32: neither a NaN nor an infinity. -/
def finite32 (a : F32) : Bool :=
  match val32 a with
  | .nan => false
  | .inf _ => false
  | .fin _ _ => true

/-- +infinity of binary64. -/
def posInf64 : F64 := 0x7FF0000000000000#64

/-- +0.0 of binary64. -/
def zero64 : F64 := 0x0000000000000000#64

/-- 1.0 of binary64. -/
def one64 : F64 := 0x3FF0000000000000#64

/-- +0.0 of binary32. -/
def zero32 : F32 := 0x00000000#32

/-- `clamp01` (00 R14). -/
def clamp01 (d : F64) : F64 :=
  if lt64 d zero64 then zero64 else if lt64 one64 d then one64 else d

/-- The interpolation `rnd32(add64(cvt64(a), mul64(w, sub64(cvt64(b), cvt64(a)))))` of 41 R121 and 43 R151, whose seven
primitives take the draws from `k` on. -/
@[irreducible]
def lerp (k : Nat) (a : F32) (w : F64) (b : F32) : F32 :=
  rnd32 (k + 6)
    (add64 (k + 5) (cvt64 (k + 4) a) (mul64 (k + 3) w (sub64 (k + 2) (cvt64 k b) (cvt64 (k + 1) a))))

/-- The draws one `lerp` takes. -/
def lerpDraws : Nat := 7

end Sys2Proof.Machine
end

