-- ==== Sys2Proof/Machine/State.lean ====
section
/-! DEFINITION. The state of the SRC core (10), of the host's buffers (20), and of the host's pending moves (70 R234); what stops a step; the state after reset. -/

namespace Sys2Proof.Machine

/-- The state of one FIR filter stage instance (10 R30 (a)). -/
structure FirState where
  /-- `dl[k][0..63]`, the delay line (10 R31). -/
  dl : Vector F32 64
  /-- `wi[k]`, a u6: the slot that is overwritten next (10 R32); its arithmetic is modulo 64 (00 R15). -/
  wi : Fin 64
  deriving DecidableEq, Repr

/-- The configuration record of one pipeline (10 R37). -/
structure PipeConfig where
  /-- `cfg[u]`: false is Unconfigured, true is Ready. -/
  ready : Bool
  /-- `srcRate[u]`. -/
  srcRate : F64
  /-- `tgtRate[u]`. -/
  tgtRate : F64
  /-- `ratio[u]`. -/
  ratio : F64
  deriving DecidableEq, Repr

/-- The three disjoint buffer spaces (20 R60). -/
inductive Space where
  /-- IN, the input buffer at source rate. -/
  | input
  /-- MID, the intermediate buffer at target rate. -/
  | mid
  /-- OUT, the output buffer at source rate. -/
  | output
  deriving DecidableEq, Repr

/-- An element of a buffer: one binary32 sample as its 32-bit pattern (20 R61). -/
abbrev Elem := BitVec 32

/-- The contents of one space: (element index, element) pairs, indices strictly rising, no element equal to what an
unlisted index reads as (notes/assumptions/8.md, 9.md). -/
abbrev Mem := List (Nat × Elem)

/-- The outcome of a command, the value of STATUS.ERR (60 R191). -/
inductive Err where
  | ok
  | illegal
  | unconfig
  | rate
  | range
  | cap
  deriving DecidableEq, Repr

/-- The host's moves (70 R234).
A register access carries the register number of 10 R44; a write to number 4, CMD, issues a command. -/
inductive HostMove where
  /-- Write the register of this number. -/
  | writeReg (number : Nat) (value : BitVec 64)
  /-- Read the register of this number. -/
  | readReg (number : Nat)
  /-- Write a buffer element. -/
  | writeElem (sp : Space) (idx : Nat) (w : Elem)
  /-- Read a buffer element. -/
  | readElem (sp : Space) (idx : Nat)
  /-- Hardware reset (70 R220). -/
  | hardwareReset
  deriving DecidableEq, Repr

/-- The implementation parameters a block is built with (00 R7, R8; 10 R34): constants that no step changes.
They stand beside the state so that a claim over all states holds for all parameters (notes/assumptions/6.md). -/
structure Params where
  /-- TAPS_AA. -/
  tapsAA : Taps
  /-- TAPS_RC. -/
  tapsRC : Taps
  /-- IN_SIZE. -/
  inSize : BufSize
  /-- MID_SIZE. -/
  midSize : BufSize
  /-- OUT_SIZE. -/
  outSize : BufSize
  deriving DecidableEq, Repr

/-- The state: the block's (10 R30), the host's buffers (10 R47), and the model's own fields. -/
structure State where
  /-- FIR stage AA, owned by unit D (10 R30). -/
  aa : FirState
  /-- FIR stage RC, owned by unit U (10 R30). -/
  rc : FirState
  /-- `timeAccumulator` (10 R35). -/
  t : F64
  /-- `prevSample` (10 R35). -/
  prev : F32
  /-- `currSample` (10 R35). -/
  curr : F32
  /-- The configuration record of unit D (10 R37). -/
  cfgD : PipeConfig
  /-- The configuration record of unit U (10 R37). -/
  cfgU : PipeConfig
  /-- Operand register A0 (10 R40). -/
  a0 : BitVec 64
  /-- Operand register A1 (10 R40). -/
  a1 : BitVec 32
  /-- Operand register A2 (10 R40). -/
  a2 : BitVec 32
  /-- Operand register A3 (10 R40). -/
  a3 : BitVec 32
  /-- Result register R0 (10 R41). -/
  r0 : BitVec 64
  /-- STATUS.ERR (10 R43). -/
  err : Err
  /-- STATUS.STICKY (10 R43): bit c - 1 for error code c. -/
  sticky : BitVec 5
  /-- The host's buffer IN (20 R60). -/
  inMem : Mem
  /-- The host's buffer MID (20 R60). -/
  midMem : Mem
  /-- The host's buffer OUT (20 R60). -/
  outMem : Mem
  /-- The constants of the block (00 R7, R8). -/
  params : Params
  /-- The model's own: the index of the next NaN draw (notes/assumptions/1.md, 2.md). -/
  draws : Nat
  /-- The model's own: the host's pending moves, the next one first (70 R233; notes/assumptions/4.md). -/
  moves : List HostMove
  /-- The model's own: what the host's last move got back (70 R234; notes/assumptions/5.md). -/
  reply : Option (BitVec 64)
  deriving DecidableEq, Repr

/-- Why a step stops with a fault. -/
inductive Fault where
  /-- Raised by a host access to a buffer element whose index is at or above the size of its space, an address that does
  not exist (70 R234).
  Safe: the host has no such move; no command raises it, since a command checks its ranges first (20 R62). -/
  | noSuchElement (sp : Space) (idx : Nat)
  deriving DecidableEq, Repr

/-- Why a step is refused. -/
inductive Refusal where
  /-- Raised by the dispatch for a command that has no meaning yet; no arm does. Safe. -/
  | notModelled (mnemonic : String)
  /-- Raised by a host access to a register number above 6, which does not exist (10 R44, U12).
  Safe: the host has no such move. -/
  | noSuchRegister (number : Nat)
  /-- Raised by a host read of CMD, which is not a defined host move (10 R42, U12).
  Safe: the host has no such move. -/
  | readOfCmd
  /-- Raised by a host write of a value that does not fit the width of the register (70 R234).
  Safe: the host sends a value of the register's width. -/
  | valueTooWide (number : Nat)
  deriving DecidableEq, Repr

/-- A cleared FIR stage: every slot +0.0 and the write index 0 (10 R48). -/
def FirState.clear : FirState := { dl := Vector.replicate 64 0x00000000#32, wi := 0 }

/-- A pipeline right after hardware reset: Unconfigured (10 R48).
The spec gives the rates no value; +0.0 is the model's (notes/assumptions/7.md). -/
def PipeConfig.unconfigured : PipeConfig := { ready := false, srcRate := 0, tgtRate := 0, ratio := 0 }

/-- The parameters of the block: the open constants of Config. -/
def Params.ofConfig : Params :=
  { tapsAA := Config.tapsAA
    tapsRC := Config.tapsRC
    inSize := Config.inSize
    midSize := Config.midSize
    outSize := Config.outSize }

/-- The machine right after hardware reset (10 R48), with nothing listed in the host's buffers and no host move pending. -/
def State.reset : State :=
  { aa := FirState.clear
    rc := FirState.clear
    t := 0
    prev := 0
    curr := 0
    cfgD := PipeConfig.unconfigured
    cfgU := PipeConfig.unconfigured
    a0 := 0
    a1 := 0
    a2 := 0
    a3 := 0
    r0 := 0
    err := .ok
    sticky := 0
    inMem := []
    midMem := []
    outMem := []
    params := Params.ofConfig
    draws := 0
    moves := []
    reply := none }

end Sys2Proof.Machine
end

