-- ==== Sys2Proof/Machine/Flags.lean ====
section
/-! DEFINITION. The status register (10 R43): the error codes, the sticky bits, and STATUS as the host reads it. -/

namespace Sys2Proof.Machine

/-- The code of an outcome (60 R191). -/
def Err.code : Err → BitVec 4
  | .ok => 0
  | .illegal => 1
  | .unconfig => 2
  | .rate => 3
  | .range => 4
  | .cap => 5

/-- The STICKY bit of an error code c: bit c - 1 of the field, bit 16 + (c - 1) of STATUS; none for OK (60 R191). -/
def Err.stickyBit : Err → BitVec 5
  | .ok => 0b00000
  | .illegal => 0b00001
  | .unconfig => 0b00010
  | .rate => 0b00100
  | .range => 0b01000
  | .cap => 0b10000

/-- STATUS (10 R43): { 0, STICKY, 0, ERR, 0, RDY_U, RDY_D }. -/
def State.statusWord (s : State) : BitVec 32 :=
  (0#11 ++ s.sticky ++ 0#4 ++ s.err.code ++ 0#6 ++ BitVec.ofBool s.cfgU.ready ++ BitVec.ofBool s.cfgD.ready : BitVec 32)

end Sys2Proof.Machine
end

