-- ==== Sys2Proof/Machine/Ops.lean ====
section
/-! DEFINITION. The named operations over the buffers and the registers, rejection (60 R199), acceptance, and hardware reset (70 R220). -/

namespace Sys2Proof.Machine

/-- What an element that nothing has written reads as: 0x00000000 (DESIGN CHOICE, unsafe; notes/assumptions/8.md). -/
def unwritten : Elem := 0x00000000#32

/-- `MemRead` on the contents of one space (20 R62). -/
def Mem.read : Mem → Nat → Elem
  | [], _ => unwritten
  | (j, v) :: m, i => if i = j then v else Mem.read m i

/-- An entry put in front, unless it holds what an unlisted index reads as. -/
def Mem.consEntry (i : Nat) (w : Elem) (m : Mem) : Mem := if w = unwritten then m else (i, w) :: m

/-- `MemWrite` on the contents of one space (20 R62); it keeps the canonical form. -/
def Mem.write : Mem → Nat → Elem → Mem
  | [], i, w => Mem.consEntry i w []
  | (j, v) :: m, i, w =>
    if i < j then Mem.consEntry i w ((j, v) :: m)
    else if i = j then Mem.consEntry i w m
    else (j, v) :: Mem.write m i w

/-- The canonical form: indices strictly rising, no entry that equals what an unlisted index reads as. -/
def Mem.wf : Mem → Bool
  | [] => true
  | (j, v) :: m => decide (v ≠ unwritten) && (m.all fun c => decide (j < c.1)) && Mem.wf m

/-- The FIR stage a unit owns: k(D) = AA, k(U) = RC (00 R9, 30 R81). -/
def stageOf : PipeUnit → Stage
  | .down => .aa
  | .up => .rc

/-- The state of a FIR stage. -/
def State.fir (s : State) : Stage → FirState
  | .aa => s.aa
  | .rc => s.rc

/-- The state with a FIR stage replaced. -/
def State.setFir (s : State) (k : Stage) (f : FirState) : State :=
  match k with
  | .aa => { s with aa := f }
  | .rc => { s with rc := f }

/-- The coefficients of a FIR stage: `taps[AA] = TAPS_AA`, `taps[RC] = TAPS_RC` (10 R34). -/
def State.taps (s : State) : Stage → Taps
  | .aa => s.params.tapsAA
  | .rc => s.params.tapsRC

/-- The configuration record of a unit (10 R37). -/
def State.cfg (s : State) : PipeUnit → PipeConfig
  | .down => s.cfgD
  | .up => s.cfgU

/-- The state with the configuration record of a unit replaced. -/
def State.setCfg (s : State) (u : PipeUnit) (c : PipeConfig) : State :=
  match u with
  | .down => { s with cfgD := c }
  | .up => { s with cfgU := c }

/-- The contents of a space. -/
def State.mem (s : State) : Space → Mem
  | .input => s.inMem
  | .mid => s.midMem
  | .output => s.outMem

/-- The state with the contents of a space replaced; the spaces are disjoint (20 R60). -/
def State.setMem (s : State) (sp : Space) (m : Mem) : State :=
  match sp with
  | .input => { s with inMem := m }
  | .mid => { s with midMem := m }
  | .output => { s with outMem := m }

/-- The size of a space: IN_SIZE, MID_SIZE, OUT_SIZE (00 R8). -/
def State.size (s : State) : Space → Nat
  | .input => s.params.inSize.val
  | .mid => s.params.midSize.val
  | .output => s.params.outSize.val

/-- Whether `base + len <= S_SIZE`, as natural numbers that never wrap (20 R63, 00 R15). -/
def State.rangeFits (s : State) (sp : Space) (base len : Nat) : Bool := decide (base + len ≤ s.size sp)

/-- `zext_64` of a 32-bit result (10 R41). -/
def zext64 (w : BitVec 32) : BitVec 64 := w.setWidth 64

/-- Rejection, the block's trap entry (60 R199): the code goes to STATUS.ERR, its bit of STICKY is set, and nothing else
changes.
There is no handler and no return (60 R200): control goes nowhere and the next command starts clean. -/
def State.reject (s : State) (c : Err) : State := { s with err := c, sticky := s.sticky ||| c.stickyBit }

/-- Acceptance of a command that returns nothing: STATUS.ERR <- 0 and R0 kept (10 R41, R43). -/
def State.accept (s : State) : State := { s with err := .ok }

/-- Acceptance of a command that returns `r`: R0 <- r and STATUS.ERR <- 0 (10 R41, R43). -/
def State.acceptWith (s : State) (r : BitVec 64) : State := { s with r0 := r, err := .ok }

/-- A check of a command: when `ok` fails the command is rejected with `c` (60 R198, R199), otherwise it goes on. -/
def State.check (s : State) (ok : Bool) (c : Err) (go : State) : State := if ok then go else s.reject c

/-- Hardware reset (70 R220): every piece of the block's state at the values of 10 R48.
The coefficients and the host's buffers are not touched; the host's pending moves and the draw counter are no state of the
block. -/
def State.hardwareReset (s : State) : State :=
  { State.reset with
    inMem := s.inMem
    midMem := s.midMem
    outMem := s.outMem
    params := s.params
    draws := s.draws
    moves := s.moves
    reply := s.reply }

end Sys2Proof.Machine
end

