-- ==== Sys2Proof/Machine/Operands.lean ====
section
/-! DEFINITION. The operands of the commands (30 R82): a register or the low half of A0, never scaled, extended or assembled. -/

namespace Sys2Proof.Machine

/-- `A0[31:0]`; A0[63:32] is ignored (10 R40). -/
def State.a0low (s : State) : BitVec 32 := s.a0.extractLsb' 0 32

/-- The operand `x` of FSAMP: a binary32 pattern. -/
def State.sampleOp (s : State) : F32 := s.a0low

/-- The operand `sourceRate` of INIT: a binary64 pattern. -/
def State.rateOp (s : State) : F64 := s.a0

/-- The operand `L` of DPROC and EXPSZ, `M` of UPROC: a u32 length. -/
def State.lenOp (s : State) : Nat := s.a0low.toNat

/-- The operand `cap` of DPROC, `K` of UPROC: a u32. -/
def State.a1Op (s : State) : Nat := s.a1.toNat

/-- The operand `inBase` of DPROC, `midBase` of UPROC: a u32 element index. -/
def State.srcBaseOp (s : State) : Nat := s.a2.toNat

/-- The operand `outBase` of DPROC and UPROC: a u32 element index. -/
def State.dstBaseOp (s : State) : Nat := s.a3.toNat

end Sys2Proof.Machine
end

