-- ==== Sys2Proof/Machine/Fir.lean ====
section
/-! DEFINITION. The FIR filter stage (40): FirStep, FirReset, and the commands FRESET and FSAMP. -/

namespace Sys2Proof.Machine

/-- The value of `acc` in FirStep after the taps 0 .. i-1 (40 R100): ascending i, one binary32 product and one binary32
addition a tap, from +0.0.
Tap i takes the draws k + 2i and k + 2i + 1. -/
def firAcc (taps : Taps) (dl : Vector F32 64) (wi : Fin 64) (k : Nat) : Nat → F32
  | 0 => zero32
  | i + 1 =>
    add32 (k + 2 * i + 1) (firAcc taps dl wi k i)
      (mul32 (k + 2 * i) (taps.get (Fin.ofNat 64 i)) (dl.get (wi - Fin.ofNat 64 i)))

/-- The draws one FirStep takes: two a tap. -/
def firDraws : Nat := 128

/-- The delay line with `x` inserted at the write index (40 R100). -/
def FirState.insert (f : FirState) (x : F32) : Vector F32 64 := f.dl.set f.wi.val x f.wi.isLt

/-- The value FirStep returns (40 R100): the insertion comes first, and the dot product reads the write index before it
advances. -/
@[irreducible]
def firOut (taps : Taps) (f : FirState) (k : Nat) (x : F32) : F32 := firAcc taps (f.insert x) f.wi k 64

/-- The stage after FirStep (40 R100): the write index advances modulo 64. -/
def firNext (f : FirState) (x : F32) : FirState := { dl := f.insert x, wi := f.wi + 1 }

/-- `FirReset(k)` (40 R101). -/
def State.firReset (s : State) (k : Stage) : State := s.setFir k FirState.clear

/-- `FirStep(k, x)` on the state (40 R100): the stage steps and the draws it takes are spent. -/
def State.firStep (s : State) (k : Stage) (x : F32) : State :=
  { s.setFir k (firNext (s.fir k) x) with draws := s.draws + firDraws }

/-- The value `FirStep(k, x)` returns in a state (40 R100). -/
def State.firValue (s : State) (k : Stage) (x : F32) : F32 := firOut (s.taps k) (s.fir k) s.draws x

/-- FRESET.u (40 R102). -/
def execFreset (u : PipeUnit) (s : State) : Host.Outcome State Fault Refusal :=
  .next (s.firReset (stageOf u)).accept

/-- FSAMP.u (40 R103). -/
def execFsamp (u : PipeUnit) (s : State) : Host.Outcome State Fault Refusal :=
  .next ((s.firStep (stageOf u) s.sampleOp).acceptWith (zext64 (s.firValue (stageOf u) s.sampleOp)))

end Sys2Proof.Machine
end

