-- ==== Sys2Proof/Machine/Resampler.lean ====
section
/-! DEFINITION. The fractional resampler (41): ResampleBlock, Emit, CountOutputs, PhaseReset, and the command EXPSZ. -/

namespace Sys2Proof.Machine

/-- What ResampleBlock works on (41 R120): stage AA, the phase, the contents of MID, the count `k` of samples written, and
the draw counter. -/
structure ResampleRun where
  fir : FirState
  t : F64
  prev : F32
  curr : F32
  mid : Mem
  count : Nat
  draws : Nat
  deriving DecidableEq, Repr

/-- The fraction `f` of Emit (41 R121): the weight of `curr`. -/
def emitFrac (ratio t : F64) : F64 :=
  clamp01 (sub64 noDraw one64 (div64 noDraw (sub64 noDraw t one64) ratio))

/-- `Emit(t, prev, curr)` (41 R121); its interpolation takes the draws from `k` on. -/
def emit (k : Nat) (ratio t : F64) (prev curr : F32) : F32 := lerp k prev (emitFrac ratio t) curr

/-- One pass of the `while` of ResampleBlock (41 R120): Emit with `t` before the subtraction, the write, the count, the
subtraction. -/
def emitPass (ratio : F64) (outBase : Nat) (s : ResampleRun) : ResampleRun :=
  { s with
    mid := s.mid.write (outBase + s.count) (emit s.draws ratio s.t s.prev s.curr)
    count := s.count + 1
    t := sub64 noDraw s.t one64
    draws := s.draws + lerpDraws }

/-- The `while t >= 1.0` of ResampleBlock, at most `fuel` passes of it.
DPROC gives it `cap` passes, and runs only when all passes of the block together are at most `cap`, so the bound never
cuts a loop short (41 R122, R127; notes/assumptions/12.md). -/
def emitPasses (ratio : F64) (outBase : Nat) : Nat → ResampleRun → ResampleRun
  | 0, s => s
  | n + 1, s => if ge64 s.t one64 then emitPasses ratio outBase n (emitPass ratio outBase s) else s

/-- The lines of ResampleBlock before the `while`, for the input sample `x` (41 R120). -/
def takeSample (taps : Taps) (ratio : F64) (x : F32) (s : ResampleRun) : ResampleRun :=
  { s with
    fir := firNext s.fir x
    curr := firOut taps s.fir s.draws x
    t := add64 noDraw s.t ratio
    draws := s.draws + firDraws }

/-- One input sample of ResampleBlock (41 R120), `prev <- curr` last. -/
def resampleSample (taps : Taps) (ratio : F64) (outBase fuel : Nat) (x : F32) (s : ResampleRun) : ResampleRun :=
  let r := emitPasses ratio outBase fuel (takeSample taps ratio x s)
  { r with prev := r.curr }

/-- `ResampleBlock(L, inBase, outBase)` (41 R120): the stream after the input samples 0 .. L-1. -/
def resampleBlock (taps : Taps) (ratio : F64) (inp : Mem) (inBase outBase fuel : Nat) (s : ResampleRun) : Nat → ResampleRun
  | 0 => s
  | n + 1 =>
    resampleSample taps ratio outBase fuel (inp.read (inBase + n)) (resampleBlock taps ratio inp inBase outBase fuel s n)

/-- The `while` of CountOutputs (41 R122), which stops as soon as the count exceeds `cap`.
From a count of at most `cap` it makes at most `cap + 1` passes. -/
def countPasses (cap : Nat) : Nat → F64 → Nat → F64 × Nat
  | 0, tt, k => (tt, k)
  | n + 1, tt, k =>
    if ge64 tt one64 then
      if cap < k + 1 then (tt, k + 1) else countPasses cap n (sub64 noDraw tt one64) (k + 1)
    else (tt, k)

/-- `tt` and `k` of CountOutputs after the input samples 0 .. L-1 (41 R122); once the count has exceeded `cap` it has
returned and nothing changes any more. -/
def countAfter (ratio : F64) (cap : Nat) (t : F64) : Nat → F64 × Nat
  | 0 => (t, 0)
  | n + 1 =>
    if cap < (countAfter ratio cap t n).2 then countAfter ratio cap t n
    else countPasses cap (cap + 1) (add64 noDraw (countAfter ratio cap t n).1 ratio) (countAfter ratio cap t n).2

/-- `CountOutputs(L, cap)`, the dry run (41 R122). -/
def countOutputs (ratio t : F64) (len cap : Nat) : Nat := (countAfter ratio cap t len).2

/-- `PhaseReset()` (41 R123). -/
def State.phaseReset (s : State) : State := { s with t := zero64, prev := zero32, curr := zero32 }

/-- The product of EXPSZ: `L * ratio` in binary64 (41 R124). -/
def expectedProduct (s : State) : F64 := mul64 noDraw (u2f s.lenOp) s.cfgD.ratio

/-- A result that fits 32 bits (41 R124). -/
def fits32 : Option Nat → Option Nat
  | none => none
  | some e => if e ≤ 2 ^ 32 - 1 then some e else none

/-- The estimate of EXPSZ when it fits 32 bits: `ceil(L * ratio)` (41 R124); `none` also when the product is +infinity. -/
def expectedSize (s : State) : Option Nat := fits32 (ceil64 (expectedProduct s))

/-- EXPSZ in a Ready unit: the estimate in R0, or ERR_RANGE where it does not fit (41 R124). -/
def State.acceptSize (s : State) : Option Nat → State
  | none => s.reject .range
  | some e => s.acceptWith (zext64 (BitVec.ofNat 32 e))

/-- EXPSZ (41 R124). -/
def execExpsz (s : State) : Host.Outcome State Fault Refusal :=
  .next (s.check s.cfgD.ready .unconfig (s.acceptSize (expectedSize s)))

end Sys2Proof.Machine
end

