-- ==== Sys2Proof/Machine/Configure.lean ====
section
/-! DEFINITION. Pipeline configuration, reset and accessors (44): the commands INIT, PRESET, GETSRC, GETTGT, GETRATIO. -/

namespace Sys2Proof.Machine

/-- The reset of a pipeline (44 R166, R167): its FIR stage and, for unit D, the phase; unit U has none. -/
def State.pipeReset (s : State) (u : PipeUnit) : State :=
  match u with
  | .down => (s.firReset .aa).phaseReset
  | .up => s.firReset .rc

/-- The ratio INIT computes for a source rate: `16000.0 / s` (44 R166). -/
def initRatio (rate : F64) : F64 := div64 noDraw targetRate rate

/-- Whether INIT accepts a source rate: finite, greater than zero, and its ratio not +infinity (44 R166). -/
def rateAccepted (rate : F64) : Bool := finite64 rate && lt64 zero64 rate && initRatio rate != posInf64

/-- The record a successful INIT leaves (44 R166). -/
def initConfig (rate : F64) : PipeConfig :=
  { ready := true, srcRate := rate, tgtRate := targetRate, ratio := initRatio rate }

/-- INIT.u (44 R166). -/
def execInit (u : PipeUnit) (s : State) : Host.Outcome State Fault Refusal :=
  .next (s.check (rateAccepted s.rateOp) .rate ((s.setCfg u (initConfig s.rateOp)).pipeReset u).accept)

/-- PRESET.u (44 R167). -/
def execPreset (u : PipeUnit) (s : State) : Host.Outcome State Fault Refusal :=
  .next (s.pipeReset u).accept

/-- An accessor (44 R168 to R170): the field when the unit is Ready, else ERR_UNCONFIG. -/
def State.getField (s : State) (u : PipeUnit) (field : PipeConfig → F64) : State :=
  s.check (s.cfg u).ready .unconfig (s.acceptWith (field (s.cfg u)))

/-- GETSRC.u (44 R168). -/
def execGetsrc (u : PipeUnit) (s : State) : Host.Outcome State Fault Refusal :=
  .next (s.getField u PipeConfig.srcRate)

/-- GETTGT.u (44 R169). -/
def execGettgt (u : PipeUnit) (s : State) : Host.Outcome State Fault Refusal :=
  .next (s.getField u PipeConfig.tgtRate)

/-- GETRATIO.u (44 R170). -/
def execGetratio (u : PipeUnit) (s : State) : Host.Outcome State Fault Refusal :=
  .next (s.getField u PipeConfig.ratio)

end Sys2Proof.Machine
end

