-- ==== Sys2Proof/Machine/Downsample.lean ====
section
/-! DEFINITION. The downsampling pipeline (42): the command DPROC. -/

namespace Sys2Proof.Machine

/-- The stream a DPROC starts from: the present stage AA, phase and MID, and a count of 0 (41 R120). -/
def State.stream (s : State) : ResampleRun :=
  { fir := s.aa, t := s.t, prev := s.prev, curr := s.curr, mid := s.midMem, count := 0, draws := s.draws }

/-- The stream after the block of a DPROC (42 R140). -/
def dprocStream (s : State) : ResampleRun :=
  resampleBlock s.params.tapsAA s.cfgD.ratio s.inMem s.srcBaseOp s.dstBaseOp s.a1Op s.stream s.lenOp

/-- The true output count of a DPROC, or `cap + 1` when it exceeds `cap` (42 R142). -/
def dprocCount (s : State) : Nat := countOutputs s.cfgD.ratio s.t s.lenOp s.a1Op

/-- The state with stage AA, the phase, MID and the draw counter of a stream. -/
def State.setStream (s : State) (r : ResampleRun) : State :=
  { s with aa := r.fir, t := r.t, prev := r.prev, curr := r.curr, midMem := r.mid, draws := r.draws }

/-- DPROC (42 R140). -/
def execDproc (s : State) : Host.Outcome State Fault Refusal :=
  .next
    (s.check s.cfgD.ready .unconfig
      (s.check (s.rangeFits .input s.srcBaseOp s.lenOp) .range
        (s.check (s.rangeFits .mid s.dstBaseOp s.a1Op) .range
          (s.check (decide (dprocCount s ≤ s.a1Op)) .cap
            ((s.setStream (dprocStream s)).acceptWith (zext64 (BitVec.ofNat 32 (dprocStream s).count)))))))

end Sys2Proof.Machine
end

