-- ==== Sys2Proof/Machine/Upsample.lean ====
section
/-! DEFINITION. The upsampling / reconstruction pipeline (43): Interp and the command UPROC. -/

namespace Sys2Proof.Machine

/-- `pos` of Interp: `i / ur` (43 R151). -/
def interpPos (i : Nat) (ur : F64) : F64 := div64 noDraw (u2f i) ur

/-- The value held at the boundary: the last valid sample (43 R152). -/
def heldSample (mid : Mem) (len midBase : Nat) : F32 := mid.read (midBase + len - 1)

/-- The value at a position whose integer part is given (43 R151, R152); its interpolation takes the draws from `k` on.
`pos` is finite and not negative for every K and M of 1 .. 2^32-1, so the integer part is never `none`; like the hold branch
that branch stays in bounds (notes/assumptions/11.md). -/
def interpAt (k : Nat) (mid : Mem) (pos : F64) (len midBase : Nat) : Option Nat → F32
  | none => heldSample mid len midBase
  | some idx =>
    if len ≤ idx + 1 then heldSample mid len midBase
    else lerp k (mid.read (midBase + idx)) (sub64 noDraw pos (u2f idx)) (mid.read (midBase + idx + 1))

/-- `Interp(i, ur, K, midBase)` (43 R151). -/
def interp (k : Nat) (mid : Mem) (i : Nat) (ur : F64) (len midBase : Nat) : F32 :=
  interpAt k mid (interpPos i ur) len midBase (floor64 (interpPos i ur))

/-- What UPROC works on (43 R150): stage RC, the contents of OUT, and the draw counter. -/
structure ReconRun where
  fir : FirState
  out : Mem
  draws : Nat
  deriving DecidableEq, Repr

/-- `upsampleRatio` of a block (43 R150): computed anew in every UPROC. -/
def upsampleRatio (outLen midLen : Nat) : F64 := div64 noDraw (u2f outLen) (u2f midLen)

/-- One output of UPROC for the interpolated value `v` (43 R150): filter, then write. -/
def reconSample (taps : Taps) (idx : Nat) (v : F32) (r : ReconRun) : ReconRun :=
  { fir := firNext r.fir v
    out := r.out.write idx (firOut taps r.fir (r.draws + lerpDraws) v)
    draws := r.draws + lerpDraws + firDraws }

/-- The loop of UPROC after the outputs 0 .. n-1 (43 R150).
Every block starts at position 0, whatever the one before ended with (43 R155). -/
def reconBlock (taps : Taps) (mid : Mem) (ur : F64) (len midBase outBase : Nat) (r : ReconRun) : Nat → ReconRun
  | 0 => r
  | n + 1 =>
    reconSample taps (outBase + n) (interp (reconBlock taps mid ur len midBase outBase r n).draws mid n ur len midBase)
      (reconBlock taps mid ur len midBase outBase r n)

/-- Stage RC, OUT and the draw counter as a UPROC finds them. -/
def State.recon (s : State) : ReconRun := { fir := s.rc, out := s.outMem, draws := s.draws }

/-- Stage RC, OUT and the draw counter after the block of a UPROC (43 R150). -/
def uprocRecon (s : State) : ReconRun :=
  reconBlock s.params.tapsRC s.midMem (upsampleRatio s.lenOp s.a1Op) s.a1Op s.srcBaseOp s.dstBaseOp s.recon s.lenOp

/-- The state with stage RC, OUT and the draw counter replaced. -/
def State.setRecon (s : State) (r : ReconRun) : State := { s with rc := r.fir, outMem := r.out, draws := r.draws }

/-- UPROC (43 R150): with M = 0 or K = 0 nothing is read, written or filtered and R0 <- 0 (43 R153, R154). -/
def execUproc (s : State) : Host.Outcome State Fault Refusal :=
  .next
    (s.check s.cfgU.ready .unconfig
      (s.check (s.rangeFits .mid s.srcBaseOp s.a1Op) .range
        (s.check (s.rangeFits .output s.dstBaseOp s.lenOp) .range
          (if s.lenOp = 0 ∨ s.a1Op = 0 then s.acceptWith 0
            else (s.setRecon (uprocRecon s)).acceptWith (zext64 s.a0low)))))

end Sys2Proof.Machine
end

