-- ==== Sys2Proof/Machine/Dispatch.lean ====
section
/-! DEFINITION. The dispatch: one arm per command (30 R83). -/

namespace Sys2Proof.Machine

/-- The execution of one command, from start to end (00 R11). -/
def exec (i : Instr) (s : State) : Host.Outcome State Fault Refusal :=
  match i with
  | .freset u => Sys2Proof.Machine.execFreset u s
  | .fsamp u => Sys2Proof.Machine.execFsamp u s
  | .init u => Sys2Proof.Machine.execInit u s
  | .preset u => Sys2Proof.Machine.execPreset u s
  | .dproc => Sys2Proof.Machine.execDproc s
  | .expsz => Sys2Proof.Machine.execExpsz s
  | .uproc => Sys2Proof.Machine.execUproc s
  | .getsrc u => Sys2Proof.Machine.execGetsrc u s
  | .gettgt u => Sys2Proof.Machine.execGettgt u s
  | .getratio u => Sys2Proof.Machine.execGetratio u s

end Sys2Proof.Machine
end

