-- ==== Sys2Proof/Machine/HostPort.lean ====
section
/-! DEFINITION. The register interface and the host's moves (10 R44, 30 R88, 70 R234). -/

namespace Sys2Proof.Machine

/-- The registers of 10 R44. -/
inductive Reg where
  | a0
  | a1
  | a2
  | a3
  | cmd
  | status
  | r0
  deriving DecidableEq, Repr

/-- The register of a number; numbers 7 and above do not exist (10 R44). -/
def regOfNumber : Nat → Option Reg
  | 0 => some .a0
  | 1 => some .a1
  | 2 => some .a2
  | 3 => some .a3
  | 4 => some .cmd
  | 5 => some .status
  | 6 => some .r0
  | _ => none

/-- The width of a register (10 R44). -/
def regWidth : Reg → Nat
  | .a0 => 64
  | .a1 => 32
  | .a2 => 32
  | .a3 => 32
  | .cmd => 32
  | .status => 32
  | .r0 => 64

/-- A word written to CMD (30 R88): the command it encodes runs to its end; an illegal word is rejected (30 R84). -/
def issue (w : Word) (s : State) : Host.Outcome State Fault Refusal :=
  match decode w with
  | .ok i => exec i s
  | .error _ => .next (s.reject .illegal)

/-- A write of a value that fits the register (10 R44): operands are stored, CMD issues, STATUS and R0 ignore it. -/
def writeRegister (r : Reg) (v : BitVec 64) (s : State) : Host.Outcome State Fault Refusal :=
  match r with
  | .a0 => .next { s with a0 := v }
  | .a1 => .next { s with a1 := v.setWidth 32 }
  | .a2 => .next { s with a2 := v.setWidth 32 }
  | .a3 => .next { s with a3 := v.setWidth 32 }
  | .cmd => issue (v.setWidth 32) s
  | .status => .next s
  | .r0 => .next s

/-- The move "write register" (70 R234). -/
def hostWriteReg (number : Nat) (v : BitVec 64) (s : State) : Host.Outcome State Fault Refusal :=
  match regOfNumber number with
  | none => .refused (.noSuchRegister number)
  | some r => if v.toNat < 2 ^ regWidth r then writeRegister r v s else .refused (.valueTooWide number)

/-- What the host reads in a register; CMD holds no value (10 R42, R44). -/
def registerValue (r : Reg) (s : State) : Option (BitVec 64) :=
  match r with
  | .a0 => some s.a0
  | .a1 => some (zext64 s.a1)
  | .a2 => some (zext64 s.a2)
  | .a3 => some (zext64 s.a3)
  | .cmd => none
  | .status => some (zext64 s.statusWord)
  | .r0 => some s.r0

/-- The move "read register" (70 R234): the host gets the value and no state of the block changes. -/
def hostReadReg (number : Nat) (s : State) : Host.Outcome State Fault Refusal :=
  match regOfNumber number with
  | none => .refused (.noSuchRegister number)
  | some r =>
    match registerValue r s with
    | none => .refused .readOfCmd
    | some v => .next { s with reply := some v }

/-- The move "write buffer element" (70 R234). -/
def hostWriteElem (sp : Space) (idx : Nat) (w : Elem) (s : State) : Host.Outcome State Fault Refusal :=
  if idx < s.size sp then .next (s.setMem sp ((s.mem sp).write idx w)) else .fault (.noSuchElement sp idx)

/-- The move "read buffer element" (70 R234). -/
def hostReadElem (sp : Space) (idx : Nat) (s : State) : Host.Outcome State Fault Refusal :=
  if idx < s.size sp then .next { s with reply := some (zext64 ((s.mem sp).read idx)) }
  else .fault (.noSuchElement sp idx)

/-- One host move (70 R234). -/
def hostMove (m : HostMove) (s : State) : Host.Outcome State Fault Refusal :=
  match m with
  | .writeReg number value => hostWriteReg number value s
  | .readReg number => hostReadReg number s
  | .writeElem sp idx w => hostWriteElem sp idx w s
  | .readElem sp idx => hostReadElem sp idx s
  | .hardwareReset => .next s.hardwareReset

/-- The state in which the next host move is made: the move is taken from the pending ones, and no reply is there yet. -/
def takeMove (rest : List HostMove) (s : State) : State := { s with moves := rest, reply := none }

/-- The host's next move; with none pending the block is idle and keeps all its state (60 R205, 70 R233). -/
def nextMove (s : State) : Host.Outcome State Fault Refusal :=
  match s.moves with
  | [] => .next s
  | m :: rest => hostMove m (takeMove rest s)

/-- The move that issues a command word: a write to register 4 (70 R234). -/
def issueMove (w : Word) : HostMove := .writeReg 4 (zext64 w)

end Sys2Proof.Machine
end

