-- ==== Sys2Proof/Machine/Step.lean ====
section
/-! DEFINITION. One step of the machine: one move of the host (70 R233, R234; notes/assumptions/4.md). -/

namespace Sys2Proof.Machine

/-- One step: the host's next pending move, made to its end. -/
def step (s : State) : Host.Outcome State Fault Refusal := nextMove s

/-- The state in which the host's next move writes to CMD the word whose low `nbits` bits are those of `w`. -/
def State.withFetchWord (s : State) (nbits w : Nat) : State :=
  { s with moves := issueMove (BitVec.ofNat 32 (w % 2 ^ nbits)) :: s.moves }

end Sys2Proof.Machine
end

