-- ==== Sys2Proof/Safety.lean ====
section
/-! DEFINITION. What holds of a good state, in the terms the claims use: the invariants the spec states (10 R36, R38; 20 R62). -/

namespace Sys2Proof.Machine

/-- `0.0 <= t < 1.0` (10 R36). -/
def phaseInRange (t : F64) : Bool := ge64 t zero64 && lt64 t one64

/-- The relations of 10 R38 between the fields of a configuration record, whenever it is Ready. -/
def PipeConfig.consistent (c : PipeConfig) : Bool :=
  !c.ready
    || (finite64 c.srcRate && lt64 zero64 c.srcRate
      && c.tgtRate == targetRate
      && c.ratio == div64 noDraw c.tgtRate c.srcRate
      && finite64 c.ratio && lt64 zero64 c.ratio)

/-- Both configuration records are consistent (10 R38). -/
def State.ratesConsistent (s : State) : Bool := s.cfgD.consistent && s.cfgU.consistent

/-- The phase between commands: in range, and `prev == curr` (10 R36). -/
def State.phaseOk (s : State) : Bool := phaseInRange s.t && s.prev == s.curr

/-- The three buffers are in canonical form. -/
def State.buffersWf (s : State) : Bool := s.inMem.wf && s.midMem.wf && s.outMem.wf

/-- The invariant of the machine. -/
def State.Inv (s : State) : Bool := s.ratesConsistent && s.phaseOk && s.buffersWf

/-- The number a finite binary32 pattern holds, counted in its least subnormals; 0 for the patterns that hold none. -/
def int32 (x : F32) : Int :=
  match val32 x with
  | .nan => 0
  | .inf _ => 0
  | .fin neg m => signedInt neg m

/-- The number a finite binary64 pattern holds, counted in its least subnormals; 0 for the patterns that hold none. -/
def int64 (x : F64) : Int :=
  match val64 x with
  | .nan => 0
  | .inf _ => 0
  | .fin neg m => signedInt neg m

/-- The least magnitude, in least subnormals of binary32, that rounds to an infinity: half a unit above the largest finite
number (00 R13: a tie there goes to the even pattern, the infinity). -/
def overflow32 : Nat := (2 ^ 25 - 1) * 2 ^ 252

/-- The least magnitude, in least subnormals of binary64, that rounds to an infinity. -/
def overflow64 : Nat := (2 ^ 54 - 1) * 2 ^ 2044

/-- `r` is the binary32 result of rounding `num/den` least subnormals to nearest, ties to even (00 R13): finite exactly below
the overflow threshold, of the sign of a nonzero exact result, no farther from it than any finite number, even where another
one is equally near, and past the threshold the infinity of its sign. -/
def CorrectlyRounded32 (num : Int) (den : Nat) (r : F32) : Prop :=
  (num.natAbs < overflow32 * den →
    finite32 r = true ∧ (num ≠ 0 → r.msb = decide (num < 0)) ∧
    ∀ z : F32, finite32 z = true →
      (int32 r * den - num).natAbs ≤ (int32 z * den - num).natAbs ∧
      ((int32 r * den - num).natAbs = (int32 z * den - num).natAbs → int32 z ≠ int32 r → r.getLsbD 0 = false)) ∧
  (overflow32 * den ≤ num.natAbs → r = if num < 0 then 0xFF800000#32 else 0x7F800000#32)

/-- `r` is the binary64 result of rounding `num/den` least subnormals to nearest, ties to even (00 R13). -/
def CorrectlyRounded64 (num : Int) (den : Nat) (r : F64) : Prop :=
  (num.natAbs < overflow64 * den →
    finite64 r = true ∧ (num ≠ 0 → r.msb = decide (num < 0)) ∧
    ∀ z : F64, finite64 z = true →
      (int64 r * den - num).natAbs ≤ (int64 z * den - num).natAbs ∧
      ((int64 r * den - num).natAbs = (int64 z * den - num).natAbs → int64 z ≠ int64 r → r.getLsbD 0 = false)) ∧
  (overflow64 * den ≤ num.natAbs → r = if num < 0 then 0xFFF0000000000000#64 else 0x7FF0000000000000#64)

/-- A quiet NaN pattern of binary32: exponent all ones and bit 22 set (00 R17; notes/assumptions/15.md). -/
def quiet32 (x : F32) : Bool := x.extractLsb' 22 9 == 0x1FF#9

/-- A quiet NaN pattern of binary64: exponent all ones and bit 51 set (00 R17; notes/assumptions/15.md). -/
def quiet64 (x : F64) : Bool := x.extractLsb' 51 12 == 0xFFF#12

/-- The accumulator before pass `q` of the `while` of ResampleBlock, for the accumulator `t` it starts from (41 R120). -/
def passTime (t : F64) : Nat → F64
  | 0 => t
  | q + 1 => sub64 noDraw (passTime t q) one64

/-- The state after FirStep on the samples of a list, in order (40 R100). -/
def State.firSteps (s : State) (k : Stage) (xs : List F32) : State := xs.foldl (fun u x => u.firStep k x) s

/-- Sample `n` of a unit impulse: 1.0, then +0.0 for ever (40 R104). -/
def impulse (n : Nat) : F32 := if n = 0 then 0x3F800000#32 else 0x00000000#32

/-- A step of the host's list of moves other than a hardware reset. -/
def notResetNext (s : State) : Bool := s.moves.head? != some .hardwareReset

end Sys2Proof.Machine
end

