-- ==== Sys2Proof/Certificates/Slice0/Obligations.lean ====
section
/-! DEFINITION. The statements about the SRC core, taken from the numbered rules of spec/. -/

open Sys2Proof Sys2Proof.Machine

/-! ## Encoding (30) -/

/-- 30 R80, R83: a word decodes to a command exactly when it is the word of that command. -/
def Obligations.DecodesExactlyTheEncodedWord : Prop :=
  ∀ (w : Word) (i : Instr), decode w = .ok i ↔ w = encode i

/-- 30 R83: the match and mask columns of the opcode table, row by row, with the unit in bit 8; the seventeen words listed,
and no other word, are legal. -/
def Obligations.MatchAndMaskDecode : Prop :=
  ∀ w : Word,
    (w &&& 0xFFFFFEFF#32 = 0x00000001#32 ↔ decode w = .ok (.freset (unitOfBit (w.getLsbD 8)))) ∧
    (w &&& 0xFFFFFEFF#32 = 0x00000002#32 ↔ decode w = .ok (.fsamp (unitOfBit (w.getLsbD 8)))) ∧
    (w &&& 0xFFFFFEFF#32 = 0x00000003#32 ↔ decode w = .ok (.init (unitOfBit (w.getLsbD 8)))) ∧
    (w &&& 0xFFFFFEFF#32 = 0x00000004#32 ↔ decode w = .ok (.preset (unitOfBit (w.getLsbD 8)))) ∧
    (w &&& 0xFFFFFFFF#32 = 0x00000005#32 ↔ decode w = .ok .dproc) ∧
    (w &&& 0xFFFFFFFF#32 = 0x00000006#32 ↔ decode w = .ok .expsz) ∧
    (w &&& 0xFFFFFFFF#32 = 0x00000107#32 ↔ decode w = .ok .uproc) ∧
    (w &&& 0xFFFFFEFF#32 = 0x00000008#32 ↔ decode w = .ok (.getsrc (unitOfBit (w.getLsbD 8)))) ∧
    (w &&& 0xFFFFFEFF#32 = 0x00000009#32 ↔ decode w = .ok (.gettgt (unitOfBit (w.getLsbD 8)))) ∧
    (w &&& 0xFFFFFEFF#32 = 0x0000000A#32 ↔ decode w = .ok (.getratio (unitOfBit (w.getLsbD 8)))) ∧
    ((∃ i, decode w = .ok i) ↔
      w ∈ [0x00000001#32, 0x00000101#32, 0x00000002#32, 0x00000102#32, 0x00000003#32, 0x00000103#32, 0x00000004#32,
        0x00000104#32, 0x00000005#32, 0x00000006#32, 0x00000107#32, 0x00000008#32, 0x00000108#32, 0x00000009#32,
        0x00000109#32, 0x0000000A#32, 0x0000010A#32])

/-- 30 R83: some of the words written out in the list of legal words. -/
def Obligations.ListedWordsDecode : Prop :=
  decode 0x00000001#32 = .ok (.freset .down) ∧ decode 0x00000102#32 = .ok (.fsamp .up) ∧
  decode 0x00000103#32 = .ok (.init .up) ∧ decode 0x00000004#32 = .ok (.preset .down) ∧
  decode 0x00000005#32 = .ok .dproc ∧ decode 0x00000006#32 = .ok .expsz ∧ decode 0x00000107#32 = .ok .uproc ∧
  decode 0x00000108#32 = .ok (.getsrc .up) ∧ decode 0x00000009#32 = .ok (.gettgt .down) ∧
  decode 0x0000010A#32 = .ok (.getratio .up)

/-- 30 R84, 60 R192: exactly the words of (a) to (e) are rejected with ERR_ILLEGAL when issued, and change nothing but
STATUS; every other word runs the command it decodes to. -/
def Obligations.IllegalWordsAreRejected : Prop :=
  ∀ (s : State) (w : Word),
    if w.extractLsb' 9 23 ≠ 0 ∨ w.extractLsb' 0 8 = 0x00 ∨ 0x0B ≤ (w.extractLsb' 0 8).toNat ∨
        ((w.extractLsb' 0 8 = 0x05 ∨ w.extractLsb' 0 8 = 0x06) ∧ w.getLsbD 8 = true) ∨
        (w.extractLsb' 0 8 = 0x07 ∧ w.getLsbD 8 = false) then
      issue w s = .next { s with err := .illegal, sticky := s.sticky ||| 0b00001#5 }
    else ∃ i, decode w = .ok i ∧ issue w s = exec i s

/-! ## The host's moves (10 R44, 70 R234) -/

/-- 30 R88: a step whose next host move writes a legal word to CMD is the execution of that command; a word that does not
decode is rejected with ERR_ILLEGAL.
The step takes the move from the host's list and leaves no reply (the model's fields: notes/assumptions/4.md, 5.md). -/
def Obligations.StepRunsTheDecodedCommand : Prop :=
  ∀ (s : State) (w : Word) (rest : List HostMove), s.moves = .writeReg 4 (zext64 w) :: rest →
    (∀ i, decode w = .ok i → step s = exec i { s with moves := rest, reply := none }) ∧
    (∀ e, decode w = .error e →
      step s = .next { s with moves := rest, reply := none, err := .illegal, sticky := s.sticky ||| 0b00001#5 })

/-- 60 R205: with no host move pending the block keeps all its state (the idle step is the model's: notes/assumptions/4.md). -/
def Obligations.IdleStepKeepsState : Prop :=
  ∀ s : State, s.moves = [] → step s = .next s

/-- 10 R44: writes to the operand registers are stored whole, writes to STATUS and R0 are ignored; a read gives the
register's value and changes nothing else.
Where the move is taken from and where the answer goes are the model's fields: notes/assumptions/4.md, 5.md. -/
def Obligations.RegisterAccesses : Prop :=
  ∀ (s : State) (v : BitVec 64) (w : BitVec 32) (rest : List HostMove),
    (s.moves = .writeReg 0 v :: rest → step s = .next { s with a0 := v, moves := rest, reply := none }) ∧
    (s.moves = .writeReg 1 (zext64 w) :: rest → step s = .next { s with a1 := w, moves := rest, reply := none }) ∧
    (s.moves = .writeReg 2 (zext64 w) :: rest → step s = .next { s with a2 := w, moves := rest, reply := none }) ∧
    (s.moves = .writeReg 3 (zext64 w) :: rest → step s = .next { s with a3 := w, moves := rest, reply := none }) ∧
    (s.moves = .writeReg 5 (zext64 w) :: rest → step s = .next { s with moves := rest, reply := none }) ∧
    (s.moves = .writeReg 6 v :: rest → step s = .next { s with moves := rest, reply := none }) ∧
    (s.moves = .readReg 0 :: rest → step s = .next { s with moves := rest, reply := some s.a0 }) ∧
    (s.moves = .readReg 1 :: rest → step s = .next { s with moves := rest, reply := some (zext64 s.a1) }) ∧
    (s.moves = .readReg 2 :: rest → step s = .next { s with moves := rest, reply := some (zext64 s.a2) }) ∧
    (s.moves = .readReg 3 :: rest → step s = .next { s with moves := rest, reply := some (zext64 s.a3) }) ∧
    (s.moves = .readReg 5 :: rest → step s = .next { s with moves := rest, reply := some (zext64 s.statusWord) }) ∧
    (s.moves = .readReg 6 :: rest → step s = .next { s with moves := rest, reply := some s.r0 })

/-- 20 R62, 70 R234: a host write of a buffer element replaces that element and no other, in that space and no other; a
read gives the element and changes nothing else.
The canonical form, the list of moves and the reply are the model's: notes/assumptions/4.md, 5.md, 8.md. -/
def Obligations.ElementAccesses : Prop :=
  ∀ (s : State) (sp : Space) (idx : Nat) (w : Elem) (rest : List HostMove), idx < s.size sp →
    (s.moves = .writeElem sp idx w :: rest → (s.mem sp).wf = true →
      ∃ t, step s = .next t ∧ (t.mem sp).read idx = w ∧ (∀ j, j ≠ idx → (t.mem sp).read j = (s.mem sp).read j) ∧
        (∀ sp', sp' ≠ sp → t.mem sp' = s.mem sp') ∧
        t = { s with inMem := t.inMem, midMem := t.midMem, outMem := t.outMem, moves := rest, reply := none }) ∧
    (s.moves = .readElem sp idx :: rest →
      step s = .next { s with moves := rest, reply := some (zext64 ((s.mem sp).read idx)) })

/-- 70 R234, U12: the accesses the host does not have stop by name (the stops are the model's: notes/assumptions/10.md). -/
def Obligations.AccessesTheHostLacksStop : Prop :=
  ∀ (s : State) (n idx : Nat) (v : BitVec 64) (w : Elem) (sp : Space) (rest : List HostMove),
    (7 ≤ n → s.moves = .writeReg n v :: rest → step s = .refused (.noSuchRegister n)) ∧
    (7 ≤ n → s.moves = .readReg n :: rest → step s = .refused (.noSuchRegister n)) ∧
    (s.moves = .readReg 4 :: rest → step s = .refused .readOfCmd) ∧
    (1 ≤ n → n ≤ 5 → 2 ^ 32 ≤ v.toNat → s.moves = .writeReg n v :: rest → step s = .refused (.valueTooWide n)) ∧
    (s.size sp ≤ idx → s.moves = .writeElem sp idx w :: rest → step s = .fault (.noSuchElement sp idx)) ∧
    (s.size sp ≤ idx → s.moves = .readElem sp idx :: rest → step s = .fault (.noSuchElement sp idx))

/-! ## Reset (10 R48, 70 R220) -/

/-- 10 R48, 70 R220: the values the rule gives to the block, right after power-on and after the host's move "hardware
reset" alike. -/
def Obligations.ResetClearsTheBlock : Prop :=
  ∀ t : State, (t = State.reset ∨ ∃ s rest, s.moves = .hardwareReset :: rest ∧ step s = .next t) →
    (∀ j : Fin 64, t.aa.dl.get j = 0x00000000#32 ∧ t.rc.dl.get j = 0x00000000#32) ∧ t.aa.wi = 0 ∧ t.rc.wi = 0 ∧
    t.t = 0x0000000000000000#64 ∧ t.prev = 0x00000000#32 ∧ t.curr = 0x00000000#32 ∧
    t.cfgD.ready = false ∧ t.cfgU.ready = false ∧
    t.a0 = 0 ∧ t.a1 = 0 ∧ t.a2 = 0 ∧ t.a3 = 0 ∧ t.r0 = 0 ∧ t.statusWord = 0x00000000#32

/-- 10 R48, 70 R220: a hardware reset completes, and touches neither the coefficients nor the host's buffers.
That it keeps the rest of the host's pending moves is the model's: notes/assumptions/4.md, 18.md. -/
def Obligations.HardwareResetKeepsBuffers : Prop :=
  ∀ (s : State) (rest : List HostMove), s.moves = .hardwareReset :: rest →
    ∃ t, step s = .next t ∧ t.params = s.params ∧ t.inMem = s.inMem ∧ t.midMem = s.midMem ∧ t.outMem = s.outMem ∧
      t.moves = rest

/-! ## FIR filter stage (40, 10 R33) -/

/-- 40 R101, R102: FRESET zeroes every slot and the write index of its stage, sets ERR to 0, and changes nothing else. -/
def Obligations.FresetClearsItsStage : Prop :=
  ∀ s : State,
    exec (.freset .down) s =
      .next { s with aa := { dl := Vector.replicate 64 0x00000000#32, wi := 0 }, err := .ok } ∧
    exec (.freset .up) s =
      .next { s with rc := { dl := Vector.replicate 64 0x00000000#32, wi := 0 }, err := .ok }

/-- 40 R100, R103: FSAMP inserts A0[31:0], returns the ascending binary32 dot product, and advances the write index.
The draw indices and the draw counter are the model's: notes/assumptions/1.md, 2.md. -/
def Obligations.FsampFiltersOneSample : Prop :=
  ∀ (s : State) (x : F32), x = s.a0.extractLsb' 0 32 →
    exec (.fsamp .down) s =
      .next { s with
        aa := { dl := s.aa.dl.set s.aa.wi.val x s.aa.wi.isLt, wi := s.aa.wi + 1 }
        r0 := zext64 ((List.finRange 64).foldl
          (fun acc i => add32 (s.draws + 2 * i.val + 1) acc
            (mul32 (s.draws + 2 * i.val) (s.params.tapsAA.get i)
              ((s.aa.dl.set s.aa.wi.val x s.aa.wi.isLt).get (s.aa.wi - i)))) 0x00000000#32)
        err := .ok
        draws := s.draws + 128 } ∧
    exec (.fsamp .up) s =
      .next { s with
        rc := { dl := s.rc.dl.set s.rc.wi.val x s.rc.wi.isLt, wi := s.rc.wi + 1 }
        r0 := zext64 ((List.finRange 64).foldl
          (fun acc i => add32 (s.draws + 2 * i.val + 1) acc
            (mul32 (s.draws + 2 * i.val) (s.params.tapsRC.get i)
              ((s.rc.dl.set s.rc.wi.val x s.rc.wi.isLt).get (s.rc.wi - i)))) 0x00000000#32)
        err := .ok
        draws := s.draws + 128 }

/-- 10 R33: after c steps since the last FirReset the line holds the last min(c, 64) inputs in circular order, and +0.0 in
every other slot. -/
def Obligations.LineHoldsTheLastSamples : Prop :=
  ∀ (s : State) (k : Stage) (xs : List F32),
    (∀ i, i < min xs.length 64 →
      (((s.firReset k).firSteps k xs).fir k).dl.get ((((s.firReset k).firSteps k xs).fir k).wi - 1 - Fin.ofNat 64 i)
        = xs.getD (xs.length - 1 - i) 0x00000000#32) ∧
    (∀ j : Fin 64,
      (∀ i, i < min xs.length 64 → j ≠ (((s.firReset k).firSteps k xs).fir k).wi - 1 - Fin.ofNat 64 i) →
      (((s.firReset k).firSteps k xs).fir k).dl.get j = 0x00000000#32)

/-- 40 R104: a cleared stage answers a unit impulse with its taps, bit for bit, a zero tap with +0.0, and ends with write
index 0; for symmetric taps the document's index N-1-i gives the same values. -/
def Obligations.ImpulseResponseIsTheTaps : Prop :=
  ∀ (s : State) (k : Stage), tapsFinite (s.taps k) = true →
    (∀ n : Fin 64,
      ((s.firReset k).firSteps k ((List.range n.val).map impulse)).firValue k (impulse n.val)
        = if zeroPattern32 ((s.taps k).get n) then 0x00000000#32 else (s.taps k).get n) ∧
    (((s.firReset k).firSteps k ((List.range 64).map impulse)).fir k).wi = 0 ∧
    (tapsSymmetric (s.taps k) = true → ∀ n : Fin 64,
      sameValue32 (((s.firReset k).firSteps k ((List.range n.val).map impulse)).firValue k (impulse n.val))
        ((s.taps k).get n.rev) = true)

/-! ## Fractional resampler (41) -/

/-- 41 R122: the dry run returns the number of samples the block writes, whatever pass bound of at least `cap` the block is
given, or `cap + 1` when the block writes more than `cap`.
The pass bound is the model's: notes/assumptions/12.md. -/
def Obligations.DryRunCountsTheBlock : Prop :=
  ∀ (taps : Taps) (ratio : F64) (inp : Mem) (inBase outBase cap len : Nat) (r : ResampleRun), r.count = 0 →
    (countOutputs ratio r.t len cap ≤ cap →
      ∀ fuel, cap ≤ fuel →
        (resampleBlock taps ratio inp inBase outBase fuel r len).count = countOutputs ratio r.t len cap) ∧
    (cap < countOutputs ratio r.t len cap →
      countOutputs ratio r.t len cap = cap + 1 ∧
      ∀ fuel, cap < fuel → cap < (resampleBlock taps ratio inp inBase outBase fuel r len).count)

/-- 41 R127: whenever the dry run allows a block, the model's pass bound cuts no loop short: a larger bound gives the same
run; an accumulator that began not at least 1.0 ends so, and with a finite positive ratio one that began in [0, 1) ends in
[0, 1).
The pass bound is the model's: notes/assumptions/12.md. -/
def Obligations.PassBoundNeverBinds : Prop :=
  ∀ (taps : Taps) (ratio : F64) (inp : Mem) (inBase outBase cap fuel len : Nat) (r : ResampleRun), r.count = 0 →
    countOutputs ratio r.t len cap ≤ cap → cap ≤ fuel →
    resampleBlock taps ratio inp inBase outBase fuel r len = resampleBlock taps ratio inp inBase outBase cap r len ∧
    (ge64 r.t one64 = false → ge64 (resampleBlock taps ratio inp inBase outBase cap r len).t one64 = false) ∧
    (finite64 ratio = true → lt64 zero64 ratio = true → phaseInRange r.t = true →
      phaseInRange (resampleBlock taps ratio inp inBase outBase cap r len).t = true)

/-- 41 R126: a block split in two gives the same phase, delay line, MID contents and total count, bit for bit. -/
def Obligations.SplittingABlockChangesNothing : Prop :=
  ∀ (taps : Taps) (ratio : F64) (inp : Mem) (inBase outBase fuel len₁ len₂ : Nat) (r r₁ r₂ whole : ResampleRun),
    r.count = 0 →
    r₁ = resampleBlock taps ratio inp inBase outBase fuel r len₁ →
    r₂ = resampleBlock taps ratio inp (inBase + len₁) (outBase + r₁.count) fuel { r₁ with count := 0 } len₂ →
    whole = resampleBlock taps ratio inp inBase outBase fuel r (len₁ + len₂) →
    whole.t = r₂.t ∧ whole.prev = r₂.prev ∧ whole.curr = r₂.curr ∧ whole.fir = r₂.fir ∧ whole.mid = r₂.mid ∧
      whole.count = r₁.count + r₂.count

/-- 41 R125: with a ratio below 1 an input sample emits at most one output, so a block emits no more outputs than it has
inputs. -/
def Obligations.AtMostOneOutputPerInput : Prop :=
  ∀ (ratio t : F64) (len cap : Nat), phaseInRange t = true → lt64 zero64 ratio = true → lt64 ratio one64 = true →
    len ≤ cap → countOutputs ratio t len cap ≤ len

/-- 41 R121: in a Ready pipeline the fraction of Emit is no NaN and lies in [0, 1]. -/
def Obligations.EmitFractionInRange : Prop :=
  ∀ ratio t : F64, finite64 ratio = true → lt64 zero64 ratio = true → finite64 t = true → ge64 t one64 = true →
    ge64 (emitFrac ratio t) zero64 = true ∧ ge64 one64 (emitFrac ratio t) = true

/-- 41 R121, 43 R151: weight 0.0 returns a value equal to the first sample. -/
def Obligations.ZeroWeightReturnsTheFirstSample : Prop :=
  ∀ (k : Nat) (a b : F32), finite32 a = true → finite32 b = true → sameValue32 (lerp k a zero64 b) a = true

/-- 41 R124: an accepted EXPSZ returns ceil(L * ratio), one binary64 product rounded, then the integer above. -/
def Obligations.ExpszReturnsTheEstimate : Prop :=
  ∀ (s : State) (e : Nat), s.cfgD.ready = true →
    ceil64 (mul64 0 (u2f (s.a0.extractLsb' 0 32).toNat) s.cfgD.ratio) = some e → e ≤ 2 ^ 32 - 1 →
    exec .expsz s = .next { s with r0 := zext64 (BitVec.ofNat 32 e), err := .ok }

/-- 41 R124, 60 R193, R195: EXPSZ is rejected when unit D is Unconfigured, and when the result does not fit 32 bits or the
product is infinite. -/
def Obligations.ExpszRejections : Prop :=
  ∀ s : State,
    (s.cfgD.ready = false →
      exec .expsz s = .next { s with err := .unconfig, sticky := s.sticky ||| 0b00010#5 }) ∧
    (∀ e, s.cfgD.ready = true → ceil64 (mul64 0 (u2f (s.a0.extractLsb' 0 32).toNat) s.cfgD.ratio) = some e →
      2 ^ 32 - 1 < e → exec .expsz s = .next { s with err := .range, sticky := s.sticky ||| 0b01000#5 }) ∧
    (s.cfgD.ready = true → mul64 0 (u2f (s.a0.extractLsb' 0 32).toNat) s.cfgD.ratio = posInf64 →
      exec .expsz s = .next { s with err := .range, sticky := s.sticky ||| 0b01000#5 })

/-! ## Downsampling pipeline (42) -/

/-- 42 R140: an accepted DPROC runs the block, writes stage AA, the phase, MID, R0 and ERR, and nothing else.
The draw counter and the pass bound inside the block are the model's: notes/assumptions/2.md, 12.md. -/
def Obligations.DprocRunsTheBlock : Prop :=
  ∀ (s : State) (r : ResampleRun), s.cfgD.ready = true →
    s.a2.toNat + (s.a0.extractLsb' 0 32).toNat ≤ s.params.inSize.val →
    s.a3.toNat + s.a1.toNat ≤ s.params.midSize.val →
    countOutputs s.cfgD.ratio s.t (s.a0.extractLsb' 0 32).toNat s.a1.toNat ≤ s.a1.toNat →
    r = resampleBlock s.params.tapsAA s.cfgD.ratio s.inMem s.a2.toNat s.a3.toNat s.a1.toNat
      { fir := s.aa, t := s.t, prev := s.prev, curr := s.curr, mid := s.midMem, count := 0, draws := s.draws }
      (s.a0.extractLsb' 0 32).toNat →
    exec .dproc s =
      .next { s with
        aa := r.fir, t := r.t, prev := r.prev, curr := r.curr, midMem := r.mid, draws := r.draws
        r0 := zext64 (BitVec.ofNat 32 r.count), err := .ok }

/-- 42 R140, 60 R198: the checks of DPROC, in their order; the first that fails is reported. -/
def Obligations.DprocChecksInOrder : Prop :=
  ∀ s : State,
    (s.cfgD.ready = false → exec .dproc s = .next { s with err := .unconfig, sticky := s.sticky ||| 0b00010#5 }) ∧
    (s.cfgD.ready = true →
      (s.params.inSize.val < s.a2.toNat + (s.a0.extractLsb' 0 32).toNat ∨
        s.params.midSize.val < s.a3.toNat + s.a1.toNat) →
      exec .dproc s = .next { s with err := .range, sticky := s.sticky ||| 0b01000#5 }) ∧
    (s.cfgD.ready = true →
      s.a2.toNat + (s.a0.extractLsb' 0 32).toNat ≤ s.params.inSize.val →
      s.a3.toNat + s.a1.toNat ≤ s.params.midSize.val →
      s.a1.toNat < countOutputs s.cfgD.ratio s.t (s.a0.extractLsb' 0 32).toNat s.a1.toNat →
      exec .dproc s = .next { s with err := .cap, sticky := s.sticky ||| 0b10000#5 })

/-- 41 R120, R121, 42 R140, 20 R73: after an accepted DPROC, R0 is the count, at most the capacity A1, and no MID element
outside `A3 .. A3 + R0 - 1` has changed; sample `n` of the block steps stage AA, and pass `q` of its `while` wrote the
interpolation of `prev` and `curr` at the fraction of the accumulator before that pass; the passes ended when the
accumulator was no longer at least 1.0.
A rejected DPROC writes no MID element.
`b n` is the block's run after `n` samples.
The canonical form in the premise, the draw indices and the pass bound are the model's: notes/assumptions/8.md, 1.md, 3.md,
12.md. -/
def Obligations.DprocWritesOnlyItsOutputs : Prop :=
  ∀ s t : State, s.midMem.wf = true → exec .dproc s = .next t →
    (t.err = .ok → t.r0.toNat ≤ s.a1.toNat) ∧
    (∀ a, (t.err ≠ .ok ∨ a < s.a3.toNat ∨ s.a3.toNat + t.r0.toNat ≤ a) → t.midMem.read a = s.midMem.read a) ∧
    (t.err = .ok → ∀ b : Nat → ResampleRun,
      (∀ n, b n = resampleBlock s.params.tapsAA s.cfgD.ratio s.inMem s.a2.toNat s.a3.toNat s.a1.toNat
        { fir := s.aa, t := s.t, prev := s.prev, curr := s.curr, mid := s.midMem, count := 0, draws := s.draws } n) →
      (b (s.a0.extractLsb' 0 32).toNat).count = t.r0.toNat ∧
      ∀ n, n < (s.a0.extractLsb' 0 32).toNat →
        (b (n + 1)).fir = firNext (b n).fir (s.inMem.read (s.a2.toNat + n)) ∧
        (b (n + 1)).curr = firOut s.params.tapsAA (b n).fir (b n).draws (s.inMem.read (s.a2.toNat + n)) ∧
        (b (n + 1)).prev = (b (n + 1)).curr ∧ (b n).count ≤ (b (n + 1)).count ∧
        (∀ q, (b n).count + q < (b (n + 1)).count →
          ge64 (passTime (add64 0 (b n).t s.cfgD.ratio) q) one64 = true ∧
          ∀ k, k = (b n).draws + 128 + 7 * q →
            t.midMem.read (s.a3.toNat + ((b n).count + q)) =
              rnd32 (k + 6) (add64 (k + 5) (cvt64 (k + 4) (b n).prev)
                (mul64 (k + 3)
                  (clamp01 (sub64 0 one64
                    (div64 0 (sub64 0 (passTime (add64 0 (b n).t s.cfgD.ratio) q) one64) s.cfgD.ratio)))
                  (sub64 (k + 2) (cvt64 k (b (n + 1)).curr) (cvt64 (k + 1) (b n).prev))))) ∧
        (b (n + 1)).t = passTime (add64 0 (b n).t s.cfgD.ratio) ((b (n + 1)).count - (b n).count) ∧
        ge64 (b (n + 1)).t one64 = false)

/-- 41 R123, 42 R141: silence into a cleared stage and phase gives outputs that are all exactly +0.0, for every finite
coefficient set. -/
def Obligations.SilenceGivesSilence : Prop :=
  ∀ s t : State, s.Inv = true → tapsFinite s.params.tapsAA = true →
    s.aa.dl = Vector.replicate 64 0x00000000#32 → s.prev = 0x00000000#32 →
    (∀ n, n < (s.a0.extractLsb' 0 32).toNat → s.inMem.read (s.a2.toNat + n) = 0x00000000#32) →
    exec .dproc s = .next t → t.err = .ok →
    (∀ j, j < t.r0.toNat → t.midMem.read (s.a3.toNat + j) = 0x00000000#32) ∧ t.prev = 0x00000000#32 ∧
      t.aa.dl = Vector.replicate 64 0x00000000#32

/-! ## Upsampling pipeline (43) -/

/-- 43 R150: an accepted UPROC with M > 0 and K > 0 runs the block, writes stage RC, OUT, R0 and ERR, and nothing else.
The draw counter is the model's: notes/assumptions/2.md. -/
def Obligations.UprocRunsTheBlock : Prop :=
  ∀ (s : State) (r : ReconRun), s.cfgU.ready = true →
    s.a2.toNat + s.a1.toNat ≤ s.params.midSize.val →
    s.a3.toNat + (s.a0.extractLsb' 0 32).toNat ≤ s.params.outSize.val →
    s.a0.extractLsb' 0 32 ≠ 0#32 → s.a1 ≠ 0#32 →
    r = reconBlock s.params.tapsRC s.midMem (div64 0 (u2f (s.a0.extractLsb' 0 32).toNat) (u2f s.a1.toNat))
      s.a1.toNat s.a2.toNat s.a3.toNat { fir := s.rc, out := s.outMem, draws := s.draws }
      (s.a0.extractLsb' 0 32).toNat →
    exec .uproc s =
      .next { s with
        rc := r.fir, outMem := r.out, draws := r.draws, r0 := zext64 (s.a0.extractLsb' 0 32), err := .ok }

/-- 43 R153, R154: with K = 0 or M = 0 an UPROC whose ranges fit writes R0 = 0 and ERR = 0 and changes nothing else. -/
def Obligations.UprocOfNothing : Prop :=
  ∀ s : State, s.cfgU.ready = true →
    s.a2.toNat + s.a1.toNat ≤ s.params.midSize.val →
    s.a3.toNat + (s.a0.extractLsb' 0 32).toNat ≤ s.params.outSize.val →
    (s.a0.extractLsb' 0 32 = 0#32 ∨ s.a1 = 0#32) → exec .uproc s = .next { s with r0 := 0, err := .ok }

/-- 43 R150, 60 R198: the checks of UPROC, in their order. -/
def Obligations.UprocChecksInOrder : Prop :=
  ∀ s : State,
    (s.cfgU.ready = false → exec .uproc s = .next { s with err := .unconfig, sticky := s.sticky ||| 0b00010#5 }) ∧
    (s.cfgU.ready = true →
      (s.params.midSize.val < s.a2.toNat + s.a1.toNat ∨
        s.params.outSize.val < s.a3.toNat + (s.a0.extractLsb' 0 32).toNat) →
      exec .uproc s = .next { s with err := .range, sticky := s.sticky ||| 0b01000#5 })

/-- 43 R150: output i of an UPROC is what stage RC returns for the interpolated value i, after the interpolated values
before it; no element outside `A3 .. A3 + M - 1` is written.
The draw indices are the model's: notes/assumptions/1.md. -/
def Obligations.UprocFiltersTheInterpolation : Prop :=
  ∀ (s t : State) (v : Nat → F32), s.outMem.wf = true → exec .uproc s = .next t → t.err = .ok → s.a1 ≠ 0#32 →
    (∀ i, v i = interp (s.draws + 135 * i) s.midMem i
      (div64 0 (u2f (s.a0.extractLsb' 0 32).toNat) (u2f s.a1.toNat)) s.a1.toNat s.a2.toNat) →
    (∀ i, i < (s.a0.extractLsb' 0 32).toNat →
      t.outMem.read (s.a3.toNat + i) =
        firOut s.params.tapsRC (((List.range i).map v).foldl firNext s.rc) (s.draws + 135 * i + 7) (v i)) ∧
    t.rc = ((List.range (s.a0.extractLsb' 0 32).toNat).map v).foldl firNext s.rc ∧
    (∀ a, (a < s.a3.toNat ∨ s.a3.toNat + (s.a0.extractLsb' 0 32).toNat ≤ a) → t.outMem.read a = s.outMem.read a)

/-- 43 R152: UPROC reads no MID element outside `A2 .. A2 + K - 1`. -/
def Obligations.UprocReadsOnlyItsRange : Prop :=
  ∀ (s t : State) (m : Mem),
    (∀ a, s.a2.toNat ≤ a → a < s.a2.toNat + s.a1.toNat → m.read a = s.midMem.read a) →
    exec .uproc s = .next t → exec .uproc { s with midMem := m } = .next { t with midMem := m }

/-- 43 R151, R152: output `i` of a block is the interpolation of the samples `idx` and `idx + 1` at the fraction of its
position where both exist, and the last valid sample where `idx + 1` is past it; with K = 1 it is MID[midBase].
That the last clause holds for every `ur`, also for one whose position has no integer part, is the model's:
notes/assumptions/11.md; the draw indices too: notes/assumptions/1.md, 3.md. -/
def Obligations.LastSampleIsHeld : Prop :=
  ∀ (k i len midBase idx : Nat) (mid : Mem) (ur : F64),
    (floor64 (div64 0 (u2f i) ur) = some idx → idx + 1 < len →
      interp k mid i ur len midBase =
        rnd32 (k + 6) (add64 (k + 5) (cvt64 (k + 4) (mid.read (midBase + idx)))
          (mul64 (k + 3) (sub64 0 (div64 0 (u2f i) ur) (u2f idx))
            (sub64 (k + 2) (cvt64 k (mid.read (midBase + idx + 1))) (cvt64 (k + 1) (mid.read (midBase + idx))))))) ∧
    (floor64 (div64 0 (u2f i) ur) = some idx → len ≤ idx + 1 →
      interp k mid i ur len midBase = mid.read (midBase + len - 1)) ∧
    interp k mid i ur 1 midBase = mid.read midBase

/-- 43 R151: for all M and K from 1 to 2^32-1 every position of the block is a finite non-negative number, so its integer
part exists; position 0 is exactly +0.0. -/
def Obligations.PositionsHaveAnIndex : Prop :=
  ∀ outLen midLen i : Nat, 1 ≤ outLen → outLen < 2 ^ 32 → 1 ≤ midLen → midLen < 2 ^ 32 → i < outLen →
    (∃ idx, floor64 (interpPos i (upsampleRatio outLen midLen)) = some idx) ∧
    interpPos 0 (upsampleRatio outLen midLen) = zero64

/-! ## Configuration and accessors (44) -/

/-- 44 R166: INIT with a finite positive rate whose ratio is not infinite stores the three rates, clears its stage and, for
unit D, the phase, and changes nothing else but ERR. -/
def Obligations.InitConfiguresItsPipeline : Prop :=
  ∀ s : State, finite64 s.a0 = true → lt64 zero64 s.a0 = true → div64 0 0x40CF400000000000#64 s.a0 ≠ posInf64 →
    exec (.init .down) s =
      .next { s with
        cfgD := ⟨true, s.a0, 0x40CF400000000000#64, div64 0 0x40CF400000000000#64 s.a0⟩
        aa := { dl := Vector.replicate 64 0x00000000#32, wi := 0 }
        t := 0x0000000000000000#64, prev := 0x00000000#32, curr := 0x00000000#32, err := .ok } ∧
    exec (.init .up) s =
      .next { s with
        cfgU := ⟨true, s.a0, 0x40CF400000000000#64, div64 0 0x40CF400000000000#64 s.a0⟩
        rc := { dl := Vector.replicate 64 0x00000000#32, wi := 0 }, err := .ok }

/-- 44 R166, 60 R194: INIT with a NaN, an infinity, a zero, a negative rate or a rate whose ratio is infinite is rejected
with ERR_RATE. -/
def Obligations.InitRejectsBadRates : Prop :=
  ∀ (s : State) (u : PipeUnit),
    finite64 s.a0 = false ∨ lt64 zero64 s.a0 = false ∨ div64 0 0x40CF400000000000#64 s.a0 = posInf64 →
    exec (.init u) s = .next { s with err := .rate, sticky := s.sticky ||| 0b00100#5 }

/-- 44 R166, 10 R38: for a finite positive rate the ratio is never zero, subnormal or a NaN. -/
def Obligations.RatioIsNormal : Prop :=
  ∀ rate : F64, finite64 rate = true → lt64 zero64 rate = true →
    ge64 (div64 0 0x40CF400000000000#64 rate) 0x0010000000000000#64 = true

/-- 44 R167, 41 R123: PRESET clears the stage of its unit and, for unit D, the phase; the configuration and R0 are kept. -/
def Obligations.PresetClearsItsPipeline : Prop :=
  ∀ s : State,
    exec (.preset .down) s =
      .next { s with
        aa := { dl := Vector.replicate 64 0x00000000#32, wi := 0 }
        t := 0x0000000000000000#64, prev := 0x00000000#32, curr := 0x00000000#32, err := .ok } ∧
    exec (.preset .up) s =
      .next { s with rc := { dl := Vector.replicate 64 0x00000000#32, wi := 0 }, err := .ok }

/-- 44 R168 to R170: in a Ready unit the accessors put the configured field into R0 and change nothing else; where the
rates meet 10 R38, GETTGT gives 16000.0. -/
def Obligations.AccessorsReturnTheField : Prop :=
  ∀ (s : State) (u : PipeUnit), (s.cfg u).ready = true →
    exec (.getsrc u) s = .next { s with r0 := (s.cfg u).srcRate, err := .ok } ∧
    exec (.gettgt u) s = .next { s with r0 := (s.cfg u).tgtRate, err := .ok } ∧
    exec (.getratio u) s = .next { s with r0 := (s.cfg u).ratio, err := .ok } ∧
    (s.ratesConsistent = true → exec (.gettgt u) s = .next { s with r0 := 0x40CF400000000000#64, err := .ok })

/-- 60 R193: a command that needs a configured pipeline is rejected with ERR_UNCONFIG while its unit is Unconfigured. -/
def Obligations.UnconfiguredCommandsAreRejected : Prop :=
  ∀ (s : State) (i : Instr),
    (i = .dproc ∨ i = .expsz ∨ i = .uproc ∨ ∃ u, i = .getsrc u ∨ i = .gettgt u ∨ i = .getratio u) →
    (s.cfg (unitOf i)).ready = false → exec i s = .next { s with err := .unconfig, sticky := s.sticky ||| 0b00010#5 }

/-! ## Errors and frames over all commands (60, 10, 20) -/

/-- 60 R199: a rejected command changes nothing but STATUS: ERR takes the code c and bit 16 + (c - 1) of STATUS is set. -/
def Obligations.RejectionChangesOnlyStatus : Prop :=
  ∀ (i : Instr) (s t : State), exec i s = .next t → t.err ≠ .ok →
    t = { s with err := t.err, sticky := t.sticky } ∧
    t.statusWord = (s.statusWord &&& 0xFFFFF0FF#32) ||| (t.err.code.setWidth 32 <<< 8) |||
      (1#32 <<< (16 + (t.err.code.toNat - 1)))

/-- 60 R191: which command raises which error. -/
def Obligations.ErrorsRaisedByEachCommand : Prop :=
  ∀ (i : Instr) (s t : State), exec i s = .next t →
    match i with
    | .freset _ => t.err = .ok
    | .fsamp _ => t.err = .ok
    | .init _ => t.err = .ok ∨ t.err = .rate
    | .preset _ => t.err = .ok
    | .dproc => t.err = .ok ∨ t.err = .unconfig ∨ t.err = .range ∨ t.err = .cap
    | .expsz => t.err = .ok ∨ t.err = .unconfig ∨ t.err = .range
    | .uproc => t.err = .ok ∨ t.err = .unconfig ∨ t.err = .range
    | .getsrc _ => t.err = .ok ∨ t.err = .unconfig
    | .gettgt _ => t.err = .ok ∨ t.err = .unconfig
    | .getratio _ => t.err = .ok ∨ t.err = .unconfig

/-- 60 R200: a STICKY bit once set stays set through every step but a hardware reset. -/
def Obligations.StickyBitsStay : Prop :=
  ∀ s t : State, notResetNext s = true → step s = .next t → s.sticky &&& t.sticky = s.sticky

/-- 10 R43, 60 R200: no command reads ERR or STICKY: with other values there it does the same. -/
def Obligations.NoCommandReadsStatus : Prop :=
  ∀ (i : Instr) (s t : State) (e : Err) (k : BitVec 5), exec i s = .next t →
    exec i { s with err := e, sticky := k } = .next { t with sticky := k ||| t.err.stickyBit }

/-- 10 R43: the fields of STATUS, bit by bit; the reserved bits read as 0. -/
def Obligations.StatusFields : Prop :=
  ∀ s : State,
    s.statusWord.extractLsb' 0 1 = BitVec.ofBool s.cfgD.ready ∧
    s.statusWord.extractLsb' 1 1 = BitVec.ofBool s.cfgU.ready ∧
    s.statusWord.extractLsb' 2 6 = 0#6 ∧ s.statusWord.extractLsb' 8 4 = s.err.code ∧
    s.statusWord.extractLsb' 12 4 = 0#4 ∧ s.statusWord.extractLsb' 16 5 = s.sticky ∧
    s.statusWord.extractLsb' 21 11 = 0#11

/-- 10 R40: no command writes an operand register, and every command but INIT ignores A0[63:32]. -/
def Obligations.OperandsAreKept : Prop :=
  ∀ (i : Instr) (s t : State), exec i s = .next t →
    (t.a0 = s.a0 ∧ t.a1 = s.a1 ∧ t.a2 = s.a2 ∧ t.a3 = s.a3) ∧
    ∀ v : BitVec 64, v.extractLsb' 0 32 = s.a0.extractLsb' 0 32 → (∀ u, i ≠ .init u) →
      exec i { s with a0 := v } = .next { t with a0 := v }

/-- 20 R64: no command writes IN, only DPROC writes MID, only UPROC writes OUT; only DPROC reads IN, only UPROC reads MID,
no command reads OUT: with other contents there, every other command does the same to everything else.
A DPROC with other contents of MID writes the same elements `A3 .. A3 + R0 - 1` and leaves the others as they are, and so
does a UPROC with OUT.
The canonical form in the premises is the model's: notes/assumptions/8.md. -/
def Obligations.BuffersReachedByTheirCommands : Prop :=
  ∀ (i : Instr) (s t : State), exec i s = .next t →
    t.inMem = s.inMem ∧ (i ≠ .dproc → t.midMem = s.midMem) ∧ (i ≠ .uproc → t.outMem = s.outMem) ∧
    ∀ m : Mem,
      (i ≠ .dproc → exec i { s with inMem := m } = .next { t with inMem := m }) ∧
      (i ≠ .dproc → i ≠ .uproc → exec i { s with midMem := m } = .next { t with midMem := m }) ∧
      (i = .dproc → s.midMem.wf = true → m.wf = true →
        ∃ m', exec i { s with midMem := m } = .next { t with midMem := m' } ∧ m'.wf = true ∧
          ∀ a, m'.read a =
            if t.err = .ok ∧ s.a3.toNat ≤ a ∧ a < s.a3.toNat + t.r0.toNat then t.midMem.read a else m.read a) ∧
      (i ≠ .uproc → exec i { s with outMem := m } = .next { t with outMem := m }) ∧
      (i = .uproc → s.outMem.wf = true → m.wf = true →
        ∃ m', exec i { s with outMem := m } = .next { t with outMem := m' } ∧ m'.wf = true ∧
          ∀ a, m'.read a =
            if t.err = .ok ∧ s.a3.toNat ≤ a ∧ a < s.a3.toNat + t.r0.toNat then t.outMem.read a else m.read a)

/-- 20 R64, 40 section 2, 41 R124, 42 R140, 43 R150, 44, 60 R199, 70 R221: a command of one unit
leaves the other unit's stage, phase, configuration and output buffer alone. -/
def Obligations.UnitsAreIndependent : Prop :=
  ∀ (i : Instr) (s t : State), exec i s = .next t →
    (unitOf i = .down → t.rc = s.rc ∧ t.cfgU = s.cfgU ∧ t.outMem = s.outMem) ∧
    (unitOf i = .up →
      t.aa = s.aa ∧ t.t = s.t ∧ t.prev = s.prev ∧ t.curr = s.curr ∧ t.cfgD = s.cfgD ∧ t.midMem = s.midMem)

/-- 10 R39: in one step a pipeline becomes Ready exactly when the host issues the INIT of its unit and it is accepted; it
stays Ready through every step but a hardware reset, and a hardware reset makes it Unconfigured.
The first and the third clause say the same of one command and of the reset itself. -/
def Obligations.ReadyOnlyByInit : Prop :=
  (∀ (i : Instr) (s t : State) (u : PipeUnit), exec i s = .next t → (s.cfg u).ready = false →
    ((t.cfg u).ready = true ↔ i = .init u ∧ t.err = .ok)) ∧
  (∀ (s t : State) (u : PipeUnit), step s = .next t → (s.cfg u).ready = false →
    ((t.cfg u).ready = true ↔ s.moves.head? = some (.writeReg 4 (zext64 (encode (.init u)))) ∧ t.err = .ok)) ∧
  (∀ (s : State) (u : PipeUnit), (s.hardwareReset.cfg u).ready = false) ∧
  (∀ (s t : State) (u : PipeUnit), notResetNext s = true → step s = .next t → (s.cfg u).ready = true →
    (t.cfg u).ready = true) ∧
  (∀ (s t : State) (u : PipeUnit), notResetNext s = false → step s = .next t → (t.cfg u).ready = false)

/-- 10 R34: no step changes the coefficients, nor the sizes of the host's buffers.
That the parameters stand beside the state is the model's choice: notes/assumptions/6.md. -/
def Obligations.ParametersNeverChange : Prop :=
  ∀ s t : State, step s = .next t → t.params = s.params

/-! ## Invariants (10 R36, R38; 20 R62) -/

/-- 10 R36, R38: the state after reset meets the invariant.
The canonical form of the empty buffers is the model's: notes/assumptions/8.md. -/
def Obligations.ResetMeetsTheInvariant : Prop :=
  State.reset.Inv = true

/-- 10 R36, R38: every step keeps the relations between the rates of a Ready pipeline, and with them the accumulator in
[0, 1) and `prev` equal to `curr`. -/
def Obligations.StepKeepsRatesAndPhase : Prop :=
  ∀ s t : State, s.ratesConsistent = true → step s = .next t →
    t.ratesConsistent = true ∧ (s.phaseOk = true → t.phaseOk = true)

/-- 20 R62 as the model holds it (notes/assumptions/8.md): every step keeps the three buffers in canonical form. -/
def Obligations.StepKeepsBuffersCanonical : Prop :=
  ∀ s t : State, s.buffersWf = true → step s = .next t → t.buffersWf = true

/-! ## Arithmetic (00 R13 to R17) -/

/-- 00 R13: the rounded magnitude is a nearest representable one, and of two nearest ones the even pattern. -/
def Obligations.RoundingIsNearestEven : Prop :=
  ∀ (f : Format) (num den m : Nat), f = b32 ∨ f = b64 → 0 < den →
    (((magValue f.prec (roundMag f.prec num den) : Int) * den - num).natAbs ≤
      ((magValue f.prec m : Int) * den - num).natAbs) ∧
    (((magValue f.prec (roundMag f.prec num den) : Int) * den - num).natAbs =
      ((magValue f.prec m : Int) * den - num).natAbs →
      m ≠ roundMag f.prec num den → roundMag f.prec num den % 2 = 0)

/-- 00 R13: `add32`, `add64` and `sub64` of finite numbers give the exact sum or difference rounded to nearest, ties to even,
finite exactly below the overflow threshold and the infinity of its sign from there on. -/
def Obligations.SumsAreCorrectlyRounded : Prop :=
  (∀ (k : Nat) (a b : F32), finite32 a = true → finite32 b = true →
    CorrectlyRounded32 (int32 a + int32 b) 1 (add32 k a b)) ∧
  (∀ (k : Nat) (a b : F64), finite64 a = true → finite64 b = true →
    CorrectlyRounded64 (int64 a + int64 b) 1 (add64 k a b) ∧
    CorrectlyRounded64 (int64 a - int64 b) 1 (sub64 k a b))

/-- 00 R13: `mul32` and `mul64` of finite numbers, and `div64` by a nonzero one, give the exact product or quotient rounded
to nearest, ties to even, finite exactly below the overflow threshold and the infinity of its sign from there on. -/
def Obligations.ProductsAndQuotientsAreCorrectlyRounded : Prop :=
  (∀ (k : Nat) (a b : F32), finite32 a = true → finite32 b = true →
    CorrectlyRounded32 (int32 a * int32 b) (2 ^ 149) (mul32 k a b)) ∧
  (∀ (k : Nat) (a b : F64), finite64 a = true → finite64 b = true →
    CorrectlyRounded64 (int64 a * int64 b) (2 ^ 1074) (mul64 k a b) ∧
    (int64 b ≠ 0 →
      CorrectlyRounded64 (int64 a * 2 ^ 1074 * (int64 b).sign) (int64 b).natAbs (div64 k a b)))

/-- 00 §5, R13: widening to binary64 is exact, so rounding back gives the same pattern; `rnd32` of a finite number is
correctly rounded. -/
def Obligations.WideningIsExact : Prop :=
  (∀ (j k : Nat) (x : F32), finite32 x = true →
    finite64 (cvt64 k x) = true ∧ int64 (cvt64 k x) = int32 x * 2 ^ 925 ∧ rnd32 j (cvt64 k x) = x) ∧
  (∀ (k : Nat) (a : F64), finite64 a = true → CorrectlyRounded32 (int64 a) (2 ^ 925) (rnd32 k a))

/-- 00 R16: floor64 and ceil64 of a finite non-negative value are the integers below and above it, and u2f is exact. -/
def Obligations.IntegerConversionsAreExact : Prop :=
  (∀ d : F64, finite64 d = true → ge64 d zero64 = true →
    ∃ lo hi : Nat, floor64 d = some lo ∧ ceil64 d = some hi ∧
      (lo : Int) * 2 ^ 1074 ≤ int64 d ∧ int64 d < ((lo : Int) + 1) * 2 ^ 1074 ∧
      int64 d ≤ (hi : Int) * 2 ^ 1074 ∧ ((hi : Int) - 1) * 2 ^ 1074 < int64 d) ∧
  (∀ n : Nat, n < 2 ^ 53 → finite64 (u2f n) = true ∧ int64 (u2f n) = (n : Int) * 2 ^ 1074)

/-- 00 R14: clamp01, and a NaN comes through it. -/
def Obligations.ClampToUnitInterval : Prop :=
  ∀ d : F64,
    (lt64 d 0x0000000000000000#64 = true → clamp01 d = 0x0000000000000000#64) ∧
    (lt64 0x3FF0000000000000#64 d = true → clamp01 d = 0x3FF0000000000000#64) ∧
    (lt64 d 0x0000000000000000#64 = false → lt64 0x3FF0000000000000#64 d = false → clamp01 d = d) ∧
    (val64 d = .nan → clamp01 d = d)

/-- 00 R17: rounding gives a NaN exactly for an exact result that is none; a NaN that a primitive produces is quiet, whatever
the free value is; every primitive with a NaN operand gives a NaN.
Which bit makes a NaN quiet is the model's reading: notes/assumptions/15.md. -/
def Obligations.ProducedNansAreQuiet : Prop :=
  (∀ (k : Nat) (e : Exact), (val32 (round32 k e) = .nan ↔ e = .nan) ∧ (val64 (round64 k e) = .nan ↔ e = .nan)) ∧
  (∀ k : Nat, quiet32 (round32 k .nan) = true ∧ quiet64 (round64 k .nan) = true) ∧
  (∀ (k : Nat) (a b y : F32), y = add32 k a b ∨ y = mul32 k a b →
    (val32 a = .nan ∨ val32 b = .nan → val32 y = .nan) ∧ (val32 y = .nan → quiet32 y = true)) ∧
  (∀ (k : Nat) (a b y : F64), y = add64 k a b ∨ y = sub64 k a b ∨ y = mul64 k a b ∨ y = div64 k a b →
    (val64 a = .nan ∨ val64 b = .nan → val64 y = .nan) ∧ (val64 y = .nan → quiet64 y = true)) ∧
  (∀ (k : Nat) (a : F32), (val32 a = .nan → val64 (cvt64 k a) = .nan) ∧
    (val64 (cvt64 k a) = .nan → quiet64 (cvt64 k a) = true)) ∧
  (∀ (k : Nat) (a : F64), (val64 a = .nan → val32 (rnd32 k a) = .nan) ∧
    (val32 (rnd32 k a) = .nan → quiet32 (rnd32 k a) = true))
end

