-- ==== Sys2Proof/Laws/State.lean ====
section
/-! SUPPORT. One lemma per field per update of State, each true by unfolding the update, so that no proof unfolds one. -/

namespace Sys2Proof.Machine

/-! ### The accessors of the two stages, units and three spaces -/

@[simp] theorem State.fir_aa (s : State) : s.fir .aa = s.aa := rfl
@[simp] theorem State.fir_rc (s : State) : s.fir .rc = s.rc := rfl
@[simp] theorem State.cfg_down (s : State) : s.cfg .down = s.cfgD := rfl
@[simp] theorem State.cfg_up (s : State) : s.cfg .up = s.cfgU := rfl
@[simp] theorem State.mem_input (s : State) : s.mem .input = s.inMem := rfl
@[simp] theorem State.mem_mid (s : State) : s.mem .mid = s.midMem := rfl
@[simp] theorem State.mem_output (s : State) : s.mem .output = s.outMem := rfl

@[simp] theorem State.fir_setFir (s : State) (k : Stage) (f : FirState) : (s.setFir k f).fir k = f := by
  cases k <;> rfl

theorem State.fir_setFir_ne (s : State) (k j : Stage) (f : FirState) (h : j ≠ k) : (s.setFir k f).fir j = s.fir j := by
  cases k <;> cases j <;> first | rfl | exact absurd rfl h

@[simp] theorem State.fir_firReset (s : State) (k : Stage) : (s.firReset k).fir k = FirState.clear :=
  s.fir_setFir k FirState.clear

@[simp] theorem State.fir_firStep (s : State) (k : Stage) (x : F32) : (s.firStep k x).fir k = firNext (s.fir k) x := by
  cases k <;> rfl

@[simp] theorem State.taps_firReset (s : State) (k j : Stage) : (s.firReset k).taps j = s.taps j := by
  cases k <;> cases j <;> rfl

@[simp] theorem State.taps_firStep (s : State) (k j : Stage) (x : F32) : (s.firStep k x).taps j = s.taps j := by
  cases k <;> cases j <;> rfl

@[simp] theorem State.cfg_setCfg (s : State) (u : PipeUnit) (c : PipeConfig) : (s.setCfg u c).cfg u = c := by
  cases u <;> rfl

theorem State.cfg_setCfg_ne (s : State) (u v : PipeUnit) (c : PipeConfig) (h : v ≠ u) :
    (s.setCfg u c).cfg v = s.cfg v := by
  cases u <;> cases v <;> first | rfl | exact absurd rfl h

@[simp] theorem State.mem_setMem (s : State) (sp : Space) (m : Mem) : (s.setMem sp m).mem sp = m := by
  cases sp <;> rfl

theorem State.mem_setMem_ne (s : State) (sp q : Space) (m : Mem) (h : q ≠ sp) : (s.setMem sp m).mem q = s.mem q := by
  cases sp <;> cases q <;> first | rfl | exact absurd rfl h

@[simp] theorem State.size_setMem (s : State) (sp q : Space) (m : Mem) : (s.setMem sp m).size q = s.size q := by
  cases sp <;> cases q <;> rfl

/-! ### What a check does (60 R198) -/

@[simp] theorem State.check_true (s : State) (c : Err) (go : State) : s.check true c go = go := rfl
@[simp] theorem State.check_false (s : State) (c : Err) (go : State) : s.check false c go = s.reject c := rfl

/-- A check either goes on or rejects. -/
theorem State.check_cases (s : State) (ok : Bool) (c : Err) (go : State) :
    (ok = true ∧ s.check ok c go = go) ∨ (ok = false ∧ s.check ok c go = s.reject c) := by
  cases ok
  · exact .inr ⟨rfl, rfl⟩
  · exact .inl ⟨rfl, rfl⟩

/-! ### Rejection (60 R199) -/

@[simp] theorem State.aa_reject (s : State) (c : Err) : (s.reject c).aa = s.aa := rfl
@[simp] theorem State.rc_reject (s : State) (c : Err) : (s.reject c).rc = s.rc := rfl
@[simp] theorem State.t_reject (s : State) (c : Err) : (s.reject c).t = s.t := rfl
@[simp] theorem State.prev_reject (s : State) (c : Err) : (s.reject c).prev = s.prev := rfl
@[simp] theorem State.curr_reject (s : State) (c : Err) : (s.reject c).curr = s.curr := rfl
@[simp] theorem State.cfgD_reject (s : State) (c : Err) : (s.reject c).cfgD = s.cfgD := rfl
@[simp] theorem State.cfgU_reject (s : State) (c : Err) : (s.reject c).cfgU = s.cfgU := rfl
@[simp] theorem State.a0_reject (s : State) (c : Err) : (s.reject c).a0 = s.a0 := rfl
@[simp] theorem State.a1_reject (s : State) (c : Err) : (s.reject c).a1 = s.a1 := rfl
@[simp] theorem State.a2_reject (s : State) (c : Err) : (s.reject c).a2 = s.a2 := rfl
@[simp] theorem State.a3_reject (s : State) (c : Err) : (s.reject c).a3 = s.a3 := rfl
@[simp] theorem State.r0_reject (s : State) (c : Err) : (s.reject c).r0 = s.r0 := rfl
@[simp] theorem State.err_reject (s : State) (c : Err) : (s.reject c).err = c := rfl
@[simp] theorem State.sticky_reject (s : State) (c : Err) : (s.reject c).sticky = s.sticky ||| c.stickyBit := rfl
@[simp] theorem State.inMem_reject (s : State) (c : Err) : (s.reject c).inMem = s.inMem := rfl
@[simp] theorem State.midMem_reject (s : State) (c : Err) : (s.reject c).midMem = s.midMem := rfl
@[simp] theorem State.outMem_reject (s : State) (c : Err) : (s.reject c).outMem = s.outMem := rfl
@[simp] theorem State.params_reject (s : State) (c : Err) : (s.reject c).params = s.params := rfl
@[simp] theorem State.draws_reject (s : State) (c : Err) : (s.reject c).draws = s.draws := rfl
@[simp] theorem State.moves_reject (s : State) (c : Err) : (s.reject c).moves = s.moves := rfl
@[simp] theorem State.reply_reject (s : State) (c : Err) : (s.reject c).reply = s.reply := rfl

/-! ### Acceptance without a result -/

@[simp] theorem State.aa_accept (s : State) : (s.accept).aa = s.aa := rfl
@[simp] theorem State.rc_accept (s : State) : (s.accept).rc = s.rc := rfl
@[simp] theorem State.t_accept (s : State) : (s.accept).t = s.t := rfl
@[simp] theorem State.prev_accept (s : State) : (s.accept).prev = s.prev := rfl
@[simp] theorem State.curr_accept (s : State) : (s.accept).curr = s.curr := rfl
@[simp] theorem State.cfgD_accept (s : State) : (s.accept).cfgD = s.cfgD := rfl
@[simp] theorem State.cfgU_accept (s : State) : (s.accept).cfgU = s.cfgU := rfl
@[simp] theorem State.a0_accept (s : State) : (s.accept).a0 = s.a0 := rfl
@[simp] theorem State.a1_accept (s : State) : (s.accept).a1 = s.a1 := rfl
@[simp] theorem State.a2_accept (s : State) : (s.accept).a2 = s.a2 := rfl
@[simp] theorem State.a3_accept (s : State) : (s.accept).a3 = s.a3 := rfl
@[simp] theorem State.r0_accept (s : State) : (s.accept).r0 = s.r0 := rfl
@[simp] theorem State.err_accept (s : State) : (s.accept).err = .ok := rfl
@[simp] theorem State.sticky_accept (s : State) : (s.accept).sticky = s.sticky := rfl
@[simp] theorem State.inMem_accept (s : State) : (s.accept).inMem = s.inMem := rfl
@[simp] theorem State.midMem_accept (s : State) : (s.accept).midMem = s.midMem := rfl
@[simp] theorem State.outMem_accept (s : State) : (s.accept).outMem = s.outMem := rfl
@[simp] theorem State.params_accept (s : State) : (s.accept).params = s.params := rfl
@[simp] theorem State.draws_accept (s : State) : (s.accept).draws = s.draws := rfl
@[simp] theorem State.moves_accept (s : State) : (s.accept).moves = s.moves := rfl
@[simp] theorem State.reply_accept (s : State) : (s.accept).reply = s.reply := rfl

/-! ### Acceptance with a result -/

@[simp] theorem State.aa_acceptWith (s : State) (r : BitVec 64) : (s.acceptWith r).aa = s.aa := rfl
@[simp] theorem State.rc_acceptWith (s : State) (r : BitVec 64) : (s.acceptWith r).rc = s.rc := rfl
@[simp] theorem State.t_acceptWith (s : State) (r : BitVec 64) : (s.acceptWith r).t = s.t := rfl
@[simp] theorem State.prev_acceptWith (s : State) (r : BitVec 64) : (s.acceptWith r).prev = s.prev := rfl
@[simp] theorem State.curr_acceptWith (s : State) (r : BitVec 64) : (s.acceptWith r).curr = s.curr := rfl
@[simp] theorem State.cfgD_acceptWith (s : State) (r : BitVec 64) : (s.acceptWith r).cfgD = s.cfgD := rfl
@[simp] theorem State.cfgU_acceptWith (s : State) (r : BitVec 64) : (s.acceptWith r).cfgU = s.cfgU := rfl
@[simp] theorem State.a0_acceptWith (s : State) (r : BitVec 64) : (s.acceptWith r).a0 = s.a0 := rfl
@[simp] theorem State.a1_acceptWith (s : State) (r : BitVec 64) : (s.acceptWith r).a1 = s.a1 := rfl
@[simp] theorem State.a2_acceptWith (s : State) (r : BitVec 64) : (s.acceptWith r).a2 = s.a2 := rfl
@[simp] theorem State.a3_acceptWith (s : State) (r : BitVec 64) : (s.acceptWith r).a3 = s.a3 := rfl
@[simp] theorem State.r0_acceptWith (s : State) (r : BitVec 64) : (s.acceptWith r).r0 = r := rfl
@[simp] theorem State.err_acceptWith (s : State) (r : BitVec 64) : (s.acceptWith r).err = .ok := rfl
@[simp] theorem State.sticky_acceptWith (s : State) (r : BitVec 64) : (s.acceptWith r).sticky = s.sticky := rfl
@[simp] theorem State.inMem_acceptWith (s : State) (r : BitVec 64) : (s.acceptWith r).inMem = s.inMem := rfl
@[simp] theorem State.midMem_acceptWith (s : State) (r : BitVec 64) : (s.acceptWith r).midMem = s.midMem := rfl
@[simp] theorem State.outMem_acceptWith (s : State) (r : BitVec 64) : (s.acceptWith r).outMem = s.outMem := rfl
@[simp] theorem State.params_acceptWith (s : State) (r : BitVec 64) : (s.acceptWith r).params = s.params := rfl
@[simp] theorem State.draws_acceptWith (s : State) (r : BitVec 64) : (s.acceptWith r).draws = s.draws := rfl
@[simp] theorem State.moves_acceptWith (s : State) (r : BitVec 64) : (s.acceptWith r).moves = s.moves := rfl
@[simp] theorem State.reply_acceptWith (s : State) (r : BitVec 64) : (s.acceptWith r).reply = s.reply := rfl

/-! ### Taking a host move -/

@[simp] theorem State.aa_takeMove (s : State) (rest : List HostMove) : (takeMove rest s).aa = s.aa := rfl
@[simp] theorem State.rc_takeMove (s : State) (rest : List HostMove) : (takeMove rest s).rc = s.rc := rfl
@[simp] theorem State.t_takeMove (s : State) (rest : List HostMove) : (takeMove rest s).t = s.t := rfl
@[simp] theorem State.prev_takeMove (s : State) (rest : List HostMove) : (takeMove rest s).prev = s.prev := rfl
@[simp] theorem State.curr_takeMove (s : State) (rest : List HostMove) : (takeMove rest s).curr = s.curr := rfl
@[simp] theorem State.cfgD_takeMove (s : State) (rest : List HostMove) : (takeMove rest s).cfgD = s.cfgD := rfl
@[simp] theorem State.cfgU_takeMove (s : State) (rest : List HostMove) : (takeMove rest s).cfgU = s.cfgU := rfl
@[simp] theorem State.a0_takeMove (s : State) (rest : List HostMove) : (takeMove rest s).a0 = s.a0 := rfl
@[simp] theorem State.a1_takeMove (s : State) (rest : List HostMove) : (takeMove rest s).a1 = s.a1 := rfl
@[simp] theorem State.a2_takeMove (s : State) (rest : List HostMove) : (takeMove rest s).a2 = s.a2 := rfl
@[simp] theorem State.a3_takeMove (s : State) (rest : List HostMove) : (takeMove rest s).a3 = s.a3 := rfl
@[simp] theorem State.r0_takeMove (s : State) (rest : List HostMove) : (takeMove rest s).r0 = s.r0 := rfl
@[simp] theorem State.err_takeMove (s : State) (rest : List HostMove) : (takeMove rest s).err = s.err := rfl
@[simp] theorem State.sticky_takeMove (s : State) (rest : List HostMove) : (takeMove rest s).sticky = s.sticky := rfl
@[simp] theorem State.inMem_takeMove (s : State) (rest : List HostMove) : (takeMove rest s).inMem = s.inMem := rfl
@[simp] theorem State.midMem_takeMove (s : State) (rest : List HostMove) : (takeMove rest s).midMem = s.midMem := rfl
@[simp] theorem State.outMem_takeMove (s : State) (rest : List HostMove) : (takeMove rest s).outMem = s.outMem := rfl
@[simp] theorem State.params_takeMove (s : State) (rest : List HostMove) : (takeMove rest s).params = s.params := rfl
@[simp] theorem State.draws_takeMove (s : State) (rest : List HostMove) : (takeMove rest s).draws = s.draws := rfl
@[simp] theorem State.moves_takeMove (s : State) (rest : List HostMove) : (takeMove rest s).moves = rest := rfl
@[simp] theorem State.reply_takeMove (s : State) (rest : List HostMove) : (takeMove rest s).reply = none := rfl

/-! ### The phase reset (41 R123) -/

@[simp] theorem State.aa_phaseReset (s : State) : (s.phaseReset).aa = s.aa := rfl
@[simp] theorem State.rc_phaseReset (s : State) : (s.phaseReset).rc = s.rc := rfl
@[simp] theorem State.t_phaseReset (s : State) : (s.phaseReset).t = zero64 := rfl
@[simp] theorem State.prev_phaseReset (s : State) : (s.phaseReset).prev = zero32 := rfl
@[simp] theorem State.curr_phaseReset (s : State) : (s.phaseReset).curr = zero32 := rfl
@[simp] theorem State.cfgD_phaseReset (s : State) : (s.phaseReset).cfgD = s.cfgD := rfl
@[simp] theorem State.cfgU_phaseReset (s : State) : (s.phaseReset).cfgU = s.cfgU := rfl
@[simp] theorem State.a0_phaseReset (s : State) : (s.phaseReset).a0 = s.a0 := rfl
@[simp] theorem State.a1_phaseReset (s : State) : (s.phaseReset).a1 = s.a1 := rfl
@[simp] theorem State.a2_phaseReset (s : State) : (s.phaseReset).a2 = s.a2 := rfl
@[simp] theorem State.a3_phaseReset (s : State) : (s.phaseReset).a3 = s.a3 := rfl
@[simp] theorem State.r0_phaseReset (s : State) : (s.phaseReset).r0 = s.r0 := rfl
@[simp] theorem State.err_phaseReset (s : State) : (s.phaseReset).err = s.err := rfl
@[simp] theorem State.sticky_phaseReset (s : State) : (s.phaseReset).sticky = s.sticky := rfl
@[simp] theorem State.inMem_phaseReset (s : State) : (s.phaseReset).inMem = s.inMem := rfl
@[simp] theorem State.midMem_phaseReset (s : State) : (s.phaseReset).midMem = s.midMem := rfl
@[simp] theorem State.outMem_phaseReset (s : State) : (s.phaseReset).outMem = s.outMem := rfl
@[simp] theorem State.params_phaseReset (s : State) : (s.phaseReset).params = s.params := rfl
@[simp] theorem State.draws_phaseReset (s : State) : (s.phaseReset).draws = s.draws := rfl
@[simp] theorem State.moves_phaseReset (s : State) : (s.phaseReset).moves = s.moves := rfl
@[simp] theorem State.reply_phaseReset (s : State) : (s.phaseReset).reply = s.reply := rfl

/-! ### A stream put back (42 R140) -/

@[simp] theorem State.aa_setStream (s : State) (r : ResampleRun) : (s.setStream r).aa = r.fir := rfl
@[simp] theorem State.rc_setStream (s : State) (r : ResampleRun) : (s.setStream r).rc = s.rc := rfl
@[simp] theorem State.t_setStream (s : State) (r : ResampleRun) : (s.setStream r).t = r.t := rfl
@[simp] theorem State.prev_setStream (s : State) (r : ResampleRun) : (s.setStream r).prev = r.prev := rfl
@[simp] theorem State.curr_setStream (s : State) (r : ResampleRun) : (s.setStream r).curr = r.curr := rfl
@[simp] theorem State.cfgD_setStream (s : State) (r : ResampleRun) : (s.setStream r).cfgD = s.cfgD := rfl
@[simp] theorem State.cfgU_setStream (s : State) (r : ResampleRun) : (s.setStream r).cfgU = s.cfgU := rfl
@[simp] theorem State.a0_setStream (s : State) (r : ResampleRun) : (s.setStream r).a0 = s.a0 := rfl
@[simp] theorem State.a1_setStream (s : State) (r : ResampleRun) : (s.setStream r).a1 = s.a1 := rfl
@[simp] theorem State.a2_setStream (s : State) (r : ResampleRun) : (s.setStream r).a2 = s.a2 := rfl
@[simp] theorem State.a3_setStream (s : State) (r : ResampleRun) : (s.setStream r).a3 = s.a3 := rfl
@[simp] theorem State.r0_setStream (s : State) (r : ResampleRun) : (s.setStream r).r0 = s.r0 := rfl
@[simp] theorem State.err_setStream (s : State) (r : ResampleRun) : (s.setStream r).err = s.err := rfl
@[simp] theorem State.sticky_setStream (s : State) (r : ResampleRun) : (s.setStream r).sticky = s.sticky := rfl
@[simp] theorem State.inMem_setStream (s : State) (r : ResampleRun) : (s.setStream r).inMem = s.inMem := rfl
@[simp] theorem State.midMem_setStream (s : State) (r : ResampleRun) : (s.setStream r).midMem = r.mid := rfl
@[simp] theorem State.outMem_setStream (s : State) (r : ResampleRun) : (s.setStream r).outMem = s.outMem := rfl
@[simp] theorem State.params_setStream (s : State) (r : ResampleRun) : (s.setStream r).params = s.params := rfl
@[simp] theorem State.draws_setStream (s : State) (r : ResampleRun) : (s.setStream r).draws = r.draws := rfl
@[simp] theorem State.moves_setStream (s : State) (r : ResampleRun) : (s.setStream r).moves = s.moves := rfl
@[simp] theorem State.reply_setStream (s : State) (r : ResampleRun) : (s.setStream r).reply = s.reply := rfl

/-! ### A reconstruction put back (43 R150) -/

@[simp] theorem State.aa_setRecon (s : State) (r : ReconRun) : (s.setRecon r).aa = s.aa := rfl
@[simp] theorem State.rc_setRecon (s : State) (r : ReconRun) : (s.setRecon r).rc = r.fir := rfl
@[simp] theorem State.t_setRecon (s : State) (r : ReconRun) : (s.setRecon r).t = s.t := rfl
@[simp] theorem State.prev_setRecon (s : State) (r : ReconRun) : (s.setRecon r).prev = s.prev := rfl
@[simp] theorem State.curr_setRecon (s : State) (r : ReconRun) : (s.setRecon r).curr = s.curr := rfl
@[simp] theorem State.cfgD_setRecon (s : State) (r : ReconRun) : (s.setRecon r).cfgD = s.cfgD := rfl
@[simp] theorem State.cfgU_setRecon (s : State) (r : ReconRun) : (s.setRecon r).cfgU = s.cfgU := rfl
@[simp] theorem State.a0_setRecon (s : State) (r : ReconRun) : (s.setRecon r).a0 = s.a0 := rfl
@[simp] theorem State.a1_setRecon (s : State) (r : ReconRun) : (s.setRecon r).a1 = s.a1 := rfl
@[simp] theorem State.a2_setRecon (s : State) (r : ReconRun) : (s.setRecon r).a2 = s.a2 := rfl
@[simp] theorem State.a3_setRecon (s : State) (r : ReconRun) : (s.setRecon r).a3 = s.a3 := rfl
@[simp] theorem State.r0_setRecon (s : State) (r : ReconRun) : (s.setRecon r).r0 = s.r0 := rfl
@[simp] theorem State.err_setRecon (s : State) (r : ReconRun) : (s.setRecon r).err = s.err := rfl
@[simp] theorem State.sticky_setRecon (s : State) (r : ReconRun) : (s.setRecon r).sticky = s.sticky := rfl
@[simp] theorem State.inMem_setRecon (s : State) (r : ReconRun) : (s.setRecon r).inMem = s.inMem := rfl
@[simp] theorem State.midMem_setRecon (s : State) (r : ReconRun) : (s.setRecon r).midMem = s.midMem := rfl
@[simp] theorem State.outMem_setRecon (s : State) (r : ReconRun) : (s.setRecon r).outMem = r.out := rfl
@[simp] theorem State.params_setRecon (s : State) (r : ReconRun) : (s.setRecon r).params = s.params := rfl
@[simp] theorem State.draws_setRecon (s : State) (r : ReconRun) : (s.setRecon r).draws = r.draws := rfl
@[simp] theorem State.moves_setRecon (s : State) (r : ReconRun) : (s.setRecon r).moves = s.moves := rfl
@[simp] theorem State.reply_setRecon (s : State) (r : ReconRun) : (s.setRecon r).reply = s.reply := rfl

/-! ### Hardware reset (70 R220): what it keeps -/

@[simp] theorem State.inMem_hardwareReset (s : State) : (s.hardwareReset).inMem = s.inMem := rfl
@[simp] theorem State.midMem_hardwareReset (s : State) : (s.hardwareReset).midMem = s.midMem := rfl
@[simp] theorem State.outMem_hardwareReset (s : State) : (s.hardwareReset).outMem = s.outMem := rfl
@[simp] theorem State.params_hardwareReset (s : State) : (s.hardwareReset).params = s.params := rfl
@[simp] theorem State.draws_hardwareReset (s : State) : (s.hardwareReset).draws = s.draws := rfl
@[simp] theorem State.moves_hardwareReset (s : State) : (s.hardwareReset).moves = s.moves := rfl
@[simp] theorem State.reply_hardwareReset (s : State) : (s.hardwareReset).reply = s.reply := rfl

/-! ### A FIR stage replaced -/

@[simp] theorem State.t_setFir (s : State) (k : Stage) (f : FirState) : (s.setFir k f).t = s.t := by cases k <;> rfl
@[simp] theorem State.prev_setFir (s : State) (k : Stage) (f : FirState) : (s.setFir k f).prev = s.prev := by cases k <;> rfl
@[simp] theorem State.curr_setFir (s : State) (k : Stage) (f : FirState) : (s.setFir k f).curr = s.curr := by cases k <;> rfl
@[simp] theorem State.cfgD_setFir (s : State) (k : Stage) (f : FirState) : (s.setFir k f).cfgD = s.cfgD := by cases k <;> rfl
@[simp] theorem State.cfgU_setFir (s : State) (k : Stage) (f : FirState) : (s.setFir k f).cfgU = s.cfgU := by cases k <;> rfl
@[simp] theorem State.a0_setFir (s : State) (k : Stage) (f : FirState) : (s.setFir k f).a0 = s.a0 := by cases k <;> rfl
@[simp] theorem State.a1_setFir (s : State) (k : Stage) (f : FirState) : (s.setFir k f).a1 = s.a1 := by cases k <;> rfl
@[simp] theorem State.a2_setFir (s : State) (k : Stage) (f : FirState) : (s.setFir k f).a2 = s.a2 := by cases k <;> rfl
@[simp] theorem State.a3_setFir (s : State) (k : Stage) (f : FirState) : (s.setFir k f).a3 = s.a3 := by cases k <;> rfl
@[simp] theorem State.r0_setFir (s : State) (k : Stage) (f : FirState) : (s.setFir k f).r0 = s.r0 := by cases k <;> rfl
@[simp] theorem State.err_setFir (s : State) (k : Stage) (f : FirState) : (s.setFir k f).err = s.err := by cases k <;> rfl
@[simp] theorem State.sticky_setFir (s : State) (k : Stage) (f : FirState) : (s.setFir k f).sticky = s.sticky := by cases k <;> rfl
@[simp] theorem State.inMem_setFir (s : State) (k : Stage) (f : FirState) : (s.setFir k f).inMem = s.inMem := by cases k <;> rfl
@[simp] theorem State.midMem_setFir (s : State) (k : Stage) (f : FirState) : (s.setFir k f).midMem = s.midMem := by cases k <;> rfl
@[simp] theorem State.outMem_setFir (s : State) (k : Stage) (f : FirState) : (s.setFir k f).outMem = s.outMem := by cases k <;> rfl
@[simp] theorem State.params_setFir (s : State) (k : Stage) (f : FirState) : (s.setFir k f).params = s.params := by cases k <;> rfl
@[simp] theorem State.draws_setFir (s : State) (k : Stage) (f : FirState) : (s.setFir k f).draws = s.draws := by cases k <;> rfl
@[simp] theorem State.moves_setFir (s : State) (k : Stage) (f : FirState) : (s.setFir k f).moves = s.moves := by cases k <;> rfl
@[simp] theorem State.reply_setFir (s : State) (k : Stage) (f : FirState) : (s.setFir k f).reply = s.reply := by cases k <;> rfl

/-! ### A FirReset (40 R101) -/

@[simp] theorem State.t_firReset (s : State) (k : Stage) : (s.firReset k).t = s.t := by cases k <;> rfl
@[simp] theorem State.prev_firReset (s : State) (k : Stage) : (s.firReset k).prev = s.prev := by cases k <;> rfl
@[simp] theorem State.curr_firReset (s : State) (k : Stage) : (s.firReset k).curr = s.curr := by cases k <;> rfl
@[simp] theorem State.cfgD_firReset (s : State) (k : Stage) : (s.firReset k).cfgD = s.cfgD := by cases k <;> rfl
@[simp] theorem State.cfgU_firReset (s : State) (k : Stage) : (s.firReset k).cfgU = s.cfgU := by cases k <;> rfl
@[simp] theorem State.a0_firReset (s : State) (k : Stage) : (s.firReset k).a0 = s.a0 := by cases k <;> rfl
@[simp] theorem State.a1_firReset (s : State) (k : Stage) : (s.firReset k).a1 = s.a1 := by cases k <;> rfl
@[simp] theorem State.a2_firReset (s : State) (k : Stage) : (s.firReset k).a2 = s.a2 := by cases k <;> rfl
@[simp] theorem State.a3_firReset (s : State) (k : Stage) : (s.firReset k).a3 = s.a3 := by cases k <;> rfl
@[simp] theorem State.r0_firReset (s : State) (k : Stage) : (s.firReset k).r0 = s.r0 := by cases k <;> rfl
@[simp] theorem State.err_firReset (s : State) (k : Stage) : (s.firReset k).err = s.err := by cases k <;> rfl
@[simp] theorem State.sticky_firReset (s : State) (k : Stage) : (s.firReset k).sticky = s.sticky := by cases k <;> rfl
@[simp] theorem State.inMem_firReset (s : State) (k : Stage) : (s.firReset k).inMem = s.inMem := by cases k <;> rfl
@[simp] theorem State.midMem_firReset (s : State) (k : Stage) : (s.firReset k).midMem = s.midMem := by cases k <;> rfl
@[simp] theorem State.outMem_firReset (s : State) (k : Stage) : (s.firReset k).outMem = s.outMem := by cases k <;> rfl
@[simp] theorem State.params_firReset (s : State) (k : Stage) : (s.firReset k).params = s.params := by cases k <;> rfl
@[simp] theorem State.draws_firReset (s : State) (k : Stage) : (s.firReset k).draws = s.draws := by cases k <;> rfl
@[simp] theorem State.moves_firReset (s : State) (k : Stage) : (s.firReset k).moves = s.moves := by cases k <;> rfl
@[simp] theorem State.reply_firReset (s : State) (k : Stage) : (s.firReset k).reply = s.reply := by cases k <;> rfl

/-! ### A FirStep (40 R100) -/

@[simp] theorem State.t_firStep (s : State) (k : Stage) (x : F32) : (s.firStep k x).t = s.t := by cases k <;> rfl
@[simp] theorem State.prev_firStep (s : State) (k : Stage) (x : F32) : (s.firStep k x).prev = s.prev := by cases k <;> rfl
@[simp] theorem State.curr_firStep (s : State) (k : Stage) (x : F32) : (s.firStep k x).curr = s.curr := by cases k <;> rfl
@[simp] theorem State.cfgD_firStep (s : State) (k : Stage) (x : F32) : (s.firStep k x).cfgD = s.cfgD := by cases k <;> rfl
@[simp] theorem State.cfgU_firStep (s : State) (k : Stage) (x : F32) : (s.firStep k x).cfgU = s.cfgU := by cases k <;> rfl
@[simp] theorem State.a0_firStep (s : State) (k : Stage) (x : F32) : (s.firStep k x).a0 = s.a0 := by cases k <;> rfl
@[simp] theorem State.a1_firStep (s : State) (k : Stage) (x : F32) : (s.firStep k x).a1 = s.a1 := by cases k <;> rfl
@[simp] theorem State.a2_firStep (s : State) (k : Stage) (x : F32) : (s.firStep k x).a2 = s.a2 := by cases k <;> rfl
@[simp] theorem State.a3_firStep (s : State) (k : Stage) (x : F32) : (s.firStep k x).a3 = s.a3 := by cases k <;> rfl
@[simp] theorem State.r0_firStep (s : State) (k : Stage) (x : F32) : (s.firStep k x).r0 = s.r0 := by cases k <;> rfl
@[simp] theorem State.err_firStep (s : State) (k : Stage) (x : F32) : (s.firStep k x).err = s.err := by cases k <;> rfl
@[simp] theorem State.sticky_firStep (s : State) (k : Stage) (x : F32) : (s.firStep k x).sticky = s.sticky := by cases k <;> rfl
@[simp] theorem State.inMem_firStep (s : State) (k : Stage) (x : F32) : (s.firStep k x).inMem = s.inMem := by cases k <;> rfl
@[simp] theorem State.midMem_firStep (s : State) (k : Stage) (x : F32) : (s.firStep k x).midMem = s.midMem := by cases k <;> rfl
@[simp] theorem State.outMem_firStep (s : State) (k : Stage) (x : F32) : (s.firStep k x).outMem = s.outMem := by cases k <;> rfl
@[simp] theorem State.params_firStep (s : State) (k : Stage) (x : F32) : (s.firStep k x).params = s.params := by cases k <;> rfl
@[simp] theorem State.draws_firStep (s : State) (k : Stage) (x : F32) : (s.firStep k x).draws = s.draws + firDraws := by cases k <;> rfl
@[simp] theorem State.moves_firStep (s : State) (k : Stage) (x : F32) : (s.firStep k x).moves = s.moves := by cases k <;> rfl
@[simp] theorem State.reply_firStep (s : State) (k : Stage) (x : F32) : (s.firStep k x).reply = s.reply := by cases k <;> rfl

/-! ### A configuration record replaced -/

@[simp] theorem State.aa_setCfg (s : State) (u : PipeUnit) (c : PipeConfig) : (s.setCfg u c).aa = s.aa := by cases u <;> rfl
@[simp] theorem State.rc_setCfg (s : State) (u : PipeUnit) (c : PipeConfig) : (s.setCfg u c).rc = s.rc := by cases u <;> rfl
@[simp] theorem State.t_setCfg (s : State) (u : PipeUnit) (c : PipeConfig) : (s.setCfg u c).t = s.t := by cases u <;> rfl
@[simp] theorem State.prev_setCfg (s : State) (u : PipeUnit) (c : PipeConfig) : (s.setCfg u c).prev = s.prev := by cases u <;> rfl
@[simp] theorem State.curr_setCfg (s : State) (u : PipeUnit) (c : PipeConfig) : (s.setCfg u c).curr = s.curr := by cases u <;> rfl
@[simp] theorem State.a0_setCfg (s : State) (u : PipeUnit) (c : PipeConfig) : (s.setCfg u c).a0 = s.a0 := by cases u <;> rfl
@[simp] theorem State.a1_setCfg (s : State) (u : PipeUnit) (c : PipeConfig) : (s.setCfg u c).a1 = s.a1 := by cases u <;> rfl
@[simp] theorem State.a2_setCfg (s : State) (u : PipeUnit) (c : PipeConfig) : (s.setCfg u c).a2 = s.a2 := by cases u <;> rfl
@[simp] theorem State.a3_setCfg (s : State) (u : PipeUnit) (c : PipeConfig) : (s.setCfg u c).a3 = s.a3 := by cases u <;> rfl
@[simp] theorem State.r0_setCfg (s : State) (u : PipeUnit) (c : PipeConfig) : (s.setCfg u c).r0 = s.r0 := by cases u <;> rfl
@[simp] theorem State.err_setCfg (s : State) (u : PipeUnit) (c : PipeConfig) : (s.setCfg u c).err = s.err := by cases u <;> rfl
@[simp] theorem State.sticky_setCfg (s : State) (u : PipeUnit) (c : PipeConfig) : (s.setCfg u c).sticky = s.sticky := by cases u <;> rfl
@[simp] theorem State.inMem_setCfg (s : State) (u : PipeUnit) (c : PipeConfig) : (s.setCfg u c).inMem = s.inMem := by cases u <;> rfl
@[simp] theorem State.midMem_setCfg (s : State) (u : PipeUnit) (c : PipeConfig) : (s.setCfg u c).midMem = s.midMem := by cases u <;> rfl
@[simp] theorem State.outMem_setCfg (s : State) (u : PipeUnit) (c : PipeConfig) : (s.setCfg u c).outMem = s.outMem := by cases u <;> rfl
@[simp] theorem State.params_setCfg (s : State) (u : PipeUnit) (c : PipeConfig) : (s.setCfg u c).params = s.params := by cases u <;> rfl
@[simp] theorem State.draws_setCfg (s : State) (u : PipeUnit) (c : PipeConfig) : (s.setCfg u c).draws = s.draws := by cases u <;> rfl
@[simp] theorem State.moves_setCfg (s : State) (u : PipeUnit) (c : PipeConfig) : (s.setCfg u c).moves = s.moves := by cases u <;> rfl
@[simp] theorem State.reply_setCfg (s : State) (u : PipeUnit) (c : PipeConfig) : (s.setCfg u c).reply = s.reply := by cases u <;> rfl

/-! ### The contents of a space replaced -/

@[simp] theorem State.aa_setMem (s : State) (sp : Space) (m : Mem) : (s.setMem sp m).aa = s.aa := by cases sp <;> rfl
@[simp] theorem State.rc_setMem (s : State) (sp : Space) (m : Mem) : (s.setMem sp m).rc = s.rc := by cases sp <;> rfl
@[simp] theorem State.t_setMem (s : State) (sp : Space) (m : Mem) : (s.setMem sp m).t = s.t := by cases sp <;> rfl
@[simp] theorem State.prev_setMem (s : State) (sp : Space) (m : Mem) : (s.setMem sp m).prev = s.prev := by cases sp <;> rfl
@[simp] theorem State.curr_setMem (s : State) (sp : Space) (m : Mem) : (s.setMem sp m).curr = s.curr := by cases sp <;> rfl
@[simp] theorem State.cfgD_setMem (s : State) (sp : Space) (m : Mem) : (s.setMem sp m).cfgD = s.cfgD := by cases sp <;> rfl
@[simp] theorem State.cfgU_setMem (s : State) (sp : Space) (m : Mem) : (s.setMem sp m).cfgU = s.cfgU := by cases sp <;> rfl
@[simp] theorem State.a0_setMem (s : State) (sp : Space) (m : Mem) : (s.setMem sp m).a0 = s.a0 := by cases sp <;> rfl
@[simp] theorem State.a1_setMem (s : State) (sp : Space) (m : Mem) : (s.setMem sp m).a1 = s.a1 := by cases sp <;> rfl
@[simp] theorem State.a2_setMem (s : State) (sp : Space) (m : Mem) : (s.setMem sp m).a2 = s.a2 := by cases sp <;> rfl
@[simp] theorem State.a3_setMem (s : State) (sp : Space) (m : Mem) : (s.setMem sp m).a3 = s.a3 := by cases sp <;> rfl
@[simp] theorem State.r0_setMem (s : State) (sp : Space) (m : Mem) : (s.setMem sp m).r0 = s.r0 := by cases sp <;> rfl
@[simp] theorem State.err_setMem (s : State) (sp : Space) (m : Mem) : (s.setMem sp m).err = s.err := by cases sp <;> rfl
@[simp] theorem State.sticky_setMem (s : State) (sp : Space) (m : Mem) : (s.setMem sp m).sticky = s.sticky := by cases sp <;> rfl
@[simp] theorem State.params_setMem (s : State) (sp : Space) (m : Mem) : (s.setMem sp m).params = s.params := by cases sp <;> rfl
@[simp] theorem State.draws_setMem (s : State) (sp : Space) (m : Mem) : (s.setMem sp m).draws = s.draws := by cases sp <;> rfl
@[simp] theorem State.moves_setMem (s : State) (sp : Space) (m : Mem) : (s.setMem sp m).moves = s.moves := by cases sp <;> rfl
@[simp] theorem State.reply_setMem (s : State) (sp : Space) (m : Mem) : (s.setMem sp m).reply = s.reply := by cases sp <;> rfl

/-! ### The reset of a pipeline (44 R167) -/

@[simp] theorem State.cfgD_pipeReset (s : State) (u : PipeUnit) : (s.pipeReset u).cfgD = s.cfgD := by cases u <;> rfl
@[simp] theorem State.cfgU_pipeReset (s : State) (u : PipeUnit) : (s.pipeReset u).cfgU = s.cfgU := by cases u <;> rfl
@[simp] theorem State.a0_pipeReset (s : State) (u : PipeUnit) : (s.pipeReset u).a0 = s.a0 := by cases u <;> rfl
@[simp] theorem State.a1_pipeReset (s : State) (u : PipeUnit) : (s.pipeReset u).a1 = s.a1 := by cases u <;> rfl
@[simp] theorem State.a2_pipeReset (s : State) (u : PipeUnit) : (s.pipeReset u).a2 = s.a2 := by cases u <;> rfl
@[simp] theorem State.a3_pipeReset (s : State) (u : PipeUnit) : (s.pipeReset u).a3 = s.a3 := by cases u <;> rfl
@[simp] theorem State.r0_pipeReset (s : State) (u : PipeUnit) : (s.pipeReset u).r0 = s.r0 := by cases u <;> rfl
@[simp] theorem State.err_pipeReset (s : State) (u : PipeUnit) : (s.pipeReset u).err = s.err := by cases u <;> rfl
@[simp] theorem State.sticky_pipeReset (s : State) (u : PipeUnit) : (s.pipeReset u).sticky = s.sticky := by cases u <;> rfl
@[simp] theorem State.inMem_pipeReset (s : State) (u : PipeUnit) : (s.pipeReset u).inMem = s.inMem := by cases u <;> rfl
@[simp] theorem State.midMem_pipeReset (s : State) (u : PipeUnit) : (s.pipeReset u).midMem = s.midMem := by cases u <;> rfl
@[simp] theorem State.outMem_pipeReset (s : State) (u : PipeUnit) : (s.pipeReset u).outMem = s.outMem := by cases u <;> rfl
@[simp] theorem State.params_pipeReset (s : State) (u : PipeUnit) : (s.pipeReset u).params = s.params := by cases u <;> rfl
@[simp] theorem State.draws_pipeReset (s : State) (u : PipeUnit) : (s.pipeReset u).draws = s.draws := by cases u <;> rfl
@[simp] theorem State.moves_pipeReset (s : State) (u : PipeUnit) : (s.pipeReset u).moves = s.moves := by cases u <;> rfl
@[simp] theorem State.reply_pipeReset (s : State) (u : PipeUnit) : (s.pipeReset u).reply = s.reply := by cases u <;> rfl

end Sys2Proof.Machine
end

