-- ==== Sys2Proof/Laws/Commands.lean ====
section
/-! SUPPORT. Everything each command, and each host move, can do: one inversion lemma each, for the provers to cite instead of unfolding a meaning. -/

namespace Sys2Proof.Machine

/-- INIT either configures and resets its pipeline or is rejected with ERR_RATE (44 R166). -/
theorem execInit_cases {u : PipeUnit} {s t : State} (h : execInit u s = .next t) :
    (rateAccepted s.rateOp = true ∧ t = ((s.setCfg u (initConfig s.rateOp)).pipeReset u).accept) ∨
      (rateAccepted s.rateOp = false ∧ t = s.reject .rate) := by
  injection h with h
  subst h
  exact s.check_cases _ _ _

/-- EXPSZ is rejected with ERR_UNCONFIG or ERR_RANGE, or returns its estimate (41 R124). -/
theorem execExpsz_cases {s t : State} (h : execExpsz s = .next t) :
    (s.cfgD.ready = false ∧ t = s.reject .unconfig) ∨
      (s.cfgD.ready = true ∧ expectedSize s = none ∧ t = s.reject .range) ∨
      ∃ e, s.cfgD.ready = true ∧ expectedSize s = some e ∧ t = s.acceptWith (zext64 (BitVec.ofNat 32 e)) := by
  injection h with h
  subst h
  rcases s.check_cases s.cfgD.ready .unconfig _ with ⟨hr, ht⟩ | ⟨hr, ht⟩
  · right
    rw [ht]
    cases he : expectedSize s with
    | none => exact .inl ⟨hr, rfl, rfl⟩
    | some e => exact .inr ⟨e, hr, rfl, rfl⟩
  · exact .inl ⟨hr, ht⟩

/-- DPROC is rejected by the first of its checks that fails, or runs its block (42 R140). -/
theorem execDproc_cases {s t : State} (h : execDproc s = .next t) :
    (s.cfgD.ready = false ∧ t = s.reject .unconfig) ∨
      (s.cfgD.ready = true ∧
        (s.rangeFits .input s.srcBaseOp s.lenOp = false ∨ s.rangeFits .mid s.dstBaseOp s.a1Op = false) ∧
        t = s.reject .range) ∨
      (s.cfgD.ready = true ∧ s.rangeFits .input s.srcBaseOp s.lenOp = true ∧
        s.rangeFits .mid s.dstBaseOp s.a1Op = true ∧ s.a1Op < dprocCount s ∧ t = s.reject .cap) ∨
      (s.cfgD.ready = true ∧ s.rangeFits .input s.srcBaseOp s.lenOp = true ∧
        s.rangeFits .mid s.dstBaseOp s.a1Op = true ∧ dprocCount s ≤ s.a1Op ∧
        t = (s.setStream (dprocStream s)).acceptWith (zext64 (BitVec.ofNat 32 (dprocStream s).count))) := by
  injection h with h
  subst h
  rcases s.check_cases s.cfgD.ready .unconfig _ with ⟨hr, ht⟩ | ⟨hr, ht⟩ <;> rw [ht]
  · rcases s.check_cases (s.rangeFits .input s.srcBaseOp s.lenOp) .range _ with ⟨hi, ht⟩ | ⟨hi, ht⟩ <;> rw [ht]
    · rcases s.check_cases (s.rangeFits .mid s.dstBaseOp s.a1Op) .range _ with ⟨hm, ht⟩ | ⟨hm, ht⟩ <;> rw [ht]
      · rcases s.check_cases (decide (dprocCount s ≤ s.a1Op)) .cap _ with ⟨hc, ht⟩ | ⟨hc, ht⟩ <;> rw [ht]
        · exact .inr (.inr (.inr ⟨hr, hi, hm, of_decide_eq_true hc, rfl⟩))
        · exact .inr (.inr (.inl ⟨hr, hi, hm, Nat.lt_of_not_le (of_decide_eq_false hc), rfl⟩))
      · exact .inr (.inl ⟨hr, .inr hm, rfl⟩)
    · exact .inr (.inl ⟨hr, .inl hi, rfl⟩)
  · exact .inl ⟨hr, rfl⟩

/-- UPROC is rejected by the first of its checks that fails, does nothing with M = 0 or K = 0, or runs its block
(43 R150, R153, R154). -/
theorem execUproc_cases {s t : State} (h : execUproc s = .next t) :
    (s.cfgU.ready = false ∧ t = s.reject .unconfig) ∨
      (s.cfgU.ready = true ∧
        (s.rangeFits .mid s.srcBaseOp s.a1Op = false ∨ s.rangeFits .output s.dstBaseOp s.lenOp = false) ∧
        t = s.reject .range) ∨
      (s.cfgU.ready = true ∧ s.rangeFits .mid s.srcBaseOp s.a1Op = true ∧
        s.rangeFits .output s.dstBaseOp s.lenOp = true ∧ (s.lenOp = 0 ∨ s.a1Op = 0) ∧ t = s.acceptWith 0) ∨
      (s.cfgU.ready = true ∧ s.rangeFits .mid s.srcBaseOp s.a1Op = true ∧
        s.rangeFits .output s.dstBaseOp s.lenOp = true ∧ ¬(s.lenOp = 0 ∨ s.a1Op = 0) ∧
        t = (s.setRecon (uprocRecon s)).acceptWith (zext64 s.a0low)) := by
  injection h with h
  subst h
  rcases s.check_cases s.cfgU.ready .unconfig _ with ⟨hr, ht⟩ | ⟨hr, ht⟩ <;> rw [ht]
  · rcases s.check_cases (s.rangeFits .mid s.srcBaseOp s.a1Op) .range _ with ⟨hi, ht⟩ | ⟨hi, ht⟩ <;> rw [ht]
    · rcases s.check_cases (s.rangeFits .output s.dstBaseOp s.lenOp) .range _ with ⟨hm, ht⟩ | ⟨hm, ht⟩ <;> rw [ht]
      · by_cases hz : s.lenOp = 0 ∨ s.a1Op = 0
        · exact .inr (.inr (.inl ⟨hr, hi, hm, hz, if_pos hz⟩))
        · exact .inr (.inr (.inr ⟨hr, hi, hm, hz, if_neg hz⟩))
      · exact .inr (.inl ⟨hr, .inr hm, rfl⟩)
    · exact .inr (.inl ⟨hr, .inl hi, rfl⟩)
  · exact .inl ⟨hr, rfl⟩

/-- An accessor returns its field or is rejected with ERR_UNCONFIG (44 R168 to R170). -/
theorem State.getField_cases (s : State) (u : PipeUnit) (field : PipeConfig → F64) :
    ((s.cfg u).ready = true ∧ s.getField u field = s.acceptWith (field (s.cfg u))) ∨
      ((s.cfg u).ready = false ∧ s.getField u field = s.reject .unconfig) :=
  s.check_cases _ _ _

/-- What a step can do: nothing with no move pending, otherwise the host's next move (70 R233). -/
theorem step_cases (s : State) :
    (s.moves = [] ∧ step s = .next s) ∨
      ∃ m rest, s.moves = m :: rest ∧ step s = hostMove m (takeMove rest s) := by
  unfold step nextMove
  split
  · rename_i h
    exact .inl ⟨h, rfl⟩
  · rename_i m rest h
    exact .inr ⟨m, rest, h, rfl⟩

/-- What a host move that ends in a next state has done: a register write or a command, or a move that leaves the block
alone (70 R234). -/
theorem hostMove_cases {m : HostMove} {s t : State} (h : hostMove m s = .next t) :
    (∃ v, t = { s with a0 := v }) ∨ (∃ w, t = { s with a1 := w }) ∨ (∃ w, t = { s with a2 := w }) ∨
      (∃ w, t = { s with a3 := w }) ∨ t = s ∨ (∃ w, issue w s = .next t) ∨ (∃ v, t = { s with reply := some v }) ∨
      (∃ sp idx w, idx < s.size sp ∧ t = s.setMem sp ((s.mem sp).write idx w)) ∨
      (m = .hardwareReset ∧ t = s.hardwareReset) := by
  cases m with
  | writeReg n v =>
    simp only [hostMove, hostWriteReg] at h
    split at h
    · exact absurd h (by simp)
    · rename_i r _
      split at h
      · cases r <;> simp only [writeRegister] at h
        · injection h with h; exact .inl ⟨v, h.symm⟩
        · injection h with h; exact .inr (.inl ⟨_, h.symm⟩)
        · injection h with h; exact .inr (.inr (.inl ⟨_, h.symm⟩))
        · injection h with h; exact .inr (.inr (.inr (.inl ⟨_, h.symm⟩)))
        · exact .inr (.inr (.inr (.inr (.inr (.inl ⟨_, h⟩)))))
        · injection h with h; exact .inr (.inr (.inr (.inr (.inl h.symm))))
        · injection h with h; exact .inr (.inr (.inr (.inr (.inl h.symm))))
      · exact absurd h (by simp)
  | readReg n =>
    simp only [hostMove, hostReadReg] at h
    split at h
    · exact absurd h (by simp)
    · split at h
      · exact absurd h (by simp)
      · injection h with h
        exact .inr (.inr (.inr (.inr (.inr (.inr (.inl ⟨_, h.symm⟩))))))
  | writeElem sp idx w =>
    simp only [hostMove, hostWriteElem] at h
    split at h
    · rename_i hi
      injection h with h
      exact .inr (.inr (.inr (.inr (.inr (.inr (.inr (.inl ⟨sp, idx, w, hi, h.symm⟩)))))))
    · exact absurd h (by simp)
  | readElem sp idx =>
    simp only [hostMove, hostReadElem] at h
    split at h
    · injection h with h
      exact .inr (.inr (.inr (.inr (.inr (.inr (.inl ⟨_, h.symm⟩))))))
    · exact absurd h (by simp)
  | hardwareReset =>
    injection h with h
    exact .inr (.inr (.inr (.inr (.inr (.inr (.inr (.inr ⟨rfl, h.symm⟩)))))))

/-- What issuing a word does: the command it decodes to, or a rejection (30 R84, R88). -/
theorem issue_cases (w : Word) (s : State) :
    (∃ i, decode w = .ok i ∧ issue w s = exec i s) ∨
      (∃ e, decode w = .error e ∧ issue w s = .next (s.reject .illegal)) := by
  unfold issue
  split
  · rename_i i h
    exact .inl ⟨i, h, rfl⟩
  · rename_i e h
    exact .inr ⟨e, h, rfl⟩

end Sys2Proof.Machine
end

