-- ==== Sys2Proof/Laws/Fir.lean ====
section
/-! SUPPORT. What a step of a FIR stage does to its delay line and write index (40 R100). -/

namespace Sys2Proof.Machine

@[simp] theorem firNext_wi (f : FirState) (x : F32) : (firNext f x).wi = f.wi + 1 := rfl

@[simp] theorem firNext_dl (f : FirState) (x : F32) : (firNext f x).dl = f.insert x := rfl

/-- The slot at the write index holds the sample inserted. -/
theorem FirState.insert_get_same (f : FirState) (x : F32) : (f.insert x).get f.wi = x := by
  simp [FirState.insert, Vector.get_eq_getElem]

/-- Every other slot keeps its sample. -/
theorem FirState.insert_get_ne (f : FirState) (x : F32) {j : Fin 64} (h : j ≠ f.wi) :
    (f.insert x).get j = f.dl.get j := by
  have hv : f.wi.val ≠ j.val := fun e => h (Fin.ext e.symm)
  simp [FirState.insert, Vector.get_eq_getElem, Vector.getElem_set_ne, hv]

@[simp] theorem FirState.clear_wi : FirState.clear.wi = 0 := rfl

/-- Every slot of a cleared stage holds +0.0 (40 R101). -/
@[simp] theorem FirState.clear_get (j : Fin 64) : FirState.clear.dl.get j = 0x00000000#32 := by
  simp [FirState.clear, Vector.get_eq_getElem]

/-- The accumulator with one more tap (40 R100). -/
theorem firAcc_succ (taps : Taps) (dl : Vector F32 64) (wi : Fin 64) (k i : Nat) :
    firAcc taps dl wi k (i + 1) =
      add32 (k + 2 * i + 1) (firAcc taps dl wi k i)
        (mul32 (k + 2 * i) (taps.get (Fin.ofNat 64 i)) (dl.get (wi - Fin.ofNat 64 i))) := rfl

@[simp] theorem State.firSteps_nil (s : State) (k : Stage) : s.firSteps k [] = s := rfl

/-- The last sample of a list is stepped last. -/
theorem State.firSteps_concat (s : State) (k : Stage) (xs : List F32) (x : F32) :
    s.firSteps k (xs ++ [x]) = (s.firSteps k xs).firStep k x := by
  simp [State.firSteps]

/-- The stage after a list of samples is the fold of its single step. -/
theorem State.fir_firSteps (s : State) (k : Stage) (xs : List F32) :
    (s.firSteps k xs).fir k = xs.foldl firNext (s.fir k) := by
  induction xs using List.reverseRecOn with
  | nil => rfl
  | append_singleton xs x ih => rw [State.firSteps_concat, State.fir_firStep, ih, List.foldl_concat]

end Sys2Proof.Machine
end

