-- ==== Sys2Proof/Laws/Float.lean ====
section
/-! SUPPORT. What the arithmetic primitives do: decoding an encoded pattern gives its value back, a representable number rounds to itself, and rounding is monotone. -/

namespace Sys2Proof.Machine

/-! ### Patterns and their values -/

/-- The value of the binary32 pattern of a sign and a magnitude pattern. -/
theorem val32_ofNat (neg : Bool) (m : Nat) (h : m < 2 ^ 31) :
    val32 (BitVec.ofNat 32 (signedMag (2 ^ 31) neg m)) = decodeFloat b32 neg m := by
  have hmsb : (BitVec.ofNat 32 (signedMag (2 ^ 31) neg m)).msb = neg := by
    rw [BitVec.msb_eq_decide]
    cases neg <;> simp [signedMag, BitVec.toNat_ofNat] <;> omega
  have hlow : (BitVec.ofNat 32 (signedMag (2 ^ 31) neg m)).toNat % 2 ^ 31 = m := by
    cases neg <;> simp [signedMag, BitVec.toNat_ofNat] <;> omega
  rw [val32, hmsb, hlow]

/-- The value of the binary64 pattern of a sign and a magnitude pattern. -/
theorem val64_ofNat (neg : Bool) (m : Nat) (h : m < 2 ^ 63) :
    val64 (BitVec.ofNat 64 (signedMag (2 ^ 63) neg m)) = decodeFloat b64 neg m := by
  have hmsb : (BitVec.ofNat 64 (signedMag (2 ^ 63) neg m)).msb = neg := by
    rw [BitVec.msb_eq_decide]
    cases neg <;> simp [signedMag, BitVec.toNat_ofNat] <;> omega
  have hlow : (BitVec.ofNat 64 (signedMag (2 ^ 63) neg m)).toNat % 2 ^ 63 = m := by
    cases neg <;> simp [signedMag, BitVec.toNat_ofNat] <;> omega
  rw [val64, hmsb, hlow]

/-- A binary32 pattern is the pattern of its sign and its magnitude pattern. -/
theorem ofNat_signedMag32 (x : F32) : BitVec.ofNat 32 (signedMag (2 ^ 31) x.msb (x.toNat % 2 ^ 31)) = x := by
  apply BitVec.eq_of_toNat_eq
  have hx := x.isLt
  rw [BitVec.msb_eq_decide]
  simp only [signedMag, BitVec.toNat_ofNat, decide_eq_true_eq]
  split <;> omega

/-- A binary64 pattern is the pattern of its sign and its magnitude pattern. -/
theorem ofNat_signedMag64 (x : F64) : BitVec.ofNat 64 (signedMag (2 ^ 63) x.msb (x.toNat % 2 ^ 63)) = x := by
  apply BitVec.eq_of_toNat_eq
  have hx := x.isLt
  rw [BitVec.msb_eq_decide]
  simp only [signedMag, BitVec.toNat_ofNat, decide_eq_true_eq]
  split <;> omega

/-- A value that decodes as finite comes from a magnitude pattern below that of infinity. -/
theorem decodeFloat_eq_fin {f : Format} {neg s : Bool} {m v : Nat} (h : decodeFloat f neg m = .fin s v) :
    m < f.infMag ∧ s = neg ∧ v = magValue f.prec m := by
  unfold decodeFloat at h
  split at h
  · exact absurd h (by simp)
  · split at h
    · exact absurd h (by simp)
    · injection h with h1 h2
      exact ⟨by omega, h1.symm, h2.symm⟩

/-- A magnitude pattern below that of infinity decodes to its value. -/
theorem decodeFloat_of_lt {f : Format} {m : Nat} (neg : Bool) (h : m < f.infMag) :
    decodeFloat f neg m = .fin neg (magValue f.prec m) := by
  unfold decodeFloat
  rw [if_neg (by omega), if_neg (by omega)]

/-- The pattern of infinity decodes to infinity. -/
theorem decodeFloat_infMag (f : Format) (neg : Bool) : decodeFloat f neg f.infMag = .inf neg := by
  unfold decodeFloat
  rw [if_neg (by omega), if_pos rfl]

/-! ### Rounding -/

/-- Rounding an integer is exact. -/
theorem roundDiv_mul (q den : Nat) (h : 0 < den) : roundDiv (q * den) den = q := by
  unfold roundDiv
  rw [Nat.mul_mod_left, Nat.mul_div_cancel _ h, if_neg]
  rintro (h1 | ⟨h1, -⟩) <;> omega

/-- Rounding lands on the quotient or on the integer above it. -/
theorem roundDiv_cases (num den : Nat) : roundDiv num den = num / den ∨ roundDiv num den = num / den + 1 := by
  unfold roundDiv
  split
  · exact .inr rfl
  · exact .inl rfl

/-- The magnitude of a normal pattern: exponent field `e + 1`, fraction `f`. -/
theorem magValue_normal (prec e f : Nat) (hf : f < 2 ^ (prec - 1)) :
    magValue prec ((e + 1) * 2 ^ (prec - 1) + f) = (2 ^ (prec - 1) + f) * 2 ^ e := by
  have hpos : 0 < 2 ^ (prec - 1) := Nat.two_pow_pos _
  have hdiv : ((e + 1) * 2 ^ (prec - 1) + f) / 2 ^ (prec - 1) = e + 1 := by
    rw [Nat.add_comm, Nat.add_mul_div_right _ _ hpos, Nat.div_eq_of_lt hf, Nat.zero_add]
  have hmod : ((e + 1) * 2 ^ (prec - 1) + f) % 2 ^ (prec - 1) = f := by
    rw [Nat.add_comm, Nat.add_mul_mod_self_right, Nat.mod_eq_of_lt hf]
  unfold magValue
  rw [hdiv, hmod, if_neg (by omega), Nat.add_sub_cancel]

/-- The magnitude of a subnormal pattern is the pattern. -/
theorem magValue_subnormal (prec m : Nat) (h : m < 2 ^ (prec - 1)) : magValue prec m = m := by
  unfold magValue
  rw [if_pos (Nat.div_eq_of_lt h)]

/-- A representable number rounds to itself (00 R13). -/
theorem roundMag_magValue (prec m den : Nat) (hp : 0 < prec) (hd : 0 < den) :
    roundMag prec (magValue prec m * den) den = m := by
  have hpos : 0 < 2 ^ (prec - 1) := Nat.two_pow_pos _
  rcases Nat.lt_or_ge m (2 ^ (prec - 1)) with h | h
  · rw [magValue_subnormal prec m h]
    have hs : roundShift prec (m * den) den = 0 := by
      unfold roundShift
      rw [Nat.mul_div_cancel _ hd]
      rcases Nat.eq_zero_or_pos m with rfl | hm
      · simp; omega
      · have := (Nat.log2_lt (by omega : m ≠ 0)).2 h
        omega
    rw [roundMag, hs, Nat.pow_zero, Nat.mul_one, roundDiv_mul m den hd]
    omega
  · obtain ⟨e, f, hf, rfl⟩ : ∃ e f, f < 2 ^ (prec - 1) ∧ m = (e + 1) * 2 ^ (prec - 1) + f := by
      have h1 : 1 ≤ m / 2 ^ (prec - 1) := (Nat.le_div_iff_mul_le hpos).2 (by omega)
      refine ⟨m / 2 ^ (prec - 1) - 1, m % 2 ^ (prec - 1), Nat.mod_lt _ hpos, ?_⟩
      rw [Nat.sub_add_cancel h1, Nat.mul_comm]
      exact (Nat.div_add_mod _ _).symm
    rw [magValue_normal prec e f hf]
    have hlog : ((2 ^ (prec - 1) + f) * 2 ^ e).log2 = prec - 1 + e := by
      have hne : (2 ^ (prec - 1) + f) * 2 ^ e ≠ 0 := by positivity
      rw [Nat.log2_eq_iff hne]
      constructor
      · rw [Nat.pow_add]
        exact Nat.mul_le_mul_right _ (by omega)
      · rw [show prec - 1 + e + 1 = (prec - 1 + 1) + e by omega, Nat.pow_add]
        refine Nat.mul_lt_mul_of_pos_right ?_ (Nat.two_pow_pos e)
        rw [Nat.pow_succ]
        omega
    have hs : roundShift prec ((2 ^ (prec - 1) + f) * 2 ^ e * den) den = e := by
      unfold roundShift
      rw [Nat.mul_div_cancel _ hd, hlog]
      omega
    rw [roundMag, hs, Nat.mul_assoc, Nat.mul_comm (2 ^ e) den,
      roundDiv_mul _ _ (Nat.mul_pos hd (Nat.two_pow_pos e))]
    ring

/-- What `roundDiv` is: at most `q` exactly when the number is below the tie above `q`, or on it with `q` even. -/
theorem roundDiv_le_iff (num den q : Nat) (hd : 0 < den) :
    roundDiv num den ≤ q ↔ 2 * num < (2 * q + 1) * den ∨ (2 * num = (2 * q + 1) * den ∧ q % 2 = 0) := by
  have hr := Nat.mod_lt num hd
  have hnum : num = den * (num / den) + num % den := (Nat.div_add_mod num den).symm
  unfold roundDiv
  generalize num / den = k at hnum ⊢
  generalize num % den = r at hnum hr ⊢
  subst hnum
  rcases Nat.lt_trichotomy q k with h | rfl | h
  · obtain ⟨j, rfl⟩ : ∃ j, k = q + 1 + j := ⟨k - (q + 1), by omega⟩
    have hlt : (2 * q + 1) * den < 2 * (den * (q + 1 + j) + r) := by nlinarith
    constructor
    · intro h1
      split at h1 <;> omega
    · rintro (h1 | ⟨h1, -⟩) <;> omega
  · have e : (2 * q + 1) * den = 2 * (den * q) + den := by ring
    rw [e]
    generalize den * q = u
    split <;> omega
  · obtain ⟨j, rfl⟩ : ∃ j, q = k + 1 + j := ⟨q - (k + 1), by omega⟩
    have hlt : 2 * (den * k + r) < (2 * (k + 1 + j) + 1) * den := by nlinarith
    refine ⟨fun _ => .inl hlt, fun _ => ?_⟩
    split <;> omega

/-- Rounding to an integer is monotone. -/
theorem roundDiv_mono {n d n' d' : Nat} (hd : 0 < d) (hd' : 0 < d') (h : n * d' ≤ n' * d) :
    roundDiv n d ≤ roundDiv n' d' := by
  rw [roundDiv_le_iff n d _ hd]
  have hq := (roundDiv_le_iff n' d' _ hd').1 (Nat.le_refl _)
  generalize roundDiv n' d' = q at hq ⊢
  rcases hq with hq | ⟨hq, heven⟩
  · left
    have h1 : 2 * n' * d < (2 * q + 1) * d' * d := Nat.mul_lt_mul_of_pos_right hq hd
    have h2 : 2 * n * d' < (2 * q + 1) * d * d' := by nlinarith
    exact Nat.lt_of_mul_lt_mul_right h2
  · have h1 : 2 * n * d' ≤ (2 * q + 1) * d * d' := by
      have : 2 * n' * d = (2 * q + 1) * d' * d := by rw [hq]
      nlinarith
    rcases Nat.lt_or_eq_of_le (Nat.le_of_mul_le_mul_right h1 hd') with h2 | h2
    · exact .inl h2
    · exact .inr ⟨h2, heven⟩

/-- The quotient lies below the next power of two above a full significand at its shift. -/
theorem div_lt_shift (prec num den : Nat) :
    num / den < 2 ^ prec * 2 ^ roundShift prec num den := by
  rw [← Nat.pow_add]
  unfold roundShift
  rcases Nat.eq_zero_or_pos (num / den) with h | h
  · rw [h]
    exact Nat.two_pow_pos _
  · exact (Nat.log2_lt (by omega)).1 (by omega)

/-- In the normal range the quotient is at least a full significand at its shift. -/
theorem shift_le_div (prec num den : Nat) (hp : 0 < prec) (h : 0 < roundShift prec num den) :
    2 ^ (prec - 1) * 2 ^ roundShift prec num den ≤ num / den := by
  rw [← Nat.pow_add]
  unfold roundShift at *
  have hne : num / den ≠ 0 := by
    intro h0
    rw [h0, Nat.log2_zero] at h
    omega
  refine le_trans (Nat.pow_le_pow_right (by omega) ?_) (Nat.log2_self_le hne)
  omega

/-- The significand that rounding gives is at most 2^prec. -/
theorem roundSignificand_le (prec num den : Nat) :
    roundDiv num (den * 2 ^ roundShift prec num den) ≤ 2 ^ prec := by
  have hlt := div_lt_shift prec num den
  have h2 : num / (den * 2 ^ roundShift prec num den) < 2 ^ prec := by
    rw [← Nat.div_div_eq_div_mul]
    exact (Nat.div_lt_iff_lt_mul (Nat.two_pow_pos _)).2 hlt
  rcases roundDiv_cases num (den * 2 ^ roundShift prec num den) with h | h <;> omega

/-- In the normal range the significand that rounding gives is at least 2^(prec-1). -/
theorem le_roundSignificand (prec num den : Nat) (hp : 0 < prec) (h : 0 < roundShift prec num den) :
    2 ^ (prec - 1) ≤ roundDiv num (den * 2 ^ roundShift prec num den) := by
  have hle := shift_le_div prec num den hp h
  have h2 : 2 ^ (prec - 1) ≤ num / (den * 2 ^ roundShift prec num den) := by
    rw [← Nat.div_div_eq_div_mul]
    exact (Nat.le_div_iff_mul_le (Nat.two_pow_pos _)).2 hle
  rcases roundDiv_cases num (den * 2 ^ roundShift prec num den) with h | h <;> omega

/-- A larger number has a larger shift. -/
theorem roundShift_mono {prec n d n' d' : Nat} (hd : 0 < d) (hd' : 0 < d') (h : n * d' ≤ n' * d) :
    roundShift prec n d ≤ roundShift prec n' d' := by
  have hq : n / d ≤ n' / d' := by
    rw [Nat.le_div_iff_mul_le hd']
    have h1 : n / d * d ≤ n := Nat.div_mul_le_self n d
    have h2 : n / d * d' * d ≤ n' * d := by nlinarith
    exact Nat.le_of_mul_le_mul_right h2 hd
  have hl : (n / d).log2 ≤ (n' / d').log2 := by
    rcases Nat.eq_zero_or_pos (n / d) with h0 | h0
    · rw [h0]
      simp
    · rw [Nat.le_log2 (by omega)]
      exact le_trans (Nat.log2_self_le (by omega)) hq
  unfold roundShift
  omega

/-- Rounding is monotone (00 R13): a larger number never rounds to a smaller pattern. -/
theorem roundMag_mono {prec n d n' d' : Nat} (hp : 0 < prec) (hd : 0 < d) (hd' : 0 < d') (h : n * d' ≤ n' * d) :
    roundMag prec n d ≤ roundMag prec n' d' := by
  have hpow : 2 ^ prec = 2 * 2 ^ (prec - 1) := by
    rw [← Nat.pow_succ']
    congr 1
    omega
  rcases Nat.lt_or_eq_of_le (roundShift_mono (prec := prec) hd hd' h) with hs | hs
  · have h1 := roundSignificand_le prec n d
    have h2 := le_roundSignificand prec n' d' hp (by omega)
    obtain ⟨j, hj⟩ : ∃ j, roundShift prec n' d' = roundShift prec n d + 1 + j := ⟨_, (Nat.add_sub_of_le hs).symm⟩
    unfold roundMag
    rw [hj] at h2 ⊢
    nlinarith [Nat.two_pow_pos (prec - 1)]
  · unfold roundMag
    rw [← hs]
    refine Nat.add_le_add_left (roundDiv_mono (by positivity) (by positivity) ?_) _
    nlinarith [Nat.two_pow_pos (roundShift prec n d)]

/-! ### Values come back from their patterns -/

/-- A finite binary32 value rounds back to its pattern. -/
theorem round32_val32 {x : F32} {s : Bool} {v : Nat} (k : Nat) (h : val32 x = .fin s v) : round32 k (.ratio s v 1) = x := by
  obtain ⟨hlt, rfl, rfl⟩ := decodeFloat_eq_fin h
  have hr := roundMag_magValue b32.prec (x.toNat % 2 ^ 31) 1 (by decide) (by decide)
  rw [Nat.mul_one] at hr
  rw [round32, hr, Nat.min_eq_left (Nat.le_of_lt hlt)]
  exact ofNat_signedMag32 x

/-- A finite binary64 value rounds back to its pattern. -/
theorem round64_val64 {x : F64} {s : Bool} {v : Nat} (k : Nat) (h : val64 x = .fin s v) : round64 k (.ratio s v 1) = x := by
  obtain ⟨hlt, rfl, rfl⟩ := decodeFloat_eq_fin h
  have hr := roundMag_magValue b64.prec (x.toNat % 2 ^ 63) 1 (by decide) (by decide)
  rw [Nat.mul_one] at hr
  rw [round64, hr, Nat.min_eq_left (Nat.le_of_lt hlt)]
  exact ofNat_signedMag64 x

/-- What a rounded number holds: the infinity of its sign, or the value of its rounded pattern. -/
theorem val64_round64_ratio (k : Nat) (neg : Bool) (num den : Nat) :
    val64 (round64 k (.ratio neg num den)) =
      if b64.infMag ≤ roundMag b64.prec num den then .inf neg
      else .fin neg (magValue b64.prec (roundMag b64.prec num den)) := by
  have hb : b64.infMag < 2 ^ 63 := by decide
  rw [round64, val64_ofNat neg _ (by omega)]
  split
  · rename_i h
    rw [Nat.min_eq_right h, decodeFloat_infMag]
  · rename_i h
    rw [Nat.min_eq_left (by omega), decodeFloat_of_lt neg (by omega)]

/-- What a rounded number holds: the infinity of its sign, or the value of its rounded pattern. -/
theorem val32_round32_ratio (k : Nat) (neg : Bool) (num den : Nat) :
    val32 (round32 k (.ratio neg num den)) =
      if b32.infMag ≤ roundMag b32.prec num den then .inf neg
      else .fin neg (magValue b32.prec (roundMag b32.prec num den)) := by
  have hb : b32.infMag < 2 ^ 31 := by decide
  rw [round32, val32_ofNat neg _ (by omega)]
  split
  · rename_i h
    rw [Nat.min_eq_right h, decodeFloat_infMag]
  · rename_i h
    rw [Nat.min_eq_left (by omega), decodeFloat_of_lt neg (by omega)]

/-- An infinite exact result gives the infinity of its sign. -/
theorem val64_round64_inf (k : Nat) (neg : Bool) : val64 (round64 k (.inf neg)) = .inf neg := by
  rw [round64, val64_ofNat neg _ (by decide), decodeFloat_infMag]

/-- An infinite exact result gives the infinity of its sign. -/
theorem val32_round32_inf (k : Nat) (neg : Bool) : val32 (round32 k (.inf neg)) = .inf neg := by
  rw [round32, val32_ofNat neg _ (by decide), decodeFloat_infMag]

end Sys2Proof.Machine
end

