-- ==== Sys2Proof/Laws/Memory.lean ====
section
/-! SUPPORT. What reading and writing a buffer does (20 R62), and that every write keeps the canonical form. -/

namespace Sys2Proof.Machine

/-- All indices of a memory lie above `j`. -/
def Mem.above (j : Nat) (m : Mem) : Prop := ∀ c ∈ m, j < c.1

theorem Mem.wf_cons (j : Nat) (v : Elem) (m : Mem) :
    Mem.wf ((j, v) :: m) = true ↔ v ≠ unwritten ∧ Mem.above j m ∧ Mem.wf m = true := by
  simp [Mem.wf, Mem.above, and_assoc]

/-- An index below every listed one reads as unwritten. -/
theorem Mem.read_of_above {i : Nat} {m : Mem} (h : Mem.above i m) : Mem.read m i = unwritten := by
  induction m with
  | nil => rfl
  | cons c m ih =>
    obtain ⟨j, v⟩ := c
    have hj : i < j := h (j, v) (by simp)
    have hm : Mem.above i m := fun c hc => h c (by simp [hc])
    simp [Mem.read, Nat.ne_of_lt hj, ih hm]

theorem Mem.above_mono {i j : Nat} {m : Mem} (hij : i ≤ j) (h : Mem.above j m) : Mem.above i m :=
  fun c hc => Nat.lt_of_le_of_lt hij (h c hc)

theorem Mem.read_consEntry_same {i : Nat} {w : Elem} {m : Mem} (h : Mem.above i m) :
    (Mem.consEntry i w m).read i = w := by
  unfold Mem.consEntry
  split
  · rename_i hw
    rw [hw, Mem.read_of_above h]
  · simp [Mem.read]

theorem Mem.read_consEntry_ne {i k : Nat} {w : Elem} {m : Mem} (hk : k ≠ i) :
    (Mem.consEntry i w m).read k = m.read k := by
  unfold Mem.consEntry
  split
  · rfl
  · simp [Mem.read, hk]

/-- A read after a write to the same index gives the element written (20 R62). -/
theorem Mem.read_write_same {m : Mem} (h : m.wf = true) (i : Nat) (w : Elem) : (m.write i w).read i = w := by
  induction m with
  | nil => exact Mem.read_consEntry_same (fun _ hc => by simp at hc)
  | cons c m ih =>
    obtain ⟨j, v⟩ := c
    obtain ⟨-, ha, hm⟩ := (Mem.wf_cons j v m).1 h
    unfold Mem.write
    split
    · rename_i hij
      refine Mem.read_consEntry_same fun c hc => ?_
      rcases List.mem_cons.1 hc with rfl | hc
      · exact hij
      · exact Nat.lt_trans hij (ha c hc)
    · split
      · rename_i hij
        exact Mem.read_consEntry_same (hij ▸ ha)
      · rename_i hij
        simp [Mem.read, hij, ih hm]

/-- A write leaves every other index alone (20 R62). -/
theorem Mem.read_write_ne {m : Mem} (h : m.wf = true) {i k : Nat} (hk : k ≠ i) (w : Elem) :
    (m.write i w).read k = m.read k := by
  induction m with
  | nil => exact Mem.read_consEntry_ne hk
  | cons c m ih =>
    obtain ⟨j, v⟩ := c
    obtain ⟨-, ha, hm⟩ := (Mem.wf_cons j v m).1 h
    unfold Mem.write
    split
    · exact Mem.read_consEntry_ne hk
    · split
      · rename_i hij
        rw [Mem.read_consEntry_ne hk]
        simp [Mem.read, show k ≠ j from hij ▸ hk]
      · simp [Mem.read, ih hm]

theorem Mem.above_write {j i : Nat} {m : Mem} (h : Mem.above j m) (hi : j < i) (w : Elem) : Mem.above j (m.write i w) := by
  have hcons : ∀ {q : Mem}, Mem.above j q → Mem.above j (Mem.consEntry i w q) := by
    intro q hq
    unfold Mem.consEntry
    split
    · exact hq
    · intro c hc
      rcases List.mem_cons.1 hc with rfl | hc
      · exact hi
      · exact hq c hc
  induction m with
  | nil => exact hcons h
  | cons c m ih =>
    obtain ⟨l, v⟩ := c
    have hl : j < l := h (l, v) (by simp)
    have hm : Mem.above j m := fun c hc => h c (by simp [hc])
    unfold Mem.write
    split
    · exact hcons h
    · split
      · exact hcons hm
      · intro c hc
        rcases List.mem_cons.1 hc with rfl | hc
        · exact hl
        · exact ih hm c hc

theorem Mem.wf_consEntry {i : Nat} {w : Elem} {m : Mem} (ha : Mem.above i m) (h : m.wf = true) :
    (Mem.consEntry i w m).wf = true := by
  unfold Mem.consEntry
  split
  · exact h
  · rename_i hw
    exact (Mem.wf_cons i w m).2 ⟨hw, ha, h⟩

/-- A write keeps the canonical form. -/
theorem Mem.wf_write {m : Mem} (h : m.wf = true) (i : Nat) (w : Elem) : (m.write i w).wf = true := by
  induction m with
  | nil => exact Mem.wf_consEntry (fun _ hc => by simp at hc) rfl
  | cons c m ih =>
    obtain ⟨j, v⟩ := c
    obtain ⟨hv, ha, hm⟩ := (Mem.wf_cons j v m).1 h
    unfold Mem.write
    split
    · rename_i hij
      refine Mem.wf_consEntry (fun c hc => ?_) h
      rcases List.mem_cons.1 hc with rfl | hc
      · exact hij
      · exact Nat.lt_trans hij (ha c hc)
    · split
      · rename_i hij
        exact Mem.wf_consEntry (hij ▸ ha) hm
      · rename_i h1 h2
        exact (Mem.wf_cons j v _).2 ⟨hv, Mem.above_write ha (by omega) w, ih hm⟩

/-- The buffers after reset are in canonical form. -/
theorem State.reset_buffers_wf : State.reset.inMem.wf = true ∧ State.reset.midMem.wf = true ∧ State.reset.outMem.wf = true :=
  ⟨rfl, rfl, rfl⟩

end Sys2Proof.Machine
end

