-- ==== Sys2Proof/Laws/PerInstr.lean ====
section
/-! SUPPORT. The per-command family EncodingFields: the three fields of a command's word (30 R80, R81, R83). -/

namespace Sys2Proof.Laws.EncodingFields

/-- The word of a command has RSV = 0, the command's opcode in OP and its unit in U, and is legal (30 R80, R84). -/
def Statement (i : Sys2Proof.Instr) : Prop :=
  Sys2Proof.rsvField (Sys2Proof.encode i) = 0 ∧
  Sys2Proof.opField (Sys2Proof.encode i) = Sys2Proof.opcodeOf i ∧
  Sys2Proof.unitField (Sys2Proof.encode i) = Sys2Proof.bitOfUnit (Sys2Proof.unitOf i) ∧
  Sys2Proof.legalWord (Sys2Proof.encode i) = true

theorem freset (u : Sys2Proof.PipeUnit) : Statement (.freset u) := by
  cases u <;> exact ⟨by decide, by decide, by decide, by decide⟩

theorem fsamp (u : Sys2Proof.PipeUnit) : Statement (.fsamp u) := by
  cases u <;> exact ⟨by decide, by decide, by decide, by decide⟩

theorem init (u : Sys2Proof.PipeUnit) : Statement (.init u) := by
  cases u <;> exact ⟨by decide, by decide, by decide, by decide⟩

theorem preset (u : Sys2Proof.PipeUnit) : Statement (.preset u) := by
  cases u <;> exact ⟨by decide, by decide, by decide, by decide⟩

theorem dproc : Statement .dproc := ⟨by decide, by decide, by decide, by decide⟩

theorem expsz : Statement .expsz := ⟨by decide, by decide, by decide, by decide⟩

theorem uproc : Statement .uproc := ⟨by decide, by decide, by decide, by decide⟩

theorem getsrc (u : Sys2Proof.PipeUnit) : Statement (.getsrc u) := by
  cases u <;> exact ⟨by decide, by decide, by decide, by decide⟩

theorem gettgt (u : Sys2Proof.PipeUnit) : Statement (.gettgt u) := by
  cases u <;> exact ⟨by decide, by decide, by decide, by decide⟩

theorem getratio (u : Sys2Proof.PipeUnit) : Statement (.getratio u) := by
  cases u <;> exact ⟨by decide, by decide, by decide, by decide⟩

end Sys2Proof.Laws.EncodingFields
end

