-- ==== Sys2Proof/Laws/Pipelines.lean ====
section
/-! SUPPORT. What the loops of the two pipelines do (41 R120, R122; 43 R150): the fields they keep, and the canonical form of the buffer they write. -/

namespace Sys2Proof.Machine

/-! ### ResampleBlock (41 R120) -/

/-- One pass of the `while` touches MID, the count, `t` and the draw counter only. -/
theorem emitPass_frame (ratio : F64) (outBase : Nat) (r : ResampleRun) :
    (emitPass ratio outBase r).fir = r.fir ∧ (emitPass ratio outBase r).prev = r.prev ∧
      (emitPass ratio outBase r).curr = r.curr ∧ (emitPass ratio outBase r).count = r.count + 1 ∧
      (emitPass ratio outBase r).t = sub64 noDraw r.t one64 :=
  ⟨rfl, rfl, rfl, rfl, rfl⟩

/-- The `while` touches MID, the count, `t` and the draw counter only. -/
theorem emitPasses_frame (ratio : F64) (outBase n : Nat) (r : ResampleRun) :
    (emitPasses ratio outBase n r).fir = r.fir ∧ (emitPasses ratio outBase n r).prev = r.prev ∧
      (emitPasses ratio outBase n r).curr = r.curr := by
  induction n generalizing r with
  | zero => exact ⟨rfl, rfl, rfl⟩
  | succ n ih =>
    unfold emitPasses
    split
    · obtain ⟨h1, h2, h3⟩ := ih (emitPass ratio outBase r)
      exact ⟨h1, h2, h3⟩
    · exact ⟨rfl, rfl, rfl⟩

/-- The `while` makes no pass when `t` is not at least 1.0. -/
theorem emitPasses_of_not_ge {ratio : F64} {outBase n : Nat} {r : ResampleRun} (h : ge64 r.t one64 = false) :
    emitPasses ratio outBase n r = r := by
  cases n with
  | zero => rfl
  | succ n => simp [emitPasses, h]

/-- The `while` with `t` at least 1.0 makes one pass and goes on. -/
theorem emitPasses_of_ge {ratio : F64} {outBase n : Nat} {r : ResampleRun} (h : ge64 r.t one64 = true) :
    emitPasses ratio outBase (n + 1) r = emitPasses ratio outBase n (emitPass ratio outBase r) := by
  simp [emitPasses, h]

/-- The count never falls. -/
theorem emitPasses_count_ge (ratio : F64) (outBase n : Nat) (r : ResampleRun) :
    r.count ≤ (emitPasses ratio outBase n r).count := by
  induction n generalizing r with
  | zero => exact Nat.le_refl _
  | succ n ih =>
    unfold emitPasses
    split
    · exact le_trans (Nat.le_succ _) (ih (emitPass ratio outBase r))
    · exact Nat.le_refl _

/-- The `while` writes MID only at the elements it counts. -/
theorem emitPasses_mid (ratio : F64) (outBase n : Nat) (r : ResampleRun) (h : r.mid.wf = true) :
    (emitPasses ratio outBase n r).mid.wf = true ∧
      ∀ a, (a < outBase + r.count ∨ outBase + (emitPasses ratio outBase n r).count ≤ a) →
        (emitPasses ratio outBase n r).mid.read a = r.mid.read a := by
  induction n generalizing r with
  | zero => exact ⟨h, fun _ _ => rfl⟩
  | succ n ih =>
    unfold emitPasses
    split
    · obtain ⟨hwf, hread⟩ := ih (emitPass ratio outBase r) (Mem.wf_write h _ _)
      refine ⟨hwf, fun a ha => ?_⟩
      have hc := emitPasses_count_ge ratio outBase n (emitPass ratio outBase r)
      have hcount : (emitPass ratio outBase r).count = r.count + 1 := rfl
      rw [hread a (by omega)]
      exact Mem.read_write_ne h (by omega) _
    · exact ⟨h, fun _ _ => rfl⟩

/-- The accumulator of the passes that follow the first one. -/
theorem passTime_sub (t : F64) (q : Nat) : passTime (sub64 noDraw t one64) q = passTime t (q + 1) := by
  induction q with
  | zero => rfl
  | succ q ih => rw [passTime, ih, ← passTime]

/-- What the `while` computes: pass `q` runs with the accumulator `passTime` at least 1.0 and writes its Emit to the next
element, and the accumulator and the draws end where the passes leave them. -/
theorem emitPasses_outputs (ratio : F64) (outBase n : Nat) (r : ResampleRun) (h : r.mid.wf = true) :
    (∀ q, r.count + q < (emitPasses ratio outBase n r).count →
      ge64 (passTime r.t q) one64 = true ∧
      (emitPasses ratio outBase n r).mid.read (outBase + (r.count + q)) =
        emit (r.draws + 7 * q) ratio (passTime r.t q) r.prev r.curr) ∧
    (emitPasses ratio outBase n r).t = passTime r.t ((emitPasses ratio outBase n r).count - r.count) ∧
    (emitPasses ratio outBase n r).draws = r.draws + 7 * ((emitPasses ratio outBase n r).count - r.count) := by
  induction n generalizing r with
  | zero =>
    have h0 : (emitPasses ratio outBase 0 r).count - r.count = 0 := Nat.sub_self _
    rw [h0]
    exact ⟨fun q hq => absurd hq (by show ¬ r.count + q < r.count; omega), rfl, rfl⟩
  | succ n ih =>
    cases hge : ge64 r.t one64 with
    | false =>
      rw [emitPasses_of_not_ge hge, Nat.sub_self]
      exact ⟨fun q hq => absurd hq (by omega), rfl, rfl⟩
    | true =>
      rw [emitPasses_of_ge hge]
      have hwf : (emitPass ratio outBase r).mid.wf = true := Mem.wf_write h _ _
      have hc := emitPasses_count_ge ratio outBase n (emitPass ratio outBase r)
      obtain ⟨hout, ht, hd⟩ := ih (emitPass ratio outBase r) hwf
      have hmid := (emitPasses_mid ratio outBase n (emitPass ratio outBase r) hwf).2
      have hcount : (emitPass ratio outBase r).count = r.count + 1 := rfl
      have htime : (emitPass ratio outBase r).t = sub64 noDraw r.t one64 := rfl
      have hdraws : (emitPass ratio outBase r).draws = r.draws + 7 := rfl
      rw [hcount] at hc
      obtain ⟨p, hp⟩ : ∃ p, (emitPasses ratio outBase n (emitPass ratio outBase r)).count = r.count + 1 + p :=
        ⟨_, (Nat.add_sub_of_le hc).symm⟩
      have h1 : r.count + 1 + p - (r.count + 1) = p := by omega
      have h2 : r.count + 1 + p - r.count = p + 1 := by omega
      rw [hp, hcount, htime, passTime_sub, h1] at ht
      rw [hp, hcount, hdraws, h1] at hd
      rw [hp, h2]
      refine ⟨fun q hq => ?_, ht, by omega⟩
      cases q with
      | zero =>
        refine ⟨hge, ?_⟩
        rw [hmid _ (by omega)]
        exact Mem.read_write_same h _ _
      | succ q =>
        have hq' := hout q (by omega)
        rw [hcount, htime, passTime_sub, hdraws] at hq'
        refine ⟨hq'.1, ?_⟩
        rw [show r.count + (q + 1) = r.count + 1 + q by omega, show r.draws + 7 * (q + 1) = r.draws + 7 + 7 * q by omega]
        exact hq'.2

/-- Two runs that differ in MID only, and agree there on the elements written from count `c` on. -/
def ResampleRun.SameBut (outBase c : Nat) (r r' : ResampleRun) : Prop :=
  r' = { r with mid := r'.mid } ∧ r.mid.wf = true ∧ r'.mid.wf = true ∧
    ∀ a, outBase + c ≤ a → a < outBase + r.count → r'.mid.read a = r.mid.read a

/-- One pass of the `while` does not read MID. -/
theorem emitPass_sameBut (ratio : F64) {outBase c : Nat} {r r' : ResampleRun} (h : r.SameBut outBase c r') :
    (emitPass ratio outBase r).SameBut outBase c (emitPass ratio outBase r') := by
  obtain ⟨heq, hwf, hwf', hread⟩ := h
  have hmid : (emitPass ratio outBase r').mid =
      r'.mid.write (outBase + r.count) (emit r.draws ratio r.t r.prev r.curr) := by rw [heq]; rfl
  refine ⟨by rw [heq]; rfl, Mem.wf_write hwf _ _, Mem.wf_write hwf' _ _, fun a hlo hhi => ?_⟩
  have hhi' : a < outBase + (r.count + 1) := hhi
  show (emitPass ratio outBase r').mid.read a = (r.mid.write (outBase + r.count) _).read a
  rw [hmid]
  by_cases ha : a = outBase + r.count
  · rw [ha, Mem.read_write_same hwf', Mem.read_write_same hwf]
  · rw [Mem.read_write_ne hwf' ha, Mem.read_write_ne hwf ha]
    exact hread a hlo (by omega)

/-- The `while` does not read MID. -/
theorem emitPasses_sameBut (ratio : F64) {outBase c : Nat} (n : Nat) {r r' : ResampleRun} (h : r.SameBut outBase c r') :
    (emitPasses ratio outBase n r).SameBut outBase c (emitPasses ratio outBase n r') := by
  induction n generalizing r r' with
  | zero => exact h
  | succ n ih =>
    have ht : r'.t = r.t := by rw [h.1]
    unfold emitPasses
    rw [ht]
    split
    · exact ih (emitPass_sameBut ratio h)
    · exact h

@[simp] theorem takeSample_fir (taps : Taps) (ratio : F64) (x : F32) (r : ResampleRun) :
    (takeSample taps ratio x r).fir = firNext r.fir x := rfl
@[simp] theorem takeSample_t (taps : Taps) (ratio : F64) (x : F32) (r : ResampleRun) :
    (takeSample taps ratio x r).t = add64 noDraw r.t ratio := rfl
@[simp] theorem takeSample_prev (taps : Taps) (ratio : F64) (x : F32) (r : ResampleRun) :
    (takeSample taps ratio x r).prev = r.prev := rfl
@[simp] theorem takeSample_curr (taps : Taps) (ratio : F64) (x : F32) (r : ResampleRun) :
    (takeSample taps ratio x r).curr = firOut taps r.fir r.draws x := rfl
@[simp] theorem takeSample_mid (taps : Taps) (ratio : F64) (x : F32) (r : ResampleRun) :
    (takeSample taps ratio x r).mid = r.mid := rfl
@[simp] theorem takeSample_count (taps : Taps) (ratio : F64) (x : F32) (r : ResampleRun) :
    (takeSample taps ratio x r).count = r.count := rfl
@[simp] theorem takeSample_draws (taps : Taps) (ratio : F64) (x : F32) (r : ResampleRun) :
    (takeSample taps ratio x r).draws = r.draws + firDraws := rfl

/-- One input sample, field by field, in terms of the `while` it runs. -/
theorem resampleSample_eq (taps : Taps) (ratio : F64) (outBase fuel : Nat) (x : F32) (r : ResampleRun) :
    resampleSample taps ratio outBase fuel x r =
      { emitPasses ratio outBase fuel (takeSample taps ratio x r) with
        prev := (emitPasses ratio outBase fuel (takeSample taps ratio x r)).curr } := rfl

/-- The block with one more input sample (41 R120). -/
theorem resampleBlock_succ (taps : Taps) (ratio : F64) (inp : Mem) (inBase outBase fuel : Nat) (r : ResampleRun)
    (n : Nat) :
    resampleBlock taps ratio inp inBase outBase fuel r (n + 1) =
      resampleSample taps ratio outBase fuel (inp.read (inBase + n))
        (resampleBlock taps ratio inp inBase outBase fuel r n) := rfl

/-- One input sample: the stage steps, `curr` and `prev` become the filtered value. -/
theorem resampleSample_frame (taps : Taps) (ratio : F64) (outBase fuel : Nat) (x : F32) (r : ResampleRun) :
    (resampleSample taps ratio outBase fuel x r).fir = firNext r.fir x ∧
      (resampleSample taps ratio outBase fuel x r).curr = firOut taps r.fir r.draws x ∧
      (resampleSample taps ratio outBase fuel x r).prev = firOut taps r.fir r.draws x := by
  obtain ⟨h1, -, h3⟩ := emitPasses_frame ratio outBase fuel (takeSample taps ratio x r)
  exact ⟨h1, h3, h3⟩

/-- One input sample writes MID only at the elements it counts. -/
theorem resampleSample_mid (taps : Taps) (ratio : F64) (outBase fuel : Nat) (x : F32) (r : ResampleRun)
    (h : r.mid.wf = true) :
    r.count ≤ (resampleSample taps ratio outBase fuel x r).count ∧
      (resampleSample taps ratio outBase fuel x r).mid.wf = true ∧
      ∀ a, (a < outBase + r.count ∨ outBase + (resampleSample taps ratio outBase fuel x r).count ≤ a) →
        (resampleSample taps ratio outBase fuel x r).mid.read a = r.mid.read a := by
  have hc := emitPasses_count_ge ratio outBase fuel (takeSample taps ratio x r)
  have hm := emitPasses_mid ratio outBase fuel (takeSample taps ratio x r) (by simpa using h)
  rw [takeSample_count, takeSample_mid] at hm
  rw [takeSample_count] at hc
  exact ⟨hc, hm⟩

/-- The block writes MID only at the elements it counts, and keeps its canonical form. -/
theorem resampleBlock_mid (taps : Taps) (ratio : F64) (inp : Mem) (inBase outBase fuel : Nat) (r : ResampleRun)
    (h : r.mid.wf = true) (n : Nat) :
    r.count ≤ (resampleBlock taps ratio inp inBase outBase fuel r n).count ∧
      (resampleBlock taps ratio inp inBase outBase fuel r n).mid.wf = true ∧
      ∀ a, (a < outBase + r.count ∨ outBase + (resampleBlock taps ratio inp inBase outBase fuel r n).count ≤ a) →
        (resampleBlock taps ratio inp inBase outBase fuel r n).mid.read a = r.mid.read a := by
  induction n with
  | zero => exact ⟨Nat.le_refl _, h, fun _ _ => rfl⟩
  | succ n ih =>
    obtain ⟨hc, hwf, hread⟩ := ih
    obtain ⟨hc', hwf', hread'⟩ := resampleSample_mid taps ratio outBase fuel (inp.read (inBase + n)) _ hwf
    rw [resampleBlock_succ]
    exact ⟨le_trans hc hc', hwf', fun a ha => (hread' a (by omega)).trans (hread a (by omega))⟩

/-- ResampleBlock does not read MID (20 R64). -/
theorem resampleBlock_sameBut (taps : Taps) (ratio : F64) (inp : Mem) (inBase fuel : Nat) {outBase c : Nat}
    {r r' : ResampleRun} (h : r.SameBut outBase c r') (n : Nat) :
    (resampleBlock taps ratio inp inBase outBase fuel r n).SameBut outBase c
      (resampleBlock taps ratio inp inBase outBase fuel r' n) := by
  induction n with
  | zero => exact h
  | succ n ih =>
    rw [resampleBlock_succ, resampleBlock_succ, resampleSample_eq, resampleSample_eq]
    generalize resampleBlock taps ratio inp inBase outBase fuel r n = b at ih ⊢
    generalize resampleBlock taps ratio inp inBase outBase fuel r' n = b' at ih ⊢
    have htake : (takeSample taps ratio (inp.read (inBase + n)) b).SameBut outBase c
        (takeSample taps ratio (inp.read (inBase + n)) b') := by
      obtain ⟨heq, hwf, hwf', hread⟩ := ih
      exact ⟨by rw [heq]; rfl, hwf, hwf', hread⟩
    obtain ⟨heq, hwf, hwf', hread⟩ := emitPasses_sameBut ratio fuel htake
    exact ⟨by rw [heq], hwf, hwf', hread⟩

/-- One input sample: what its `while` writes, and where the accumulator and the draws end (41 R120, R121). -/
theorem resampleSample_outputs (taps : Taps) (ratio : F64) (outBase fuel : Nat) (x : F32) (r : ResampleRun)
    (h : r.mid.wf = true) :
    (∀ q, r.count + q < (resampleSample taps ratio outBase fuel x r).count →
      ge64 (passTime (add64 noDraw r.t ratio) q) one64 = true ∧
      (resampleSample taps ratio outBase fuel x r).mid.read (outBase + (r.count + q)) =
        emit (r.draws + firDraws + 7 * q) ratio (passTime (add64 noDraw r.t ratio) q) r.prev
          (resampleSample taps ratio outBase fuel x r).curr) ∧
    (resampleSample taps ratio outBase fuel x r).t =
      passTime (add64 noDraw r.t ratio) ((resampleSample taps ratio outBase fuel x r).count - r.count) := by
  obtain ⟨hout, ht, -⟩ := emitPasses_outputs ratio outBase fuel (takeSample taps ratio x r) h
  have hcurr := (resampleSample_frame taps ratio outBase fuel x r).2.1
  rw [hcurr]
  exact ⟨hout, ht⟩

/-- The elements a block has written keep their values through the samples that follow. -/
theorem resampleBlock_mid_kept (taps : Taps) (ratio : F64) (inp : Mem) (inBase outBase fuel : Nat) (r : ResampleRun)
    (h : r.mid.wf = true) {n m : Nat} (hnm : n ≤ m) :
    (resampleBlock taps ratio inp inBase outBase fuel r n).count ≤
        (resampleBlock taps ratio inp inBase outBase fuel r m).count ∧
      ∀ a, a < outBase + (resampleBlock taps ratio inp inBase outBase fuel r n).count →
        (resampleBlock taps ratio inp inBase outBase fuel r m).mid.read a =
          (resampleBlock taps ratio inp inBase outBase fuel r n).mid.read a := by
  induction m, hnm using Nat.le_induction with
  | base => exact ⟨Nat.le_refl _, fun _ _ => rfl⟩
  | succ m hm ih =>
    obtain ⟨hc, hread⟩ := ih
    have hwf := (resampleBlock_mid taps ratio inp inBase outBase fuel r h m).2.1
    obtain ⟨hc', -, hread'⟩ := resampleSample_mid taps ratio outBase fuel (inp.read (inBase + m)) _ hwf
    rw [resampleBlock_succ]
    exact ⟨le_trans hc hc', fun a ha => (hread' a (by omega)).trans (hread a ha)⟩

/-- After at least one input sample `prev` equals `curr` (10 R36). -/
theorem resampleBlock_prev_eq_curr (taps : Taps) (ratio : F64) (inp : Mem) (inBase outBase fuel : Nat)
    (r : ResampleRun) (n : Nat) :
    (resampleBlock taps ratio inp inBase outBase fuel r (n + 1)).prev =
      (resampleBlock taps ratio inp inBase outBase fuel r (n + 1)).curr := by
  obtain ⟨-, h2, h3⟩ := resampleSample_frame taps ratio outBase fuel (inp.read (inBase + n))
    (resampleBlock taps ratio inp inBase outBase fuel r n)
  exact h3.trans h2.symm

/-- Stage AA after a block is the fold of its single step over the input samples. -/
theorem resampleBlock_fir (taps : Taps) (ratio : F64) (inp : Mem) (inBase outBase fuel : Nat) (r : ResampleRun)
    (n : Nat) :
    (resampleBlock taps ratio inp inBase outBase fuel r n).fir =
      ((List.range n).map fun j => inp.read (inBase + j)).foldl firNext r.fir := by
  induction n with
  | zero => rfl
  | succ n ih =>
    obtain ⟨h1, -⟩ := resampleSample_frame taps ratio outBase fuel (inp.read (inBase + n))
      (resampleBlock taps ratio inp inBase outBase fuel r n)
    rw [List.range_succ, List.map_append, List.foldl_append, ← ih]
    exact h1

/-! ### CountOutputs (41 R122) -/

/-- The count of the dry run never falls. -/
theorem countPasses_ge (cap n : Nat) (tt : F64) (k : Nat) : k ≤ (countPasses cap n tt k).2 := by
  induction n generalizing tt k with
  | zero => exact Nat.le_refl _
  | succ n ih =>
    unfold countPasses
    split
    · split
      · exact Nat.le_succ k
      · exact le_trans (Nat.le_succ k) (ih _ _)
    · exact Nat.le_refl _

/-- The dry run stops at `cap + 1`. -/
theorem countPasses_le (cap n : Nat) (tt : F64) (k : Nat) (h : k ≤ cap) : (countPasses cap n tt k).2 ≤ cap + 1 := by
  induction n generalizing tt k with
  | zero => exact Nat.le_succ_of_le h
  | succ n ih =>
    unfold countPasses
    split
    · split
      · exact Nat.succ_le_succ h
      · exact ih _ _ (by omega)
    · exact Nat.le_succ_of_le h

/-- The `while` of the dry run against the `while` of the block, from one accumulator and one count (41 R122): when the
dry run does not exceed `cap`, every large enough bound lets the block make the same passes to the end; when it does, the
block exceeds `cap` too. -/
theorem countPasses_emitPasses (ratio : F64) (outBase cap n : Nat) (r : ResampleRun) (hk : r.count ≤ cap)
    (hn : cap + 1 - r.count ≤ n) :
    ((countPasses cap n r.t r.count).2 ≤ cap ∧ ge64 (countPasses cap n r.t r.count).1 one64 = false ∧
        ∀ fuel, cap - r.count ≤ fuel →
          (emitPasses ratio outBase fuel r).t = (countPasses cap n r.t r.count).1 ∧
          (emitPasses ratio outBase fuel r).count = (countPasses cap n r.t r.count).2 ∧
          emitPasses ratio outBase fuel r = emitPasses ratio outBase (cap - r.count) r) ∨
      ((countPasses cap n r.t r.count).2 = cap + 1 ∧
        ∀ fuel, cap + 1 - r.count ≤ fuel → cap < (emitPasses ratio outBase fuel r).count) := by
  induction n generalizing r with
  | zero => omega
  | succ n ih =>
    cases hge : ge64 r.t one64 with
    | false =>
      left
      have hc : countPasses cap (n + 1) r.t r.count = (r.t, r.count) := by simp [countPasses, hge]
      rw [hc]
      refine ⟨hk, hge, fun fuel _ => ?_⟩
      simp [emitPasses_of_not_ge hge]
    | true =>
      have hcount : (emitPass ratio outBase r).count = r.count + 1 := rfl
      by_cases hcap : cap < r.count + 1
      · right
        have hc : countPasses cap (n + 1) r.t r.count = (r.t, r.count + 1) := by simp [countPasses, hge, hcap]
        rw [hc]
        refine ⟨show r.count + 1 = cap + 1 by omega, fun fuel hf => ?_⟩
        obtain ⟨f, rfl⟩ : ∃ f, fuel = f + 1 := ⟨fuel - 1, by omega⟩
        rw [emitPasses_of_ge hge]
        exact Nat.lt_of_lt_of_le hcap (hcount ▸ emitPasses_count_ge ratio outBase f (emitPass ratio outBase r))
      · have hc : countPasses cap (n + 1) r.t r.count =
            countPasses cap n (emitPass ratio outBase r).t (emitPass ratio outBase r).count := by
          simp [countPasses, hge, hcap, emitPass]
        rw [hc]
        rcases ih (emitPass ratio outBase r) (by omega) (by omega) with ⟨h1, h2, h3⟩ | ⟨h1, h2⟩
        · refine .inl ⟨h1, h2, fun fuel hf => ?_⟩
          obtain ⟨f, rfl⟩ : ∃ f, fuel = f + 1 := ⟨fuel - 1, by omega⟩
          have hsub : cap - r.count = (cap - (r.count + 1)) + 1 := by omega
          rw [hsub, emitPasses_of_ge hge, emitPasses_of_ge hge]
          exact h3 f (by omega)
        · refine .inr ⟨h1, fun fuel hf => ?_⟩
          obtain ⟨f, rfl⟩ : ∃ f, fuel = f + 1 := ⟨fuel - 1, by omega⟩
          rw [emitPasses_of_ge hge]
          exact h2 f (by omega)

/-! ### The loop of UPROC (43 R150) -/

/-- The draws of the loop of UPROC: 135 an output. -/
theorem reconBlock_draws (taps : Taps) (mid : Mem) (ur : F64) (len midBase outBase : Nat) (r : ReconRun) (n : Nat) :
    (reconBlock taps mid ur len midBase outBase r n).draws = r.draws + 135 * n := by
  induction n with
  | zero => rfl
  | succ n ih =>
    have h : (reconBlock taps mid ur len midBase outBase r (n + 1)).draws =
        (reconBlock taps mid ur len midBase outBase r n).draws + lerpDraws + firDraws := rfl
    rw [h, ih, lerpDraws, firDraws]
    omega

/-- The loop of UPROC keeps OUT in canonical form and writes only the elements of its range. -/
theorem reconBlock_out (taps : Taps) (mid : Mem) (ur : F64) (len midBase outBase : Nat) (r : ReconRun)
    (h : r.out.wf = true) (n : Nat) :
    (reconBlock taps mid ur len midBase outBase r n).out.wf = true ∧
      ∀ a, (a < outBase ∨ outBase + n ≤ a) →
        (reconBlock taps mid ur len midBase outBase r n).out.read a = r.out.read a := by
  induction n with
  | zero => exact ⟨h, fun _ _ => rfl⟩
  | succ n ih =>
    obtain ⟨hwf, hread⟩ := ih
    exact ⟨Mem.wf_write hwf _ _, fun a ha => (Mem.read_write_ne hwf (by omega) _).trans (hread a (by omega))⟩

/-- Two runs of the loop of UPROC that differ in OUT only, and agree there on the elements from `outBase` to `hi`. -/
def ReconRun.SameBut (outBase hi : Nat) (r r' : ReconRun) : Prop :=
  r' = { r with out := r'.out } ∧ r.out.wf = true ∧ r'.out.wf = true ∧
    ∀ a, outBase ≤ a → a < hi → r'.out.read a = r.out.read a

/-- The loop of UPROC does not read OUT (20 R64). -/
theorem reconBlock_sameBut (taps : Taps) (mid : Mem) (ur : F64) (len midBase : Nat) {outBase : Nat} {r r' : ReconRun}
    (h : r.SameBut outBase outBase r') (n : Nat) :
    (reconBlock taps mid ur len midBase outBase r n).SameBut outBase (outBase + n)
      (reconBlock taps mid ur len midBase outBase r' n) := by
  induction n with
  | zero => exact h
  | succ n ih =>
    rw [reconBlock, reconBlock]
    generalize reconBlock taps mid ur len midBase outBase r n = b at ih ⊢
    generalize reconBlock taps mid ur len midBase outBase r' n = b' at ih ⊢
    obtain ⟨heq, hwf, hwf', hread⟩ := ih
    have hfir : b'.fir = b.fir := by rw [heq]
    have hdraws : b'.draws = b.draws := by rw [heq]
    unfold reconSample
    rw [hfir, hdraws]
    refine ⟨rfl, Mem.wf_write hwf _ _, Mem.wf_write hwf' _ _, fun a hlo hhi => ?_⟩
    by_cases ha : a = outBase + n
    · subst ha
      rw [Mem.read_write_same hwf', Mem.read_write_same hwf]
    · rw [Mem.read_write_ne hwf' ha, Mem.read_write_ne hwf ha]
      exact hread a hlo (by omega)

end Sys2Proof.Machine
end

