-- ==== Sys2Proof/Tests/Slice0.lean ====
section
/-! SUPPORT. The model's own tests: words decoded from the tables of 30, ill-formed terms, the worked vectors of 95, and one witness for each statement that has hypotheses. -/

namespace Sys2Proof.Tests

set_option Elab.async false

open Sys2Proof.Machine

/-! ### Helpers -/

/-- The coefficient set BOX of 95 §0. -/
def box : Taps := Vector.replicate 64 0x3C800000#32

/-- The parameters of the vectors of 95: both stages BOX, each buffer 1024 elements. -/
def boxParams : Params := { tapsAA := box, tapsRC := box, inSize := 1024, midSize := 1024, outSize := 1024 }

/-- The state after reset of a block with those parameters. -/
def start : State := { State.reset with params := boxParams }

/-- The next state of an outcome, and the given one when there is none. -/
def after (s : State) : Host.Outcome State Fault Refusal → State
  | .next t => t
  | .fault _ => s
  | .refused _ => s

/-- The state after one command. -/
def run (i : Instr) (s : State) : State := after s (exec i s)

/-- Every command answers a next state (60 R199). -/
theorem exec_eq_run (i : Instr) (s : State) : exec i s = .next (run i s) := by
  cases i <;> rfl

/-- The state after one step. -/
def stepped (s : State) : State := after s (step s)

/-- Unit D configured for 32000 Hz, ratio 0.5 (95 V-R1). -/
def halfRate : PipeConfig := ⟨true, 0x40DF400000000000#64, 0x40CF400000000000#64, 0x3FE0000000000000#64⟩

/-- Unit D configured for 44100 Hz (95 V-C1). -/
def cdRate : PipeConfig := ⟨true, 0x40E5888000000000#64, 0x40CF400000000000#64, 0x3FD7384EF2A605CE#64⟩

/-- A DPROC of the last two elements of IN into the last element of MID, ratio 0.5; IN holds 64.0 and 128.0. -/
def downTwo : State :=
  { start with
    cfgD := halfRate
    a0 := 2, a1 := 1, a2 := 1022, a3 := 1023
    inMem := [(1022, 0x42800000#32), (1023, 0x43000000#32)] }

/-- The UPROC of 95 V-U3: K = 1, M = 4, MID[0] = 64.0, into the last four elements of OUT. -/
def upFour : State :=
  { start with
    cfgU := cdRate
    a0 := 4, a1 := 1, a2 := 0, a3 := 1020
    midMem := [(0, 0x42800000#32)] }

/-! ### Decoding: words written out from 30 R80 and R83 -/

theorem test_decode_freset : decode 0b00000000000000000000000_0_00000001#32 = .ok (.freset .down) := by decide
theorem test_decode_fsamp : decode 0b00000000000000000000000_1_00000010#32 = .ok (.fsamp .up) := by decide
theorem test_decode_init : decode 0b00000000000000000000000_1_00000011#32 = .ok (.init .up) := by decide
theorem test_decode_preset : decode 0b00000000000000000000000_0_00000100#32 = .ok (.preset .down) := by decide
theorem test_decode_dproc : decode 0b00000000000000000000000_0_00000101#32 = .ok .dproc := by decide
theorem test_decode_expsz : decode 0b00000000000000000000000_0_00000110#32 = .ok .expsz := by decide
theorem test_decode_uproc : decode 0b00000000000000000000000_1_00000111#32 = .ok .uproc := by decide
theorem test_decode_getsrc : decode 0b00000000000000000000000_1_00001000#32 = .ok (.getsrc .up) := by decide
theorem test_decode_gettgt : decode 0b00000000000000000000000_0_00001001#32 = .ok (.gettgt .down) := by decide
theorem test_decode_getratio : decode 0b00000000000000000000000_1_00001010#32 = .ok (.getratio .up) := by decide

/-- The illegal words of 95 V-E1, each refused by its own name. -/
theorem test_decode_illegal :
    decode 0x00000000#32 = .error .opcodeZero ∧ decode 0x0000000B#32 = .error .opcodeUnassigned ∧
    decode 0x00000105#32 = .error .downCommandOnUp ∧ decode 0x00000007#32 = .error .upCommandOnDown ∧
    decode 0x00000201#32 = .error .reservedBits ∧ decode 0x80000001#32 = .error .reservedBits := by decide

/-! ### Ill-formed terms that the checks of WellFormed refuse -/

theorem test_illegal_reserved : legalWord 0x00000201#32 = false := by decide
theorem test_illegal_opcode_zero : legalWord 0x00000100#32 = false := by decide
theorem test_illegal_opcode_unassigned : legalWord 0x0000000B#32 = false := by decide
theorem test_illegal_dproc_up : legalWord 0x00000105#32 = false := by decide
theorem test_illegal_expsz_up : legalWord 0x00000106#32 = false := by decide
theorem test_illegal_uproc_down : legalWord 0x00000007#32 = false := by decide
/-- A set with an infinite tap is not finite. -/
theorem test_taps_infinite : tapsFinite (box.set 5 0x7F800000#32) = false := by decide +kernel
/-- A set with one tap changed is not symmetric. -/
theorem test_taps_asymmetric : tapsSymmetric (box.set 5 0x3D000000#32) = false := by decide +kernel
/-- BOX is well formed (95 §0). -/
theorem test_box_wf : tapsWf box = true := by decide +kernel

/-! ### Vectors of 95 -/

/-- 95 V-F4: FRESET clears the slot the sample went to. -/
theorem test_freset_clears :
    (run (.freset .down) (run (.fsamp .down) { start with a0 := 0x3F800000#64 })).aa = FirState.clear := by decide +kernel

/-- 40 R103: 1.0 on a clear BOX stage gives 0.015625. -/
theorem test_fsamp_box : (run (.fsamp .down) { start with a0 := 0x3F800000#64 }).r0 = 0x000000003C800000#64 := by
  decide +kernel

/-- 95 V-F5: ascending taps in a binary32 accumulator; the line holds -2^30 and 2^30 when 1.0 arrives. -/
theorem test_fsamp_order :
    (run (.fsamp .up) { start with
      a0 := 0x3F800000#64
      rc := { dl := ((Vector.replicate 64 0#32).set 0 0x4E800000#32).set 1 0xCE800000#32, wi := 2 } }).r0 = 0#64 := by
  decide +kernel

/-- 44 R166: 44100.0 gives the ratio 0x3FD7384EF2A605CE. -/
theorem test_init_cd : (run (.init .down) { start with a0 := 0x40E5888000000000#64 }).cfgD = cdRate := by decide +kernel

/-- 95 V-C1: the least subnormal rate is rejected, STATUS = 0x00040300. -/
theorem test_init_tiny : (run (.init .down) { start with a0 := 1#64 }).statusWord = 0x00040300#32 := by decide +kernel

/-- 44 R167: PRESET.D clears the phase and keeps the ratio. -/
theorem test_preset_down :
    (run (.preset .down) { start with t := 0x3FE84EF2A605CDCC#64, cfgD := cdRate }).t = 0#64 ∧
    (run (.preset .down) { start with t := 0x3FE84EF2A605CDCC#64, cfgD := cdRate }).cfgD.ratio = 0x3FD7384EF2A605CE#64 := by
  decide +kernel

/-- 95 V-R1: of two inputs at ratio 0.5 the one output is y_1 = 3.0. -/
theorem test_dproc_half : (run .dproc downTwo).r0 = 1#64 ∧ (run .dproc downTwo).midMem = [(1023, 0x40400000#32)] := by
  decide +kernel

/-- 95 V-R10: the same block with no capacity is rejected, ERR_CAP. -/
theorem test_dproc_cap : (run .dproc { downTwo with a1 := 0 }).statusWord = 0x00100501#32 := by decide +kernel

/-- 95 V-R12: EXPSZ of 512 at 44100 Hz is 186. -/
theorem test_expsz_512 : (run .expsz { start with cfgD := cdRate, a0 := 512#64 }).r0 = 186#64 := by decide +kernel

/-- 95 V-R12: EXPSZ of 4294967295 at 44100 Hz is 1558264779. -/
theorem test_expsz_top : (run .expsz { start with cfgD := cdRate, a0 := 4294967295#64 }).r0 = 1558264779#64 := by
  decide +kernel

/-- 95 V-U3: OUT = 1, 2, 3, 4. -/
theorem test_uproc_hold :
    (run .uproc upFour).outMem =
      [(1020, 0x3F800000#32), (1021, 0x40000000#32), (1022, 0x40400000#32), (1023, 0x40800000#32)] := by decide +kernel

/-- 95 V-U5: K = 4, M = 2 takes positions 0 and 2: OUT = 1, 5. -/
theorem test_uproc_shrink :
    (run .uproc { upFour with
      a0 := 2, a1 := 4, a3 := 0
      midMem := [(0, 0x42800000#32), (1, 0x43000000#32), (2, 0x43800000#32), (3, 0x44000000#32)] }).outMem =
      [(0, 0x3F800000#32), (1, 0x40A00000#32)] := by decide +kernel

/-- 95 V-C3: the accessors after INIT.D with 44100.0. -/
theorem test_accessors :
    (run (.getsrc .down) { start with cfgD := cdRate }).r0 = 0x40E5888000000000#64 ∧
    (run (.gettgt .down) { start with cfgD := cdRate }).r0 = 0x40CF400000000000#64 ∧
    (run (.getratio .down) { start with cfgD := cdRate }).r0 = 0x3FD7384EF2A605CE#64 := by decide +kernel

/-- 95 V-C5: DPROC with unit U Ready only is rejected, STATUS = 0x00020202. -/
theorem test_units_apart : (run .dproc { start with cfgU := cdRate }).statusWord = 0x00020202#32 := by decide +kernel

/-- 95 V-E1: the word 0 written to CMD from reset gives STATUS = 0x00010100. -/
theorem test_issue_illegal : (stepped (State.reset.withFetchWord 32 0)).statusWord = 0x00010100#32 := by decide +kernel

/-- 41 R121: with prev = 2^60, curr = 1.0 and f = 1 the interpolation gives 0.0, not curr. -/
theorem test_lerp_full_weight : lerp 0 0x5D800000#32 one64 0x3F800000#32 = 0x00000000#32 := by decide +kernel

/-- 95 V-R11: with a rate of 1e-300 the dry run stops at cap + 1. -/
theorem test_dry_run_stops : countOutputs 0x7F16C8E5CA239029#64 0#64 1 10 = 11 := by decide +kernel

/-- 00 R17: the sum of two zeros of different sign is +0.0; a product of a negative number and +0 is -0. -/
theorem test_signed_zeros :
    add32 0 0x00000000#32 0x80000000#32 = 0x00000000#32 ∧ mul32 0 0xBF800000#32 0x00000000#32 = 0x80000000#32 := by
  decide +kernel

/-! ### Witnesses: states and operands that meet the hypotheses of a statement together -/

theorem witness_DecodesExactlyTheEncodedWord : decode 0x00000107#32 = .ok .uproc ∧ 0x00000107#32 = encode .uproc := by
  decide

theorem witness_IllegalWordsAreRejected :
    legalWord 0x00000201#32 = false ∧ legalWord 0x00000100#32 = false ∧ legalWord 0x0000000B#32 = false ∧
    legalWord 0x00000106#32 = false ∧ legalWord 0x00000007#32 = false ∧ legalWord 0x0000010A#32 = true := by
  decide

theorem witness_StepRunsTheDecodedCommand :
    (start.withFetchWord 32 0x107).moves = .writeReg 4 (zext64 0x00000107#32) :: [] ∧
      decode 0x00000107#32 = .ok .uproc ∧
    (start.withFetchWord 32 0x106).moves = .writeReg 4 (zext64 0x00000106#32) :: [] ∧
      decode 0x00000106#32 = .error .downCommandOnUp := by decide +kernel

theorem witness_IdleStepKeepsState : start.moves = [] := rfl

theorem witness_RegisterWrites :
    ({ start with moves := [.writeReg 0 5#64] } : State).moves = .writeReg 0 5#64 :: [] ∧
    ({ start with moves := [.writeReg 1 (zext64 0xFFFFFFFF#32)] } : State).moves = .writeReg 1 (zext64 0xFFFFFFFF#32) :: [] ∧
    ({ start with moves := [.writeReg 2 (zext64 5#32)] } : State).moves = .writeReg 2 (zext64 5#32) :: [] ∧
    ({ start with moves := [.writeReg 3 (zext64 5#32)] } : State).moves = .writeReg 3 (zext64 5#32) :: [] ∧
    ({ start with moves := [.writeReg 5 (zext64 5#32)] } : State).moves = .writeReg 5 (zext64 5#32) :: [] ∧
    ({ start with moves := [.writeReg 6 5#64] } : State).moves = .writeReg 6 5#64 :: [] :=
  ⟨rfl, rfl, rfl, rfl, rfl, rfl⟩

theorem witness_RegisterReads :
    ∀ n ∈ [0, 1, 2, 3, 5, 6], ({ start with moves := [.readReg n] } : State).moves = .readReg n :: [] :=
  fun _ _ => rfl

/-- The last element of OUT. -/
theorem witness_ElementWrite :
    ({ start with moves := [.writeElem .output 1023 7#32] } : State).moves = .writeElem .output 1023 7#32 :: [] ∧
      1023 < start.size .output ∧ (start.mem .output).wf = true := by decide +kernel

theorem witness_ElementRead :
    ({ start with moves := [.readElem .input 1023] } : State).moves = .readElem .input 1023 :: [] ∧
      1023 < start.size .input := by decide +kernel

/-- The first register number that does not exist, the least value too wide, the first element past the end. -/
theorem witness_AccessesTheHostLacks :
    step { start with moves := [.writeReg 7 0#64] } = .refused (.noSuchRegister 7) ∧
    step { start with moves := [.readReg 7] } = .refused (.noSuchRegister 7) ∧
    step { start with moves := [.readReg 4] } = .refused .readOfCmd ∧
    step { start with moves := [.writeReg 1 0x100000000#64] } = .refused (.valueTooWide 1) ∧
    step { start with moves := [.writeReg 5 0x100000000#64] } = .refused (.valueTooWide 5) ∧
    step { start with moves := [.writeElem .mid 1024 0#32] } = .fault (.noSuchElement .mid 1024) ∧
    step { start with moves := [.readElem .mid 1024] } = .fault (.noSuchElement .mid 1024) :=
  ⟨rfl, rfl, rfl, rfl, rfl, rfl, rfl⟩

theorem witness_HardwareReset : ∃ t, ({ start with moves := [.hardwareReset] } : State).moves = .hardwareReset :: [] ∧
    step { start with moves := [.hardwareReset] } = .next t := ⟨_, rfl, rfl⟩

theorem witness_Fsamp : (0x3F800000#32 : F32) = ({ start with a0 := 0x3F800000#64 } : State).a0.extractLsb' 0 32 := by decide

theorem witness_ImpulseResponse : tapsFinite (start.taps .aa) = true ∧ tapsSymmetric (start.taps .aa) = true := by
  decide +kernel

/-- A run of ratio 0.5 with no sample yet. -/
def emptyRun : ResampleRun := { fir := FirState.clear, t := 0, prev := 0, curr := 0, mid := [], count := 0, draws := 0 }

/-- Two inputs give one output: within a capacity of 1, above a capacity of 0. -/
theorem witness_DryRun :
    emptyRun.count = 0 ∧ countOutputs 0x3FE0000000000000#64 emptyRun.t 2 1 ≤ 1 ∧
      0 < countOutputs 0x3FE0000000000000#64 emptyRun.t 2 0 := by decide +kernel

theorem witness_PassBound :
    emptyRun.count = 0 ∧ countOutputs 0x3FE0000000000000#64 emptyRun.t 2 1 ≤ 1 ∧ 1 ≤ 1 ∧
      ge64 emptyRun.t one64 = false ∧ finite64 0x3FE0000000000000#64 = true ∧
      lt64 zero64 0x3FE0000000000000#64 = true ∧ phaseInRange emptyRun.t = true := by decide +kernel

theorem witness_Splitting : ∃ r₁ r₂ whole : ResampleRun, emptyRun.count = 0 ∧
    r₁ = resampleBlock box 0x3FE0000000000000#64 [] 0 0 1 emptyRun 1 ∧
    r₂ = resampleBlock box 0x3FE0000000000000#64 [] 1 (0 + r₁.count) 1 { r₁ with count := 0 } 1 ∧
    whole = resampleBlock box 0x3FE0000000000000#64 [] 0 0 1 emptyRun (1 + 1) :=
  ⟨_, _, _, rfl, rfl, rfl, rfl⟩

/-- The largest accumulator and the largest ratio below 1. -/
theorem witness_AtMostOneOutput :
    phaseInRange 0x3FEFFFFFFFFFFFFF#64 = true ∧ lt64 zero64 0x3FEFFFFFFFFFFFFF#64 = true ∧
      lt64 0x3FEFFFFFFFFFFFFF#64 one64 = true ∧ 1 ≤ 1 := by decide +kernel

/-- t exactly 1.0. -/
theorem witness_EmitFraction :
    finite64 0x3FE0000000000000#64 = true ∧ lt64 zero64 0x3FE0000000000000#64 = true ∧ finite64 one64 = true ∧
      ge64 one64 one64 = true := by decide +kernel

theorem witness_ZeroWeight : finite32 0x80000000#32 = true ∧ finite32 0x7F7FFFFF#32 = true := by decide +kernel

/-- Unit D at ratio 1: the largest length, and the largest estimate that fits. -/
def unitRate : PipeConfig := ⟨true, 0x40CF400000000000#64, 0x40CF400000000000#64, 0x3FF0000000000000#64⟩

theorem witness_ExpszReturns :
    ({ start with cfgD := unitRate, a0 := 0xFFFFFFFF#64 } : State).cfgD.ready = true ∧
    ceil64 (mul64 0 (u2f ((0xFFFFFFFF#64 : BitVec 64).extractLsb' 0 32).toNat) unitRate.ratio) = some (2 ^ 32 - 1) ∧
    2 ^ 32 - 1 ≤ 2 ^ 32 - 1 := by decide +kernel

/-- Unit D Unconfigured; ratio 2.0 and L = 2^31, whose estimate is 2^32; ratio 1.6e308 and L = 2, whose product is infinite
(95 V-C1). -/
theorem witness_ExpszRejections :
    start.cfgD.ready = false ∧
    ceil64 (mul64 0 (u2f ((0x80000000#64 : BitVec 64).extractLsb' 0 32).toNat) 0x4000000000000000#64) = some (2 ^ 32) ∧
    2 ^ 32 - 1 < 2 ^ 32 ∧
    mul64 0 (u2f ((2#64 : BitVec 64).extractLsb' 0 32).toNat) 0x7FEC7B1F3CAC7433#64 = posInf64 := by decide +kernel

/-- Both ranges end at the end of their spaces. -/
theorem witness_DprocRuns : ∃ r : ResampleRun,
    downTwo.cfgD.ready = true ∧ downTwo.a2.toNat + (downTwo.a0.extractLsb' 0 32).toNat ≤ downTwo.params.inSize.val ∧
    downTwo.a3.toNat + downTwo.a1.toNat ≤ downTwo.params.midSize.val ∧
    countOutputs downTwo.cfgD.ratio downTwo.t (downTwo.a0.extractLsb' 0 32).toNat downTwo.a1.toNat ≤ downTwo.a1.toNat ∧
    r = resampleBlock downTwo.params.tapsAA downTwo.cfgD.ratio downTwo.inMem downTwo.a2.toNat downTwo.a3.toNat
      downTwo.a1.toNat
      { fir := downTwo.aa, t := downTwo.t, prev := downTwo.prev, curr := downTwo.curr, mid := downTwo.midMem, count := 0,
        draws := downTwo.draws } (downTwo.a0.extractLsb' 0 32).toNat :=
  ⟨_, by decide +kernel, by decide +kernel, by decide +kernel, by decide +kernel, rfl⟩

/-- Unconfigured; one element too many in IN; one too many in MID; one output too many. -/
theorem witness_DprocChecks :
    start.cfgD.ready = false ∧
    downTwo.params.inSize.val < (1023#32).toNat + (downTwo.a0.extractLsb' 0 32).toNat ∧
    downTwo.params.midSize.val < downTwo.a3.toNat + (2#32).toNat ∧
    (0#32).toNat < countOutputs downTwo.cfgD.ratio downTwo.t (downTwo.a0.extractLsb' 0 32).toNat (0#32).toNat := by
  decide +kernel

/-- An accepted DPROC with two samples, the second of which makes a pass (95 V-R1), and a rejected one. -/
theorem witness_DprocWrites :
    (∃ t, downTwo.midMem.wf = true ∧ exec .dproc downTwo = .next t ∧ t.err = .ok ∧
      0 < (downTwo.a0.extractLsb' 0 32).toNat ∧ t.r0.toNat = 1) ∧
    (∃ t, start.midMem.wf = true ∧ exec .dproc start = .next t ∧ t.err ≠ .ok) :=
  ⟨⟨run .dproc downTwo, rfl, rfl, by decide +kernel, by decide, by decide +kernel⟩, ⟨run .dproc start, rfl, rfl, by decide +kernel⟩⟩

/-- Two samples of silence at ratio 0.5. -/
def silence : State := { downTwo with inMem := [] }

theorem witness_Silence : ∃ t, silence.Inv = true ∧ tapsFinite silence.params.tapsAA = true ∧
    silence.aa.dl = Vector.replicate 64 0x00000000#32 ∧ silence.prev = 0x00000000#32 ∧
    (∀ n, n < (silence.a0.extractLsb' 0 32).toNat → silence.inMem.read (silence.a2.toNat + n) = 0x00000000#32) ∧
    exec .dproc silence = .next t ∧ t.err = .ok :=
  ⟨run .dproc silence, by decide +kernel, by decide +kernel, rfl, rfl, fun _ _ => rfl, rfl, by decide +kernel⟩

theorem witness_UprocRuns : ∃ r : ReconRun,
    upFour.cfgU.ready = true ∧ upFour.a2.toNat + upFour.a1.toNat ≤ upFour.params.midSize.val ∧
    upFour.a3.toNat + (upFour.a0.extractLsb' 0 32).toNat ≤ upFour.params.outSize.val ∧
    upFour.a0.extractLsb' 0 32 ≠ 0#32 ∧ upFour.a1 ≠ 0#32 ∧
    r = reconBlock upFour.params.tapsRC upFour.midMem
      (div64 0 (u2f (upFour.a0.extractLsb' 0 32).toNat) (u2f upFour.a1.toNat)) upFour.a1.toNat upFour.a2.toNat
      upFour.a3.toNat { fir := upFour.rc, out := upFour.outMem, draws := upFour.draws }
      (upFour.a0.extractLsb' 0 32).toNat :=
  ⟨_, by decide +kernel, by decide +kernel, by decide +kernel, by decide, by decide, rfl⟩

/-- K = 0 with M = 4, and M = 0 with K = 1 (95 V-U4, V-U4b). -/
theorem witness_UprocOfNothing :
    upFour.cfgU.ready = true ∧ upFour.a2.toNat + (0#32).toNat ≤ upFour.params.midSize.val ∧
    upFour.a3.toNat + (upFour.a0.extractLsb' 0 32).toNat ≤ upFour.params.outSize.val ∧
    upFour.a3.toNat + ((0#64).extractLsb' 0 32).toNat ≤ upFour.params.outSize.val ∧ (0#64).extractLsb' 0 32 = 0#32 := by
  decide +kernel

/-- Unconfigured; one element too many in MID; one too many in OUT. -/
theorem witness_UprocChecks :
    start.cfgU.ready = false ∧ upFour.cfgU.ready = true ∧
    upFour.params.midSize.val < (1024#32).toNat + upFour.a1.toNat ∧
    upFour.params.outSize.val < (1021#32).toNat + (upFour.a0.extractLsb' 0 32).toNat := by decide +kernel

theorem witness_UprocFilters : ∃ (t : State) (v : Nat → F32), upFour.outMem.wf = true ∧ exec .uproc upFour = .next t ∧
    t.err = .ok ∧ upFour.a1 ≠ 0#32 ∧
    ∀ i, v i = interp (upFour.draws + 135 * i) upFour.midMem i
      (div64 0 (u2f (upFour.a0.extractLsb' 0 32).toNat) (u2f upFour.a1.toNat)) upFour.a1.toNat upFour.a2.toNat :=
  ⟨run .uproc upFour, _, rfl, rfl, by decide +kernel, by decide, fun _ => rfl⟩

/-- Another content of MID that agrees on MID[0]. -/
theorem witness_UprocReads : ∃ t,
    (∀ a, upFour.a2.toNat ≤ a → a < upFour.a2.toNat + upFour.a1.toNat →
      Mem.read [(0, 0x42800000#32), (1, 0x43000000#32)] a = upFour.midMem.read a) ∧ exec .uproc upFour = .next t := by
  refine ⟨run .uproc upFour, fun a _ h => ?_, rfl⟩
  have h0 : a = 0 := by
    have : upFour.a2.toNat + upFour.a1.toNat = 1 := rfl
    omega
  subst h0
  rfl

/-- Position 3.0 of a block of 4: index 3, the last; position 2.0: index 2, the last with a successor. -/
theorem witness_LastSampleIsHeld :
    (floor64 (div64 0 (u2f 3) 0x3FF0000000000000#64) = some 3 ∧ 4 ≤ 3 + 1) ∧
    (floor64 (div64 0 (u2f 2) 0x3FF0000000000000#64) = some 2 ∧ 2 + 1 < 4) := by decide +kernel

theorem witness_Positions :
    1 ≤ 2 ^ 32 - 1 ∧ 2 ^ 32 - 1 < 2 ^ 32 ∧ 1 ≤ 1 ∧ 1 < 2 ^ 32 ∧ 2 ^ 32 - 2 < 2 ^ 32 - 1 := by decide

/-- 44100.0 is accepted, the greatest binary64 too; -0.0 and a rate whose ratio is infinite are not. -/
theorem witness_Init :
    (finite64 0x7FEFFFFFFFFFFFFF#64 = true ∧ lt64 zero64 0x7FEFFFFFFFFFFFFF#64 = true ∧
      div64 0 0x40CF400000000000#64 0x7FEFFFFFFFFFFFFF#64 ≠ posInf64) ∧
    lt64 zero64 0x8000000000000000#64 = false ∧ div64 0 0x40CF400000000000#64 0x0000000000000001#64 = posInf64 := by
  decide +kernel

theorem witness_RatioIsNormal : finite64 0x7FEFFFFFFFFFFFFF#64 = true ∧ lt64 zero64 0x7FEFFFFFFFFFFFFF#64 = true := by
  decide +kernel

theorem witness_AccessorsReturn : ({ start with cfgU := cdRate } : State).cfg .up = cdRate ∧ cdRate.ready = true := ⟨rfl, rfl⟩

theorem witness_UnconfiguredCommands :
    (start.cfg (unitOf .dproc)).ready = false ∧ (start.cfg (unitOf .uproc)).ready = false ∧
    (start.cfg (unitOf (.getratio .up))).ready = false := ⟨rfl, rfl, rfl⟩

theorem witness_AccessorsTargetRate :
    ({ start with cfgU := cdRate } : State).ratesConsistent = true ∧ (({ start with cfgU := cdRate } : State).cfg .up).ready = true := by
  decide +kernel

/-- For the statements over every command: an accepted one of each unit, and a rejected one. -/
theorem witness_CommandFrames :
    (∃ t, exec .dproc downTwo = .next t ∧ unitOf .dproc = .down) ∧ (∃ t, exec .uproc upFour = .next t ∧ unitOf .uproc = .up) ∧
    (∃ t, exec .expsz start = .next t ∧ t.err ≠ .ok) :=
  ⟨⟨_, rfl, rfl⟩, ⟨_, rfl, rfl⟩, ⟨run .expsz start, rfl, by decide +kernel⟩⟩

/-- Other contents of MID and of OUT, canonical, for a DPROC and a UPROC that write them. -/
theorem witness_BuffersReached :
    (∃ t, exec .dproc downTwo = .next t ∧ downTwo.midMem.wf = true ∧ Mem.wf [(7, 0x42800000#32)] = true ∧ t.err = .ok) ∧
    (∃ t, exec .uproc upFour = .next t ∧ upFour.outMem.wf = true ∧ Mem.wf [(7, 0x42800000#32)] = true ∧ t.err = .ok) :=
  ⟨⟨_, exec_eq_run _ _, by decide +kernel⟩, ⟨_, exec_eq_run _ _, by decide +kernel⟩⟩

theorem witness_OperandsAreKept :
    (0xFFFFFFFF00000002#64).extractLsb' 0 32 = downTwo.a0.extractLsb' 0 32 ∧ ∀ u, Instr.dproc ≠ .init u :=
  ⟨by decide, fun _ h => Instr.noConfusion h⟩

theorem witness_ReadyOnlyByInit :
    (∃ t, exec (.init .down) { start with a0 := 0x40E5888000000000#64 } = .next t ∧ (start.cfg .down).ready = false ∧
      (t.cfg .down).ready = true) ∧
    (∃ t, step ({ start with a0 := 0x40E5888000000000#64 }.withFetchWord 32 3) = .next t ∧
      ({ start with a0 := 0x40E5888000000000#64 }.withFetchWord 32 3).moves.head? =
        some (.writeReg 4 (zext64 (encode (.init .down)))) ∧ t.err = .ok ∧ (t.cfg .down).ready = true) ∧
    (∃ t, notResetNext (downTwo.withFetchWord 32 5) = true ∧ step (downTwo.withFetchWord 32 5) = .next t ∧
      ((downTwo.withFetchWord 32 5).cfg .down).ready = true) ∧
    (∃ t, notResetNext { downTwo with moves := [.hardwareReset] } = false ∧
      step { downTwo with moves := [.hardwareReset] } = .next t) :=
  ⟨⟨_, exec_eq_run _ _, rfl, by decide +kernel⟩,
    ⟨run (.init .down) { start with a0 := 0x40E5888000000000#64 }, exec_eq_run (.init .down) _, by decide +kernel⟩,
    ⟨stepped (downTwo.withFetchWord 32 5), by decide +kernel, rfl, rfl⟩,
    ⟨_, rfl, rfl⟩⟩

/-- A state that meets the invariant and steps through a DPROC; the step also serves the statements about STICKY and the
parameters. -/
theorem witness_StepKeeps : ∃ t, (downTwo.withFetchWord 32 5).ratesConsistent = true ∧
    (downTwo.withFetchWord 32 5).phaseOk = true ∧ (downTwo.withFetchWord 32 5).buffersWf = true ∧
    notResetNext (downTwo.withFetchWord 32 5) = true ∧ step (downTwo.withFetchWord 32 5) = .next t :=
  ⟨stepped (downTwo.withFetchWord 32 5), by decide +kernel, by decide +kernel, by decide +kernel, by decide +kernel, rfl⟩

/-- A tie: the number 2^24 + 1 lies halfway between two binary32 magnitudes. -/
theorem witness_Rounding :
    0 < 1 ∧ ((magValue b32.prec (roundMag b32.prec (2 ^ 24 + 1) 1) : Int) * 1 - (2 ^ 24 + 1)).natAbs =
      ((magValue b32.prec (roundMag b32.prec (2 ^ 24 + 1) 1 + 1) : Int) * 1 - (2 ^ 24 + 1)).natAbs := by decide +kernel

/-- 00 R13: 1.0 + 2^-24 is a tie between 1.0 and its successor, and goes to the even 1.0. -/
theorem test_add32_tie : add32 0 0x3F800000#32 0x33800000#32 = 0x3F800000#32 := by decide +kernel

/-- 00 R13: half a unit above the largest finite number is the least sum that rounds to infinity. -/
theorem test_add32_overflow :
    add32 0 0x7F7FFFFF#32 0x73000000#32 = 0x7F800000#32 ∧ add32 0 0x7F7FFFFF#32 0x72FFFFFF#32 = 0x7F7FFFFF#32 := by
  decide +kernel

/-- Finite operands with a sum at the overflow threshold and one below it, in both formats, and a nonzero divisor. -/
theorem witness_CorrectRounding :
    finite32 0x7F7FFFFF#32 = true ∧ finite32 0x73000000#32 = true ∧
    (int32 0x7F7FFFFF#32 + int32 0x73000000#32).natAbs = overflow32 ∧
    (int32 0x3F800000#32 + int32 0x33800000#32).natAbs < overflow32 * 1 ∧
    finite64 0x7FEFFFFFFFFFFFFF#64 = true ∧ finite64 0x7C90000000000000#64 = true ∧
    (int64 0x7FEFFFFFFFFFFFFF#64 + int64 0x7C90000000000000#64).natAbs = overflow64 ∧
    (int64 one64 * int64 one64).natAbs < overflow64 * 2 ^ 1074 ∧ int64 0x4008000000000000#64 ≠ 0 := by decide +kernel

theorem witness_Widening : finite32 0x00000001#32 = true ∧ finite64 0x7FEFFFFFFFFFFFFF#64 = true := by decide +kernel

theorem witness_IntegerConversions : finite64 zero64 = true ∧ ge64 zero64 zero64 = true ∧ 2 ^ 53 - 1 < 2 ^ 53 := by
  decide +kernel

/-- NaN operands of every primitive, quiet or not, and a NaN from infinities. -/
theorem witness_Nans :
    val32 0x7F800001#32 = .nan ∧ val64 0x7FF0000000000001#64 = .nan ∧
    addVal (val32 0x7F800000#32) (val32 0xFF800000#32) = .nan := by decide +kernel

/-- Below 0, above 1, at both ends, and a NaN. -/
theorem witness_Clamp :
    lt64 0x8000000000000001#64 zero64 = true ∧ lt64 one64 0x3FF0000000000001#64 = true ∧
    (lt64 zero64 zero64 = false ∧ lt64 one64 zero64 = false) ∧ (lt64 one64 zero64 = false ∧ lt64 one64 one64 = false) ∧
    val64 0x7FF8000000000000#64 = .nan := by decide +kernel

end Sys2Proof.Tests
end

section
/-! PROOFS. The order of binary64 values and `clamp01` (00 §5, R14). -/

namespace Sys2Proof.Machine

/-! ### The order `<` of binary64 -/

@[simp] theorem ltVal_nan_left (a : FVal) : ltVal .nan a = false := rfl

@[simp] theorem ltVal_nan_right (a : FVal) : ltVal a .nan = false := by
  cases a <;> rfl

/-- Nothing lies below -infinity. -/
@[simp] theorem ltVal_negInf_right (a : FVal) : ltVal a (.inf true) = false := by
  cases a <;> simp [ltVal]

/-- Nothing lies above +infinity. -/
@[simp] theorem ltVal_posInf_left (a : FVal) : ltVal (.inf false) a = false := by
  cases a <;> simp [ltVal]

/-- A NaN or an infinity has no value on one of its sides, so the middle value is finite. -/
theorem ltVal_trans {a b c : FVal} (hab : ltVal a b = true) (hbc : ltVal b c = true) : ltVal a c = true := by
  cases b with
  | nan => simp at hab
  | inf s =>
    cases s with
    | false => simp at hbc
    | true => simp at hab
  | fin s m =>
    cases a with
    | nan => simp at hab
    | inf sa => cases c <;> simp_all [ltVal]
    | fin sa ma =>
      cases c with
      | nan => simp at hbc
      | inf sc => exact hbc
      | fin sc mc =>
        simp only [ltVal, decide_eq_true_eq] at hab hbc ⊢
        exact hab.trans hbc

theorem lt64_trans {a b c : F64} (hab : lt64 a b = true) (hbc : lt64 b c = true) : lt64 a c = true :=
  ltVal_trans hab hbc

theorem lt64_nan_left {a : F64} (ha : val64 a = .nan) (b : F64) : lt64 a b = false := by
  simp [lt64, ha]

theorem lt64_nan_right {b : F64} (hb : val64 b = .nan) (a : F64) : lt64 a b = false := by
  simp [lt64, hb]

theorem not_lt64_one_zero : lt64 one64 zero64 = false := by decide +kernel

/-- The two guards of `clamp01` exclude each other. -/
theorem not_lt64_zero_of_one_lt64 {d : F64} (h : lt64 one64 d = true) : lt64 d zero64 = false := by
  by_contra hd
  have hone : lt64 one64 zero64 = true := lt64_trans h (by simpa using hd)
  simp [not_lt64_one_zero] at hone

/-! ### The three branches of `clamp01` -/

theorem clamp01_of_lt_zero {d : F64} (h : lt64 d zero64 = true) : clamp01 d = zero64 := if_pos h

theorem clamp01_of_one_lt {d : F64} (h : lt64 one64 d = true) : clamp01 d = one64 := by
  simp [clamp01, not_lt64_zero_of_one_lt64 h, h]

theorem clamp01_of_not_lt {d : F64} (h0 : lt64 d zero64 = false) (h1 : lt64 one64 d = false) : clamp01 d = d := by
  simp [clamp01, h0, h1]

theorem clamp01_nan {d : F64} (h : val64 d = .nan) : clamp01 d = d :=
  clamp01_of_not_lt (lt64_nan_left h zero64) (lt64_nan_right h one64)

/-- Settles O59, a clause for each branch of `clamp01`: the second needs that no number above 1.0 is below 0.0. -/
theorem clampToUnitInterval : Obligations.ClampToUnitInterval := by
  unfold Obligations.ClampToUnitInterval
  exact fun _ => ⟨clamp01_of_lt_zero, clamp01_of_one_lt, clamp01_of_not_lt, clamp01_nan⟩

end Sys2Proof.Machine
end

section
/-! PROOFS. What the delay line of a FIR stage holds (10 R33). -/

namespace Sys2Proof.Machine

/-! ### The slots counted back from the latest sample

The slot of `i` steps before the latest is `wi - 1 - i`. A FirStep puts its sample into slot 0 of this count and moves
every other slot one further back. -/

/-- The write index has just passed the sample of the latest FirStep. -/
theorem firNext_get_latest (f : FirState) (x : F32) :
    (firNext f x).dl.get ((firNext f x).wi - 1 - 0) = x := by
  simpa using f.insert_get_same x

/-- A FirStep moves the samples it keeps one step back. -/
theorem firNext_get_older (f : FirState) (x : F32) {i j : Fin 64} (hij : i.val = j.val + 1) :
    (firNext f x).dl.get ((firNext f x).wi - 1 - i) = f.dl.get (f.wi - 1 - j) := by
  have hslot : f.wi + 1 - 1 - i = f.wi - 1 - j := by omega
  have hne : f.wi - 1 - j ≠ f.wi := by omega
  rw [firNext_wi, firNext_dl, hslot, f.insert_get_ne x hne]

/-- 10 R33 in one form: a cleared stage's slots, counted back from the latest, list the samples in reverse, then
+0.0. -/
theorem foldl_firNext_clear_get (xs : List F32) (i : Fin 64) :
    (xs.foldl firNext FirState.clear).dl.get ((xs.foldl firNext FirState.clear).wi - 1 - i) =
      xs.reverse.getD i.val 0x00000000#32 := by
  induction xs using List.reverseRecOn generalizing i with
  | nil => simp
  | append_singleton xs x ih =>
    rw [List.foldl_concat, List.reverse_concat]
    by_cases hi : i = 0
    · subst hi
      exact firNext_get_latest _ x
    · obtain ⟨j, hij⟩ : ∃ j : Fin 64, i.val = j.val + 1 := ⟨i - 1, by omega⟩
      rw [firNext_get_older _ x hij, ih j, hij, List.getD_cons_succ]

/-- The stage after FirReset and a list of samples, in the same form. -/
theorem State.firSteps_firReset_get (s : State) (k : Stage) (xs : List F32) (i : Fin 64) :
    (((s.firReset k).firSteps k xs).fir k).dl.get ((((s.firReset k).firSteps k xs).fir k).wi - 1 - i) =
      xs.reverse.getD i.val 0x00000000#32 := by
  rw [State.fir_firSteps, State.fir_firReset, foldl_firNext_clear_get]

/-- Settles O14: the first clause reads the reversed list inside its length, the second one beyond it. -/
theorem lineHoldsTheLastSamples : Obligations.LineHoldsTheLastSamples := by
  unfold Obligations.LineHoldsTheLastSamples
  intro s k xs
  constructor
  · intro i hi
    have hmod : (Fin.ofNat 64 i).val = i := Nat.mod_eq_of_lt (by omega)
    rw [s.firSteps_firReset_get k xs, hmod, List.getD_reverse i (by omega)]
  · intro j hj
    generalize hwi : (((s.firReset k).firSteps k xs).fir k).wi = wi at hj
    obtain ⟨i, rfl⟩ : ∃ i : Fin 64, j = wi - 1 - i := ⟨wi - 1 - j, by omega⟩
    have hlong : xs.length ≤ i.val := by
      by_contra hlt
      exact hj i.val (by omega) (by rw [Fin.ofNat_val_eq_self])
    rw [← hwi, s.firSteps_firReset_get k xs, List.getD_eq_default _ _ (by simpa using hlong)]

end Sys2Proof.Machine
end

section
/-! PROOFS. The decoder and the encoder are inverse to each other (30 R80, R83). -/

namespace Sys2Proof

/-- A command word is its three fields (30 R80). -/
theorem word_eq_fields (w : Word) : rsvField w ++ BitVec.ofBool (unitField w) ++ opField w = w := by
  have hunit : BitVec.ofBool (unitField w) = w.extractLsb' 8 1 := by
    ext b hb
    simp [unitField, show b = 0 by omega]
  rw [hunit, rsvField, opField, BitVec.extractLsb'_append_extractLsb'_eq_extractLsb' (by rfl),
    BitVec.extractLsb'_append_extractLsb'_eq_extractLsb' (by rfl), BitVec.extractLsb'_eq_self]

/-- A row of the opcode table that answers a command is the row of that command's opcode and unit (30 R83). -/
theorem decodeFields_ok {op : Nat} {u : Bool} {i : Instr} (h : decodeFields op u = .ok i) :
    op = (opcodeOf i).toNat ∧ u = bitOfUnit (unitOf i) := by
  -- the units' words differ in which rows are legal, so both values of U are read in every row
  unfold decodeFields at h
  split at h <;> cases u <;> cases h <;> exact ⟨rfl, rfl⟩

theorem eq_encode_of_decode {w : Word} {i : Instr} (h : decode w = .ok i) : w = encode i := by
  unfold decode at h
  split at h
  · cases h
  · rename_i hrsv
    obtain ⟨hop, hunit⟩ := decodeFields_ok h
    rw [← word_eq_fields w, not_not.mp hrsv, BitVec.eq_of_toNat_eq hop, hunit]
    rfl

/-- The decoder reads back the command of every command's word. -/
@[simp] theorem decode_encode (i : Instr) : decode (encode i) = .ok i := by
  cases i with
  | freset u => cases u <;> rfl
  | fsamp u => cases u <;> rfl
  | init u => cases u <;> rfl
  | preset u => cases u <;> rfl
  | dproc => rfl
  | expsz => rfl
  | uproc => rfl
  | getsrc u => cases u <;> rfl
  | gettgt u => cases u <;> rfl
  | getratio u => cases u <;> rfl

theorem decode_eq_ok_iff {w : Word} {i : Instr} : decode w = .ok i ↔ w = encode i := by
  constructor
  · exact eq_encode_of_decode
  · rintro rfl
    exact decode_encode i

end Sys2Proof
end

section
/-! PROOFS. When a pipeline becomes Ready (10 R39). -/

namespace Sys2Proof.Machine

/-! ### What a command does to a configuration record -/

@[simp] theorem State.cfg_reject (s : State) (c : Err) (u : PipeUnit) : (s.reject c).cfg u = s.cfg u := by
  cases u <;> rfl

@[simp] theorem State.cfg_accept (s : State) (u : PipeUnit) : s.accept.cfg u = s.cfg u := by
  cases u <;> rfl

@[simp] theorem State.cfg_acceptWith (s : State) (r : BitVec 64) (u : PipeUnit) :
    (s.acceptWith r).cfg u = s.cfg u := by
  cases u <;> rfl

@[simp] theorem State.cfg_takeMove (rest : List HostMove) (s : State) (u : PipeUnit) :
    (takeMove rest s).cfg u = s.cfg u := by
  cases u <;> rfl

@[simp] theorem State.cfg_firReset (s : State) (k : Stage) (u : PipeUnit) : (s.firReset k).cfg u = s.cfg u := by
  cases u <;> simp

@[simp] theorem State.cfg_firStep (s : State) (k : Stage) (x : F32) (u : PipeUnit) :
    (s.firStep k x).cfg u = s.cfg u := by
  cases u <;> simp

@[simp] theorem State.cfg_pipeReset (s : State) (v u : PipeUnit) : (s.pipeReset v).cfg u = s.cfg u := by
  cases u <;> simp

@[simp] theorem State.cfg_setStream (s : State) (r : ResampleRun) (u : PipeUnit) :
    (s.setStream r).cfg u = s.cfg u := by
  cases u <;> rfl

@[simp] theorem State.cfg_setRecon (s : State) (r : ReconRun) (u : PipeUnit) : (s.setRecon r).cfg u = s.cfg u := by
  cases u <;> rfl

@[simp] theorem State.cfg_setMem (s : State) (sp : Space) (m : Mem) (u : PipeUnit) :
    (s.setMem sp m).cfg u = s.cfg u := by
  cases u <;> simp

@[simp] theorem State.cfg_getField (s : State) (v u : PipeUnit) (field : PipeConfig → F64) :
    (s.getField v field).cfg u = s.cfg u := by
  rcases s.getField_cases v field with ⟨-, h⟩ | ⟨-, h⟩ <;> simp [h]

/-- Every command but INIT keeps both configuration records. -/
theorem exec_cfg_of_ne_init {i : Instr} {s t : State} (hi : ∀ v, i ≠ .init v) (h : exec i s = .next t)
    (u : PipeUnit) : t.cfg u = s.cfg u := by
  cases i with
  | init v => exact absurd rfl (hi v)
  | freset v => injection h with h; simp [← h]
  | fsamp v => injection h with h; simp [← h]
  | preset v => injection h with h; simp [← h]
  | getsrc v => injection h with h; simp [← h]
  | gettgt v => injection h with h; simp [← h]
  | getratio v => injection h with h; simp [← h]
  | expsz =>
    obtain ⟨-, rfl⟩ | ⟨-, -, rfl⟩ | ⟨e, -, -, rfl⟩ := execExpsz_cases h <;> simp
  | dproc =>
    obtain ⟨-, rfl⟩ | ⟨-, -, rfl⟩ | ⟨-, -, -, -, rfl⟩ | ⟨-, -, -, -, rfl⟩ := execDproc_cases h <;> simp
  | uproc =>
    obtain ⟨-, rfl⟩ | ⟨-, -, rfl⟩ | ⟨-, -, -, -, rfl⟩ | ⟨-, -, -, -, rfl⟩ := execUproc_cases h <;> simp

/-- After an INIT a unit is Ready when it was, or when it is the unit of that INIT and the INIT was accepted. -/
theorem execInit_ready_iff {v : PipeUnit} {s t : State} (h : execInit v s = .next t) (u : PipeUnit) :
    (t.cfg u).ready = true ↔ (s.cfg u).ready = true ∨ v = u ∧ t.err = .ok := by
  obtain ⟨-, rfl⟩ | ⟨-, rfl⟩ := execInit_cases h
  · by_cases hv : v = u
    · subst hv
      simp [initConfig]
    · simp [hv, State.cfg_setCfg_ne s v u _ (Ne.symm hv)]
  · simp

/-- After a command a unit is Ready when it was, or when the command is its INIT and was accepted (10 R39). -/
theorem exec_ready_iff {i : Instr} {s t : State} (h : exec i s = .next t) (u : PipeUnit) :
    (t.cfg u).ready = true ↔ (s.cfg u).ready = true ∨ i = .init u ∧ t.err = .ok := by
  by_cases hi : ∃ v, i = .init v
  · obtain ⟨v, rfl⟩ := hi
    rw [Instr.init.injEq]
    exact execInit_ready_iff h u
  · push Not at hi
    simp [exec_cfg_of_ne_init hi h u, hi u]

/-! ### What a step does to a configuration record -/

/-- The value of the move that issues a word fits CMD, so the move issues exactly that word. -/
@[simp] theorem hostMove_issueMove (w : Word) (s : State) : hostMove (issueMove w) s = issue w s := by
  have hfits : (zext64 w).toNat < 2 ^ 32 := by
    simp only [zext64, BitVec.toNat_setWidth]
    omega
  have hword : (zext64 w).setWidth 32 = w := by simp [zext64]
  simp only [hostMove, issueMove, hostWriteReg, regOfNumber, regWidth, if_pos hfits, writeRegister, hword]

theorem issueMove_inj {w w' : Word} : issueMove w = issueMove w' ↔ w = w' := by
  constructor
  · intro h
    have hz : zext64 w = zext64 w' := by simpa [issueMove] using h
    simpa [zext64] using congrArg (BitVec.setWidth 32) hz
  · exact congrArg issueMove

/-- CMD is the register of number 4 only (10 R44). -/
theorem eq_four_of_regOfNumber {n : Nat} (h : regOfNumber n = some .cmd) : n = 4 := by
  unfold regOfNumber at h
  split at h <;> cases h
  rfl

theorem writeRegister_cfg_of_ne_cmd {r : Reg} {v : BitVec 64} {s t : State} (hr : r ≠ .cmd)
    (h : writeRegister r v s = .next t) (u : PipeUnit) : t.cfg u = s.cfg u := by
  cases r with
  | cmd => exact absurd rfl hr
  | a0 => cases h; cases u <;> rfl
  | a1 => cases h; cases u <;> rfl
  | a2 => cases h; cases u <;> rfl
  | a3 => cases h; cases u <;> rfl
  | status => cases h; rfl
  | r0 => cases h; rfl

/-- A register write that ends in a next state is the issue of a word, or keeps both configuration records. -/
theorem hostWriteReg_cfg_of_ne {n : Nat} {v : BitVec 64} {s t : State} (hm : ∀ w, .writeReg n v ≠ issueMove w)
    (h : hostWriteReg n v s = .next t) (u : PipeUnit) : t.cfg u = s.cfg u := by
  unfold hostWriteReg at h
  split at h
  · cases h
  · rename_i r hreg
    split at h
    · rename_i hfits
      refine writeRegister_cfg_of_ne_cmd (fun hcmd => ?_) h u
      subst hcmd
      have hv : zext64 (v.setWidth 32) = v := by
        apply BitVec.eq_of_toNat_eq
        simp only [regWidth] at hfits
        simp only [zext64, BitVec.toNat_setWidth]
        omega
      exact hm (v.setWidth 32) (by rw [issueMove, hv, eq_four_of_regOfNumber hreg])
    · cases h

/-- Every host move but the issue of a word and a hardware reset keeps both configuration records (70 R234). -/
theorem hostMove_cfg_of_ne {m : HostMove} {s t : State} (hm : ∀ w, m ≠ issueMove w) (hr : m ≠ .hardwareReset)
    (h : hostMove m s = .next t) (u : PipeUnit) : t.cfg u = s.cfg u := by
  cases m with
  | writeReg n v => exact hostWriteReg_cfg_of_ne hm h u
  | readReg n =>
    simp only [hostMove, hostReadReg] at h
    split at h
    · cases h
    · split at h
      · cases h
      · cases h
        cases u <;> rfl
  | writeElem sp idx w =>
    simp only [hostMove, hostWriteElem] at h
    split at h
    · cases h
      exact s.cfg_setMem sp _ u
    · cases h
  | readElem sp idx =>
    simp only [hostMove, hostReadElem] at h
    split at h
    · cases h
      cases u <;> rfl
    · cases h
  | hardwareReset => exact absurd rfl hr

/-- After a word is issued a unit is Ready when it was, or when the word is that of its INIT and was accepted. -/
theorem issue_ready_iff {w : Word} {s t : State} (h : issue w s = .next t) (u : PipeUnit) :
    (t.cfg u).ready = true ↔ (s.cfg u).ready = true ∨ w = encode (.init u) ∧ t.err = .ok := by
  rcases issue_cases w s with ⟨i, hi, hexec⟩ | ⟨e, he, hrej⟩
  · have hword : w = encode (.init u) ↔ i = .init u := by
      rw [← decode_eq_ok_iff, hi, Except.ok.injEq]
    rw [hword]
    exact exec_ready_iff (hexec ▸ h) u
  · cases hrej.symm.trans h
    simp

/-- After a step that is not a hardware reset a unit is Ready when it was, or when the host issued its INIT and that was
accepted (10 R39). -/
theorem step_ready_iff {s t : State} (hn : notResetNext s = true) (h : step s = .next t) (u : PipeUnit) :
    (t.cfg u).ready = true ↔
      (s.cfg u).ready = true ∨ s.moves.head? = some (issueMove (encode (.init u))) ∧ t.err = .ok := by
  rcases step_cases s with ⟨hnil, hstep⟩ | ⟨m, rest, hcons, hstep⟩
  · cases hstep.symm.trans h
    simp [hnil]
  · rw [hstep] at h
    rw [hcons, List.head?_cons, Option.some.injEq]
    by_cases hm : ∃ w, m = issueMove w
    · obtain ⟨w, rfl⟩ := hm
      rw [hostMove_issueMove] at h
      simpa [issueMove_inj] using issue_ready_iff h u
    · push Not at hm
      have hr : m ≠ .hardwareReset := by simpa [notResetNext, hcons] using hn
      simp [hostMove_cfg_of_ne hm hr h u, hm]

/-! ### Hardware reset (70 R220) -/

@[simp] theorem State.cfg_hardwareReset (s : State) (u : PipeUnit) : s.hardwareReset.cfg u = .unconfigured := by
  cases u <;> rfl

/-- A step whose move is a hardware reset is that reset. -/
theorem step_of_reset_next {s t : State} (hn : notResetNext s = false) (h : step s = .next t) :
    ∃ rest, s.moves = .hardwareReset :: rest ∧ t = (takeMove rest s).hardwareReset := by
  rcases step_cases s with ⟨hnil, -⟩ | ⟨m, rest, hcons, hstep⟩
  · simp [notResetNext, hnil] at hn
  · obtain rfl : m = .hardwareReset := by simpa [notResetNext, hcons] using hn
    cases hstep.symm.trans h
    exact ⟨rest, hcons, rfl⟩

theorem step_ready_of_reset_next {s t : State} (hn : notResetNext s = false) (h : step s = .next t) (u : PipeUnit) :
    (t.cfg u).ready = false := by
  obtain ⟨rest, -, rfl⟩ := step_of_reset_next hn h
  rw [State.cfg_hardwareReset, PipeConfig.unconfigured]

/-- An Unconfigured unit becomes Ready in a step exactly by its accepted INIT; a hardware reset is no issue of
a word. -/
theorem step_ready_iff_of_not_ready {s t : State} {u : PipeUnit} (h : step s = .next t) (hs : (s.cfg u).ready = false) :
    (t.cfg u).ready = true ↔ s.moves.head? = some (issueMove (encode (.init u))) ∧ t.err = .ok := by
  cases hn : notResetNext s with
  | true => simp [step_ready_iff hn h u, hs]
  | false =>
    obtain ⟨rest, hmoves, -⟩ := step_of_reset_next hn h
    simp [step_ready_of_reset_next hn h u, hmoves, issueMove]

/-- Settles O49, from what one command and one step do to a unit's readiness. -/
theorem readyOnlyByInit : Obligations.ReadyOnlyByInit := by
  unfold Obligations.ReadyOnlyByInit
  refine ⟨fun i s t u h hs => ?_, fun s t u => step_ready_iff_of_not_ready, fun s u => ?_,
    fun s t u hn h hs => (step_ready_iff hn h u).mpr (.inl hs), fun s t u hn h => step_ready_of_reset_next hn h u⟩
  · simp [exec_ready_iff h u, hs]
  · rw [State.cfg_hardwareReset, PipeConfig.unconfigured]

end Sys2Proof.Machine
end

section
/-! PROOFS. The match and mask columns of the opcode table (30 R83). -/

namespace Sys2Proof

/-! ### The mask of a two-unit row -/

theorem bitVec_append_eq_append_iff {m n : Nat} {x x' : BitVec m} {y y' : BitVec n} :
    x ++ y = x' ++ y' ↔ x = x' ∧ y = y' := by
  constructor
  · intro h
    have hx := congrArg (BitVec.extractLsb' n m) h
    have hy := congrArg (BitVec.extractLsb' 0 n) h
    rw [BitVec.extractLsb'_append_eq_left, BitVec.extractLsb'_append_eq_left] at hx
    rw [BitVec.extractLsb'_append_eq_right, BitVec.extractLsb'_append_eq_right] at hy
    exact ⟨hx, hy⟩
  · rintro ⟨rfl, rfl⟩
    rfl

/-- The mask of a two-unit row clears U and keeps RSV and OP (30 R83). -/
theorem and_unitMask (w : Word) : w &&& 0xFFFFFEFF#32 = rsvField w ++ 0#1 ++ opField w := by
  have hmask : 0xFFFFFEFF#32 = BitVec.allOnes 23 ++ 0#1 ++ BitVec.allOnes 8 := by decide
  calc w &&& 0xFFFFFEFF#32
      = (rsvField w ++ BitVec.ofBool (unitField w) ++ opField w) &&&
          (BitVec.allOnes 23 ++ 0#1 ++ BitVec.allOnes 8) := by rw [word_eq_fields, hmask]
    _ = rsvField w ++ 0#1 ++ opField w := by
        rw [BitVec.and_append, BitVec.and_append, BitVec.and_allOnes, BitVec.and_zero, BitVec.and_allOnes]

theorem fields_eq_fields_iff {r r' : BitVec 23} {u u' : BitVec 1} {op op' : BitVec 8} :
    (r ++ u ++ op : Word) = r' ++ u' ++ op' ↔ r = r' ∧ u = u' ∧ op = op' := by
  calc (r ++ u ++ op : Word) = r' ++ u' ++ op'
      ↔ r ++ u = r' ++ u' ∧ op = op' := bitVec_append_eq_append_iff
    _ ↔ r = r' ∧ u = u' ∧ op = op' := by rw [bitVec_append_eq_append_iff, and_assoc]

theorem and_unitMask_eq_iff (w : Word) (op : BitVec 8) :
    w &&& 0xFFFFFEFF#32 = 0#23 ++ 0#1 ++ op ↔ w = 0#23 ++ BitVec.ofBool (unitField w) ++ op := by
  calc w &&& 0xFFFFFEFF#32 = 0#23 ++ 0#1 ++ op
      ↔ rsvField w = 0#23 ∧ opField w = op := by rw [and_unitMask, fields_eq_fields_iff]; simp
    _ ↔ rsvField w ++ BitVec.ofBool (unitField w) ++ opField w = 0#23 ++ BitVec.ofBool (unitField w) ++ op := by
        rw [fields_eq_fields_iff]; simp
    _ ↔ w = 0#23 ++ BitVec.ofBool (unitField w) ++ op := by rw [word_eq_fields]

@[simp] theorem bitOfUnit_unitOfBit (b : Bool) : bitOfUnit (unitOfBit b) = b := by
  cases b <;> rfl

/-- A two-unit row: the masked word is the row's opcode exactly when the word decodes to the row's command with the unit
of bit 8 (30 R83). -/
theorem and_unitMask_eq_iff_decode (w : Word) (op : BitVec 8) (row : PipeUnit → Instr)
    (hop : ∀ u, opcodeOf (row u) = op) (hunit : ∀ u, unitOf (row u) = u) :
    w &&& 0xFFFFFEFF#32 = 0#23 ++ 0#1 ++ op ↔ decode w = .ok (row (unitOfBit (unitField w))) := by
  rw [and_unitMask_eq_iff, decode_eq_ok_iff, encode, hop, hunit, bitOfUnit_unitOfBit]

/-- A one-unit row: its mask keeps the whole word (30 R83). -/
theorem and_fullMask_eq_iff_decode (w : Word) (i : Instr) :
    w &&& 0xFFFFFFFF#32 = encode i ↔ decode w = .ok i := by
  have hfull : 0xFFFFFFFF#32 = BitVec.allOnes 32 := by decide
  rw [hfull, BitVec.and_allOnes, decode_eq_ok_iff]

/-! ### The list of legal words -/

/-- The seventeen commands, in the order in which 30 R83 lists their words. -/
def allInstrs : List Instr :=
  [.freset .down, .freset .up, .fsamp .down, .fsamp .up, .init .down, .init .up, .preset .down, .preset .up, .dproc,
    .expsz, .uproc, .getsrc .down, .getsrc .up, .gettgt .down, .gettgt .up, .getratio .down, .getratio .up]

@[simp] theorem mem_allInstrs (i : Instr) : i ∈ allInstrs := by
  cases i with
  | freset u => cases u <;> decide
  | fsamp u => cases u <;> decide
  | init u => cases u <;> decide
  | preset u => cases u <;> decide
  | dproc => decide
  | expsz => decide
  | uproc => decide
  | getsrc u => cases u <;> decide
  | gettgt u => cases u <;> decide
  | getratio u => cases u <;> decide

/-- A word is legal exactly when it is the word of one of the seventeen commands. -/
theorem exists_decode_eq_ok_iff_mem (w : Word) : (∃ i, decode w = .ok i) ↔ w ∈ allInstrs.map encode := by
  simp only [decode_eq_ok_iff, List.mem_map, mem_allInstrs, true_and, @eq_comm _ w]

/-- Settles O2, row by row: the mask of a two-unit row leaves RSV and OP, that of a one-unit row the whole word. -/
theorem matchAndMaskDecode : Obligations.MatchAndMaskDecode := by
  unfold Obligations.MatchAndMaskDecode
  intro w
  exact ⟨and_unitMask_eq_iff_decode w 0x01 .freset (fun _ => rfl) (fun _ => rfl),
    and_unitMask_eq_iff_decode w 0x02 .fsamp (fun _ => rfl) (fun _ => rfl),
    and_unitMask_eq_iff_decode w 0x03 .init (fun _ => rfl) (fun _ => rfl),
    and_unitMask_eq_iff_decode w 0x04 .preset (fun _ => rfl) (fun _ => rfl),
    and_fullMask_eq_iff_decode w .dproc, and_fullMask_eq_iff_decode w .expsz, and_fullMask_eq_iff_decode w .uproc,
    and_unitMask_eq_iff_decode w 0x08 .getsrc (fun _ => rfl) (fun _ => rfl),
    and_unitMask_eq_iff_decode w 0x09 .gettgt (fun _ => rfl) (fun _ => rfl),
    and_unitMask_eq_iff_decode w 0x0A .getratio (fun _ => rfl) (fun _ => rfl),
    exists_decode_eq_ok_iff_mem w⟩

end Sys2Proof
end

section
/-! PROOFS. The decoder rejects exactly the illegal words (30 R84, 60 R192). -/

namespace Sys2Proof

/-- A word is illegal exactly in one of the cases (a) to (e) of 30 R84. -/
theorem legalWord_eq_false_iff (w : Word) :
    legalWord w = false ↔
      rsvField w ≠ 0 ∨ opField w = 0x00 ∨ 0x0B ≤ (opField w).toNat ∨
        ((opField w = 0x05 ∨ opField w = 0x06) ∧ unitField w = true) ∨ (opField w = 0x07 ∧ unitField w = false) := by
  simp only [legalWord, Bool.not_eq_false', Bool.or_eq_true, Bool.and_eq_true, decide_eq_true_eq, Bool.not_eq_true',
    or_assoc]

theorem encodingFields (i : Instr) : Laws.EncodingFields.Statement i := by
  cases i with
  | freset u => exact Laws.EncodingFields.freset u
  | fsamp u => exact Laws.EncodingFields.fsamp u
  | init u => exact Laws.EncodingFields.init u
  | preset u => exact Laws.EncodingFields.preset u
  | dproc => exact Laws.EncodingFields.dproc
  | expsz => exact Laws.EncodingFields.expsz
  | uproc => exact Laws.EncodingFields.uproc
  | getsrc u => exact Laws.EncodingFields.getsrc u
  | gettgt u => exact Laws.EncodingFields.gettgt u
  | getratio u => exact Laws.EncodingFields.getratio u

theorem legalWord_of_decode_ok {w : Word} {i : Instr} (h : decode w = .ok i) : legalWord w = true := by
  obtain ⟨-, -, -, hlegal⟩ := encodingFields i
  rwa [eq_encode_of_decode h]

/-- A row of the opcode table that answers no command is one of (b) to (e) of 30 R84. -/
theorem decodeFields_error {op : Nat} {u : Bool} {e : Illegal} (h : decodeFields op u = .error e) :
    op = 0x00 ∨ 0x0B ≤ op ∨ ((op = 0x05 ∨ op = 0x06) ∧ u = true) ∨ (op = 0x07 ∧ u = false) := by
  by_cases hhigh : 0x0B ≤ op
  · exact .inr (.inl hhigh)
  · -- the row of each assigned opcode, at each unit: one that answers a command does not answer an error
    interval_cases op <;> cases u <;> cases h <;> decide

theorem legalWord_of_decode_error {w : Word} {e : Illegal} (h : decode w = .error e) : legalWord w = false := by
  rw [legalWord_eq_false_iff]
  unfold decode at h
  split at h
  · rename_i hrsv
    exact .inl hrsv
  · have hrow := decodeFields_error h
    simp only [BitVec.toNat_eq]
    exact .inr hrow

/-- Settles O4: a word decodes exactly when it is legal, and issuing one that does not decode is the rejection. -/
theorem illegalWordsAreRejected : Obligations.IllegalWordsAreRejected := by
  unfold Obligations.IllegalWordsAreRejected
  intro s w
  rcases Machine.issue_cases w s with ⟨i, hi, hexec⟩ | ⟨e, he, hreject⟩
  · have hlegal : ¬ legalWord w = false := by simp [legalWord_of_decode_ok hi]
    rw [legalWord_eq_false_iff] at hlegal
    exact (if_neg hlegal).mpr ⟨i, hi, hexec⟩
  · have hillegal := (legalWord_eq_false_iff w).mp (legalWord_of_decode_error he)
    exact (if_pos hillegal).mpr hreject

end Sys2Proof
end

section
/-! PROOFS. Products and sums of finite binary32 values with 1.0 and with zeros (00 R13, R17). -/

namespace Sys2Proof.Machine

/-! ### Finite and zero patterns as values -/

theorem magValue_eq_zero_iff (prec m : Nat) : magValue prec m = 0 ↔ m = 0 := by
  have hpos : 0 < 2 ^ (prec - 1) := Nat.two_pow_pos _
  unfold magValue
  split
  · exact Iff.rfl
  · rename_i hnormal
    have hm : m ≠ 0 := by
      rintro rfl
      exact hnormal (Nat.zero_div _)
    have hval : (2 ^ (prec - 1) + m % 2 ^ (prec - 1)) * 2 ^ (m / 2 ^ (prec - 1) - 1) ≠ 0 := by positivity
    exact iff_of_false hval hm

theorem finitePattern32_iff (x : F32) : finitePattern32 x = true ↔ x.toNat % 2 ^ 31 < b32.infMag := by
  simp only [finitePattern32, bne_iff_ne, ne_eq, BitVec.toNat_eq, BitVec.extractLsb'_toNat, BitVec.toNat_ofNat,
    Nat.shiftRight_eq_div_pow, b32]
  omega

theorem zeroPattern32_iff (x : F32) : zeroPattern32 x = true ↔ x.toNat % 2 ^ 31 = 0 := by
  simp only [zeroPattern32, beq_iff_eq, BitVec.toNat_eq, BitVec.extractLsb'_toNat, BitVec.toNat_ofNat,
    Nat.shiftRight_zero]

/-- A finite pattern holds a finite value, a zero exactly when it is a zero pattern. -/
theorem val32_of_finitePattern32 {x : F32} (h : finitePattern32 x = true) :
    ∃ s m, val32 x = .fin s m ∧ (zeroPattern32 x = true ↔ m = 0) :=
  ⟨x.msb, magValue b32.prec (x.toNat % 2 ^ 31), decodeFloat_of_lt x.msb ((finitePattern32_iff x).mp h),
    (zeroPattern32_iff x).trans (magValue_eq_zero_iff _ _).symm⟩

/-- The zero patterns are +0.0 and -0.0. -/
theorem zeroPattern32_iff_val32 (x : F32) : zeroPattern32 x = true ↔ ∃ s, val32 x = .fin s 0 := by
  rw [zeroPattern32_iff]
  constructor
  · intro h
    refine ⟨x.msb, ?_⟩
    rw [val32, h, decodeFloat_of_lt _ (by decide), (magValue_eq_zero_iff _ _).mpr rfl]
  · rintro ⟨s, h⟩
    obtain ⟨-, -, hmag⟩ := decodeFloat_eq_fin h
    exact (magValue_eq_zero_iff _ _).mp hmag.symm

theorem val32_posZero : val32 0x00000000#32 = .fin false 0 := by decide

theorem val32_one : val32 0x3F800000#32 = .fin false (2 ^ b32.scale) := by decide

/-! ### Products -/

/-- A binary32 value written over any denominator rounds back to its pattern. -/
theorem round32_ratio_mul {x : F32} {s : Bool} {m den : Nat} (k : Nat) (h : val32 x = .fin s m) (hd : 0 < den) :
    round32 k (.ratio s (m * den) den) = x := by
  obtain ⟨hlt, rfl, rfl⟩ := decodeFloat_eq_fin h
  rw [round32, roundMag_magValue b32.prec _ den (by decide) hd, Nat.min_eq_left (Nat.le_of_lt hlt)]
  exact ofNat_signedMag32 x

theorem mul32_one_right {x : F32} (k : Nat) (h : finitePattern32 x = true) : mul32 k x 0x3F800000#32 = x := by
  obtain ⟨s, m, hx, -⟩ := val32_of_finitePattern32 h
  rw [mul32, hx, val32_one, mulVal, Bool.xor_false]
  exact round32_ratio_mul k hx (Nat.two_pow_pos _)

/-- A finite value times +0.0 is a zero, of the sign of the value. -/
theorem zeroPattern32_mul32_posZero {x : F32} (k : Nat) (h : finitePattern32 x = true) :
    zeroPattern32 (mul32 k x 0x00000000#32) = true := by
  obtain ⟨s, m, hx, -⟩ := val32_of_finitePattern32 h
  have hround : roundMag b32.prec 0 (2 ^ b32.scale) = 0 := by
    simpa [magValue] using roundMag_magValue b32.prec 0 (2 ^ b32.scale) (by decide) (Nat.two_pow_pos _)
  rw [zeroPattern32_iff_val32, mul32, hx, val32_posZero, mulVal, Nat.mul_zero, val32_round32_ratio, hround]
  exact ⟨s ^^ false, rfl⟩

/-! ### Sums with a zero -/

/-- A pattern with the sign of a zero dropped: what a sum that starts from +0.0 holds after one term. -/
def dropZeroSign (x : F32) : F32 := if zeroPattern32 x then 0x00000000#32 else x

@[simp] theorem signedInt_zero (s : Bool) : signedInt s 0 = 0 := by cases s <;> rfl

@[simp] theorem natAbs_signedInt (s : Bool) (m : Nat) : (signedInt s m).natAbs = m := by
  cases s <;> simp [signedInt]

theorem signedInt_ne_zero (s : Bool) {m : Nat} (hm : m ≠ 0) : signedInt s m ≠ 0 := by
  rwa [← Int.natAbs_ne_zero, natAbs_signedInt]

theorem decide_signedInt_neg (s : Bool) {m : Nat} (hm : m ≠ 0) : decide (signedInt s m < 0) = s := by
  cases s with
  | false => simp [signedInt]
  | true => simp [signedInt, Nat.pos_of_ne_zero hm]

theorem addVal_zero_left (s s' : Bool) {m : Nat} (hm : m ≠ 0) : addVal (.fin s' 0) (.fin s m) = .ratio s m 1 := by
  simp [addVal, signedInt_ne_zero s hm, decide_signedInt_neg s hm]

theorem addVal_zero_right (s s' : Bool) {m : Nat} (hm : m ≠ 0) : addVal (.fin s m) (.fin s' 0) = .ratio s m 1 := by
  simp [addVal, signedInt_ne_zero s hm, decide_signedInt_neg s hm]

/-- `+0 + -0 = +0` (00 R17, G3), and `+0 + +0 = +0`. -/
theorem add32_posZero_zero {z : F32} (k : Nat) (hz : zeroPattern32 z = true) :
    add32 k 0x00000000#32 z = 0x00000000#32 := by
  obtain ⟨s, hval⟩ := (zeroPattern32_iff_val32 z).mp hz
  have hsum : addVal (.fin false 0) (.fin s 0) = .ratio false 0 1 := by cases s <;> rfl
  rw [add32, val32_posZero, hval, hsum]
  exact round32_val32 k val32_posZero

theorem add32_posZero_left {x : F32} (k : Nat) (h : finitePattern32 x = true) :
    add32 k 0x00000000#32 x = dropZeroSign x := by
  unfold dropZeroSign
  split
  · rename_i hz
    exact add32_posZero_zero k hz
  · rename_i hz
    obtain ⟨s, m, hx, hm⟩ := val32_of_finitePattern32 h
    rw [add32, val32_posZero, hx, addVal_zero_left s false (mt hm.mpr hz)]
    exact round32_val32 k hx

/-- Adding a zero of either sign changes neither a nonzero value nor +0.0. -/
theorem add32_dropZeroSign_zero {x z : F32} (k : Nat) (h : finitePattern32 x = true) (hz : zeroPattern32 z = true) :
    add32 k (dropZeroSign x) z = dropZeroSign x := by
  unfold dropZeroSign
  split
  · exact add32_posZero_zero k hz
  · rename_i hx0
    obtain ⟨s, m, hx, hm⟩ := val32_of_finitePattern32 h
    obtain ⟨s', hval⟩ := (zeroPattern32_iff_val32 z).mp hz
    rw [add32, hx, hval, addVal_zero_right s s' (mt hm.mpr hx0)]
    exact round32_val32 k hx

/-! ### Equal values (00 §5) -/

theorem sameValue32_iff (x y : F32) :
    sameValue32 x y = true ↔ x = y ∨ (zeroPattern32 x = true ∧ zeroPattern32 y = true) := by
  simp [sameValue32]

theorem sameValue32_comm (x y : F32) : sameValue32 x y = sameValue32 y x := by
  rw [Bool.eq_iff_iff, sameValue32_iff, sameValue32_iff, eq_comm, and_comm]

/-- Dropping the sign of a zero keeps the value. -/
theorem sameValue32_dropZeroSign {x y : F32} (h : sameValue32 x y = true) : sameValue32 (dropZeroSign x) y = true := by
  unfold dropZeroSign
  split
  · rename_i hx
    rw [sameValue32_iff] at h ⊢
    rcases h with rfl | ⟨-, hy⟩
    · exact .inr ⟨rfl, hx⟩
    · exact .inr ⟨rfl, hy⟩
  · exact h

end Sys2Proof.Machine
end

section
/-! PROOFS. FRESET, and the answer of a cleared stage to a unit impulse (40 R101, R102, R104). -/

namespace Sys2Proof.Machine

/-! ### Coefficient sets (00 R7) -/

theorem finitePattern32_get {c : Taps} (h : tapsFinite c = true) (n : Fin 64) : finitePattern32 (c.get n) = true :=
  List.all_eq_true.mp h _ (by simp [Vector.get_eq_getElem])

/-- A symmetric set read from the other end, for the indices of both halves. -/
theorem sameValue32_get_rev {c : Taps} (h : tapsSymmetric c = true) (n : Fin 64) :
    sameValue32 (c.get n) (c.get n.rev) = true := by
  have hlow : ∀ j : Fin 64, j.val < 32 → sameValue32 (c.get j) (c.get j.rev) = true := by
    intro j hj
    have hpair := List.all_eq_true.mp h ⟨j.val, hj⟩ (List.mem_finRange _)
    have hrev : j.rev = ⟨63 - j.val, by omega⟩ := by
      ext
      simp [Fin.val_rev]
    rw [hrev]
    exact hpair
  rcases Nat.lt_or_ge n.val 32 with hn | hn
  · exact hlow n hn
  · rw [sameValue32_comm]
    simpa using hlow n.rev (by rw [Fin.val_rev]; omega)

/-! ### The dot product with a line that holds one 1.0 -/

/-- FirStep's accumulator over a line whose only nonzero slot is the 1.0 of `n` steps ago: +0.0 up to tap `n`, then that
tap (40 R104). -/
theorem firAcc_of_line_eq_impulse {taps : Taps} {dl : Vector F32 64} {wi n : Fin 64} (k : Nat)
    (hfin : tapsFinite taps = true)
    (hline : ∀ i : Fin 64, dl.get (wi - i) = if i = n then 0x3F800000#32 else 0x00000000#32) {i : Nat} (hi : i ≤ 64) :
    firAcc taps dl wi k i = if n.val < i then dropZeroSign (taps.get n) else 0x00000000#32 := by
  induction i with
  | zero => rfl
  | succ i ih =>
    have hval : (Fin.ofNat 64 i).val = i := Nat.mod_eq_of_lt (by omega)
    have htap := finitePattern32_get hfin (Fin.ofNat 64 i)
    rw [firAcc_succ, ih (by omega), hline]
    rcases Nat.lt_trichotomy i n.val with hlt | heq | hgt
    · have hne : Fin.ofNat 64 i ≠ n := by omega
      rw [if_neg hne, if_neg (by omega), if_neg (by omega)]
      exact add32_posZero_zero _ (zeroPattern32_mul32_posZero _ htap)
    · have hn : Fin.ofNat 64 i = n := by omega
      rw [if_pos hn, if_neg (by omega), if_pos (by omega), mul32_one_right _ htap, ← hn]
      exact add32_posZero_left _ htap
    · have hne : Fin.ofNat 64 i ≠ n := by omega
      rw [if_neg hne, if_pos hgt, if_pos (by omega)]
      exact add32_dropZeroSign_zero _ (finitePattern32_get hfin n) (zeroPattern32_mul32_posZero _ htap)

/-! ### A cleared stage under a unit impulse -/

theorem State.taps_firSteps (s : State) (k j : Stage) (xs : List F32) : (s.firSteps k xs).taps j = s.taps j := by
  induction xs using List.reverseRecOn with
  | nil => rfl
  | append_singleton xs x ih => rw [State.firSteps_concat, State.taps_firStep, ih]

/-- The write index counts the samples modulo 64 (10 R32). -/
theorem foldl_firNext_wi (f : FirState) (xs : List F32) : (xs.foldl firNext f).wi = f.wi + Fin.ofNat 64 xs.length := by
  induction xs using List.reverseRecOn with
  | nil => simp
  | append_singleton xs x ih =>
    have hsucc : Fin.ofNat 64 (xs.length + 1) = Fin.ofNat 64 xs.length + 1 := by
      ext
      simp [Fin.val_add]
    rw [List.foldl_concat, firNext_wi, ih, List.length_append, List.length_singleton, hsucc, add_assoc]

/-- The first `n + 1` samples of a unit impulse, the latest first: the 1.0 is the one of `n` steps ago. -/
theorem impulse_reverse_getD (n i : Nat) :
    ((List.range (n + 1)).map impulse).reverse.getD i 0x00000000#32 =
      if i = n then 0x3F800000#32 else 0x00000000#32 := by
  rcases Nat.lt_or_ge n i with hlt | hle
  · rw [if_neg (by omega), List.getD_eq_default _ _ (by simpa using hlt)]
  · have hback : n - i < n + 1 := by omega
    have hfirst : n - i = 0 ↔ i = n := by omega
    rw [List.getD_reverse i (by simpa using hle)]
    simp [hback, impulse, hfirst]

/-- The line that FirStep reads at step `n` of a unit impulse: 1.0 `n` steps back, +0.0 in every other slot. -/
theorem insert_impulse_get (s : State) (k : Stage) (n i : Fin 64) :
    ((((s.firReset k).firSteps k ((List.range n.val).map impulse)).fir k).insert (impulse n.val)).get
        ((((s.firReset k).firSteps k ((List.range n.val).map impulse)).fir k).wi - i) =
      if i = n then 0x3F800000#32 else 0x00000000#32 := by
  have hsamples : (List.range n.val).map impulse ++ [impulse n.val] = (List.range (n.val + 1)).map impulse := by
    rw [List.range_succ, List.map_append, List.map_singleton]
  have hline := s.firSteps_firReset_get k ((List.range n.val).map impulse ++ [impulse n.val]) i
  rw [State.firSteps_concat, State.fir_firStep, firNext_wi, add_sub_cancel_right, firNext_dl] at hline
  rw [hline, hsamples, impulse_reverse_getD]
  simp only [Fin.ext_iff]

/-- A cleared stage answers step `n` of a unit impulse with tap `n`, a zero tap with +0.0. -/
theorem firValue_impulse (s : State) (k : Stage) (hfin : tapsFinite (s.taps k) = true) (n : Fin 64) :
    ((s.firReset k).firSteps k ((List.range n.val).map impulse)).firValue k (impulse n.val) =
      dropZeroSign ((s.taps k).get n) := by
  unfold State.firValue firOut
  rw [State.taps_firSteps, State.taps_firReset,
    firAcc_of_line_eq_impulse _ hfin (insert_impulse_get s k n) (Nat.le_refl 64), if_pos n.isLt]

/-- Settles O15: the value by the line at each step, the write index by counting, the index 63 - n by symmetry. -/
theorem impulseResponseIsTheTaps : Obligations.ImpulseResponseIsTheTaps := by
  unfold Obligations.ImpulseResponseIsTheTaps
  intro s k hfin
  refine ⟨fun n => firValue_impulse s k hfin n, ?_, fun hsym n => ?_⟩
  · rw [State.fir_firSteps, State.fir_firReset, foldl_firNext_wi, List.length_map, List.length_range]
    rfl
  · rw [firValue_impulse s k hfin n]
    exact sameValue32_dropZeroSign (sameValue32_get_rev hsym n)

/-- FRESET is FirReset of its unit's stage, then ERR = 0 (40 R102). -/
theorem exec_freset (u : PipeUnit) (s : State) : exec (.freset u) s = .next (s.firReset (stageOf u)).accept := rfl

/-- Settles O12: FirReset puts the cleared stage in place of the unit's own. -/
theorem fresetClearsItsStage : Obligations.FresetClearsItsStage := by
  unfold Obligations.FresetClearsItsStage
  intro s
  exact ⟨exec_freset .down s, exec_freset .up s⟩

end Sys2Proof.Machine
end

section
/-! PROOFS. Splitting a block of ResampleBlock in two (41 R126): a run that has counted `c` samples is the run that has counted none and writes from `c` elements further on. -/

namespace Sys2Proof.Machine

/-- A run with `c` more samples counted. -/
def ResampleRun.addCount (c : Nat) (r : ResampleRun) : ResampleRun := { r with count := c + r.count }

@[simp] theorem ResampleRun.addCount_fir (c : Nat) (r : ResampleRun) : (r.addCount c).fir = r.fir := rfl
@[simp] theorem ResampleRun.addCount_t (c : Nat) (r : ResampleRun) : (r.addCount c).t = r.t := rfl
@[simp] theorem ResampleRun.addCount_prev (c : Nat) (r : ResampleRun) : (r.addCount c).prev = r.prev := rfl
@[simp] theorem ResampleRun.addCount_curr (c : Nat) (r : ResampleRun) : (r.addCount c).curr = r.curr := rfl
@[simp] theorem ResampleRun.addCount_mid (c : Nat) (r : ResampleRun) : (r.addCount c).mid = r.mid := rfl
@[simp] theorem ResampleRun.addCount_count (c : Nat) (r : ResampleRun) : (r.addCount c).count = c + r.count := rfl

/-- Counting a run's samples from 0 and adding them back changes nothing. -/
theorem ResampleRun.addCount_count_zero (r : ResampleRun) : ResampleRun.addCount r.count { r with count := 0 } = r := rfl

/-- One pass of the `while` writes at the base plus the count, so `c` may move from the count to the base. -/
theorem emitPass_addCount (ratio : F64) (outBase c : Nat) (r : ResampleRun) :
    emitPass ratio outBase (r.addCount c) = (emitPass ratio (outBase + c) r).addCount c := by
  unfold emitPass ResampleRun.addCount
  simp only [Nat.add_assoc]

/-- The `while` tests only `t`, so the count moves to the base through every pass. -/
theorem emitPasses_addCount (ratio : F64) (outBase c n : Nat) (r : ResampleRun) :
    emitPasses ratio outBase n (r.addCount c) = (emitPasses ratio (outBase + c) n r).addCount c := by
  induction n generalizing r with
  | zero => rfl
  | succ n ih =>
    cases hge : ge64 r.t one64 with
    | false => rw [emitPasses_of_not_ge hge, emitPasses_of_not_ge (by rwa [ResampleRun.addCount_t])]
    | true =>
      rw [emitPasses_of_ge hge, emitPasses_of_ge (by rwa [ResampleRun.addCount_t]), emitPass_addCount, ih]

/-- The lines before the `while` neither read nor change the count. -/
theorem takeSample_addCount (taps : Taps) (ratio : F64) (x : F32) (c : Nat) (r : ResampleRun) :
    takeSample taps ratio x (r.addCount c) = (takeSample taps ratio x r).addCount c := rfl

/-- One input sample uses the count through its `while` only. -/
theorem resampleSample_addCount (taps : Taps) (ratio : F64) (outBase c fuel : Nat) (x : F32) (r : ResampleRun) :
    resampleSample taps ratio outBase fuel x (r.addCount c) =
      (resampleSample taps ratio (outBase + c) fuel x r).addCount c := by
  rw [resampleSample_eq, resampleSample_eq, takeSample_addCount, emitPasses_addCount]
  rfl

/-- A block started with `c` more samples counted is the block with its output base `c` further on. -/
theorem resampleBlock_addCount (taps : Taps) (ratio : F64) (inp : Mem) (inBase outBase c fuel : Nat) (r : ResampleRun)
    (n : Nat) :
    resampleBlock taps ratio inp inBase outBase fuel (r.addCount c) n =
      (resampleBlock taps ratio inp inBase (outBase + c) fuel r n).addCount c := by
  induction n with
  | zero => rfl
  | succ n ih => rw [resampleBlock_succ, resampleBlock_succ, ih, resampleSample_addCount]

/-- A block of `m + n` input samples is the block of `n` samples from `inBase + m`, run on from the block of `m`. -/
theorem resampleBlock_add (taps : Taps) (ratio : F64) (inp : Mem) (inBase outBase fuel : Nat) (r : ResampleRun)
    (m n : Nat) :
    resampleBlock taps ratio inp inBase outBase fuel r (m + n) =
      resampleBlock taps ratio inp (inBase + m) outBase fuel
        (resampleBlock taps ratio inp inBase outBase fuel r m) n := by
  induction n with
  | zero => rfl
  | succ n ih => rw [← Nat.add_assoc, resampleBlock_succ, resampleBlock_succ, ih, Nat.add_assoc]

/-- A block split in two, as a whole run: the second part counts from 0 with its bases moved on, and the count of the
first is added to it at the end. -/
theorem resampleBlock_split (taps : Taps) (ratio : F64) (inp : Mem) (inBase outBase fuel : Nat) (r : ResampleRun)
    (m n : Nat) {r₁ : ResampleRun} (h : r₁ = resampleBlock taps ratio inp inBase outBase fuel r m) :
    resampleBlock taps ratio inp inBase outBase fuel r (m + n) =
      (resampleBlock taps ratio inp (inBase + m) (outBase + r₁.count) fuel { r₁ with count := 0 } n).addCount
        r₁.count := by
  rw [← resampleBlock_addCount, ResampleRun.addCount_count_zero, h, resampleBlock_add]

/-- Settles O18: the whole block is the second part with the count of the first added, the fields other than the count
untouched. -/
theorem splittingABlockChangesNothing : Obligations.SplittingABlockChangesNothing := by
  unfold Obligations.SplittingABlockChangesNothing
  intro taps ratio inp inBase outBase fuel len₁ len₂ r r₁ r₂ whole _ hfirst hsecond hwhole
  have hsplit : whole = r₂.addCount r₁.count := by
    rw [hwhole, hsecond, resampleBlock_split taps ratio inp inBase outBase fuel r len₁ len₂ hfirst]
  rw [hsplit]
  exact ⟨r₂.addCount_t _, r₂.addCount_prev _, r₂.addCount_curr _, r₂.addCount_fir _, r₂.addCount_mid _,
    r₂.addCount_count _⟩

end Sys2Proof.Machine
end

section
/-! PROOFS. A UPROC with nothing to interpolate from or nothing to write (43 R153, R154). -/

namespace Sys2Proof.Machine

/-- The range check of a block is the comparison of natural numbers (20 R63). -/
theorem State.rangeFits_eq_true_iff {s : State} {sp : Space} {base len : Nat} :
    s.rangeFits sp base len = true ↔ base + len ≤ s.size sp :=
  decide_eq_true_iff

/-- A UPROC that passes its three checks does nothing or runs its block, by M and K alone (43 R150). -/
theorem exec_uproc_of_checks {s : State} (hready : s.cfgU.ready = true)
    (hmid : s.rangeFits .mid s.srcBaseOp s.a1Op = true) (hout : s.rangeFits .output s.dstBaseOp s.lenOp = true) :
    exec .uproc s =
      .next (if s.lenOp = 0 ∨ s.a1Op = 0 then s.acceptWith 0
        else (s.setRecon (uprocRecon s)).acceptWith (zext64 s.a0low)) := by
  change execUproc s = _
  rw [execUproc, hready, hmid, hout, State.check_true, State.check_true, State.check_true]

/-- Settles O29: all three checks pass, and a zero word is a zero length, so the accepted branch is the empty one. -/
theorem uprocOfNothing : Obligations.UprocOfNothing := by
  unfold Obligations.UprocOfNothing
  intro s hready hmid hout hzero
  have hempty : s.lenOp = 0 ∨ s.a1Op = 0 :=
    hzero.imp (congrArg BitVec.toNat) (congrArg BitVec.toNat)
  rw [exec_uproc_of_checks hready (State.rangeFits_eq_true_iff.mpr hmid) (State.rangeFits_eq_true_iff.mpr hout),
    if_pos hempty]
  rfl

end Sys2Proof.Machine
end

section
/-! PROOFS. Rejection (60 R199): a command that ends with an error is a reject of the state it started from. -/

namespace Sys2Proof.Machine

/-! ### STATUS after a rejection -/

@[simp] theorem Err.code_ok : Err.ok.code = 0#4 := rfl

/-- STATUS without its ERR field: the word of the same state with ERR = 0 (10 R43). -/
theorem State.statusWord_and_errMask (s : State) : s.statusWord &&& 0xFFFFF0FF#32 = s.accept.statusWord := by
  have hmask : 0xFFFFF0FF#32 = BitVec.allOnes 11 ++ BitVec.allOnes 5 ++ BitVec.allOnes 4 ++ 0#4 ++ BitVec.allOnes 6 ++
      BitVec.allOnes 1 ++ BitVec.allOnes 1 := by decide
  rw [State.statusWord, hmask]
  iterate 6 rw [BitVec.and_append]
  simp only [BitVec.and_allOnes, BitVec.and_zero]
  rfl

/-- The word that holds a code in its ERR field and the bit 16 + (code - 1) is made of that code and its STICKY bit
(60 R191). -/
theorem Err.code_or_bit_eq_fields {c : Err} (hc : c ≠ .ok) :
    (c.code.setWidth 32 <<< 8) ||| (1#32 <<< (16 + (c.code.toNat - 1))) =
      (0#11 ++ c.stickyBit ++ 0#4 ++ c.code ++ 0#6 ++ 0#1 ++ 0#1 : BitVec 32) := by
  cases c with
  | ok => exact absurd rfl hc
  | illegal | unconfig | rate | range | cap => decide

/-- What a rejection does to STATUS: the code in ERR and its bit of STICKY (60 R199). -/
theorem State.statusWord_reject (s : State) {c : Err} (hc : c ≠ .ok) :
    (s.reject c).statusWord = (s.statusWord &&& 0xFFFFF0FF#32) ||| (c.code.setWidth 32 <<< 8) |||
      (1#32 <<< (16 + (c.code.toNat - 1))) := by
  rw [s.statusWord_and_errMask, BitVec.or_assoc, Err.code_or_bit_eq_fields hc]
  rw [State.statusWord, State.statusWord]
  iterate 6 rw [BitVec.or_append]
  simp only [BitVec.or_zero, BitVec.zero_or, Err.code_ok, State.err_accept]
  rfl

/-! ### A command that ends with an error -/

/-- An accessor that ends with an error is a reject. -/
theorem State.getField_eq_reject {s : State} {u : PipeUnit} {field : PipeConfig → F64}
    (he : (s.getField u field).err ≠ .ok) : s.getField u field = s.reject (s.getField u field).err := by
  obtain ⟨-, h⟩ | ⟨-, h⟩ := s.getField_cases u field
  · exact absurd (congrArg State.err h) he
  · rw [h, State.err_reject]

/-- A command that ends with an error is a reject: its accepted branch ends with ERR = 0 (60 R199). -/
theorem exec_eq_reject {i : Instr} {s t : State} (h : exec i s = .next t) (he : t.err ≠ .ok) : t = s.reject t.err := by
  cases i with
  | freset u | fsamp u | preset u =>
    injection h with h
    exact absurd (congrArg State.err h.symm) he
  | getsrc u | gettgt u | getratio u =>
    injection h with h
    subst h
    exact State.getField_eq_reject he
  | init u =>
    obtain ⟨-, rfl⟩ | ⟨-, rfl⟩ := execInit_cases h
    · exact absurd rfl he
    · rfl
  | expsz =>
    obtain ⟨-, rfl⟩ | ⟨-, -, rfl⟩ | ⟨e, -, -, rfl⟩ := execExpsz_cases h
    · rfl
    · rfl
    · exact absurd rfl he
  | dproc =>
    obtain ⟨-, rfl⟩ | ⟨-, -, rfl⟩ | ⟨-, -, -, -, rfl⟩ | ⟨-, -, -, -, rfl⟩ := execDproc_cases h
    · rfl
    · rfl
    · rfl
    · exact absurd rfl he
  | uproc =>
    obtain ⟨-, rfl⟩ | ⟨-, -, rfl⟩ | ⟨-, -, -, -, rfl⟩ | ⟨-, -, -, -, rfl⟩ := execUproc_cases h
    · rfl
    · rfl
    · exact absurd rfl he
    · exact absurd rfl he

/-- Settles O41: the final state is a reject of the first, which writes ERR and STICKY only. -/
theorem rejectionChangesOnlyStatus : Obligations.RejectionChangesOnlyStatus := by
  unfold Obligations.RejectionChangesOnlyStatus
  intro i s t h he
  obtain ⟨c, rfl⟩ : ∃ c, t = s.reject c := ⟨t.err, exec_eq_reject h he⟩
  exact ⟨rfl, s.statusWord_reject he⟩

end Sys2Proof.Machine
end

section
/-! PROOFS. Which checks reject a command: INIT with a bad rate, and an Unconfigured pipeline (60 R193, R194). -/

namespace Sys2Proof.Machine

/-- A command whose first check fails is rejected with the code of that check (60 R198). -/
theorem next_check_of_eq_false {s : State} {ok : Bool} {c : Err} {go : State} (h : ok = false) :
    (.next (s.check ok c go) : Host.Outcome State Fault Refusal) = .next (s.reject c) := by
  rw [h, State.check_false]

/-- The rates INIT does not accept (60 R194). -/
theorem rateAccepted_eq_false_iff (rate : F64) :
    rateAccepted rate = false ↔ finite64 rate = false ∨ lt64 zero64 rate = false ∨ initRatio rate = posInf64 := by
  rw [rateAccepted, Bool.and_eq_false_iff, Bool.and_eq_false_iff, bne_eq_false_iff_eq, or_assoc]

/-- Settles O36: such a rate is not accepted, so INIT's one check rejects. -/
theorem initRejectsBadRates : Obligations.InitRejectsBadRates := by
  unfold Obligations.InitRejectsBadRates
  intro s u hbad
  exact next_check_of_eq_false ((rateAccepted_eq_false_iff s.a0).mpr hbad)

/-- Settles O40: the first check of each of the six commands is that its unit is Ready. -/
theorem unconfiguredCommandsAreRejected : Obligations.UnconfiguredCommandsAreRejected := by
  unfold Obligations.UnconfiguredCommandsAreRejected
  rintro s i (rfl | rfl | rfl | ⟨u, rfl | rfl | rfl⟩) hready
  all_goals exact next_check_of_eq_false hready

end Sys2Proof.Machine
end

section
/-! PROOFS. The words of the commands (30 R80, R83). -/

namespace Sys2Proof

/-- Settles O1: the decoder and the encoder are inverse to each other. -/
theorem decodesExactlyTheEncodedWord : Obligations.DecodesExactlyTheEncodedWord := by
  unfold Obligations.DecodesExactlyTheEncodedWord
  exact fun _ _ => decode_eq_ok_iff

/-- Settles O3: ten closed words, each looked up in the table. -/
theorem listedWordsDecode : Obligations.ListedWordsDecode := by
  unfold Obligations.ListedWordsDecode
  decide

end Sys2Proof
end

section
/-! PROOFS. A command is a verdict and what follows it (60 R198, R199): the first check that fails and its rejection, or the
accepted state. -/

namespace Sys2Proof.Machine

/-- The error code a command ends with: that of its first check that fails, else OK (60 R198). -/
def verdict : Instr → State → Err
  | .freset _, _ => .ok
  | .fsamp _, _ => .ok
  | .init _, s => if rateAccepted s.rateOp then .ok else .rate
  | .preset _, _ => .ok
  | .dproc, s =>
    if s.cfgD.ready then
      if s.rangeFits .input s.srcBaseOp s.lenOp then
        if s.rangeFits .mid s.dstBaseOp s.a1Op then if dprocCount s ≤ s.a1Op then .ok else .cap else .range
      else .range
    else .unconfig
  | .expsz, s => if s.cfgD.ready then if (expectedSize s).isSome then .ok else .range else .unconfig
  | .uproc, s =>
    if s.cfgU.ready then
      if s.rangeFits .mid s.srcBaseOp s.a1Op then if s.rangeFits .output s.dstBaseOp s.lenOp then .ok else .range
      else .range
    else .unconfig
  | .getsrc u, s => if (s.cfg u).ready then .ok else .unconfig
  | .gettgt u, s => if (s.cfg u).ready then .ok else .unconfig
  | .getratio u, s => if (s.cfg u).ready then .ok else .unconfig

/-- The state an accepted command ends in. -/
def accepted : Instr → State → State
  | .freset u, s => (s.firReset (stageOf u)).accept
  | .fsamp u, s => (s.firStep (stageOf u) s.sampleOp).acceptWith (zext64 (s.firValue (stageOf u) s.sampleOp))
  | .init u, s => ((s.setCfg u (initConfig s.rateOp)).pipeReset u).accept
  | .preset u, s => (s.pipeReset u).accept
  | .dproc, s => (s.setStream (dprocStream s)).acceptWith (zext64 (BitVec.ofNat 32 (dprocStream s).count))
  | .expsz, s => s.acceptWith (zext64 (BitVec.ofNat 32 ((expectedSize s).getD 0)))
  | .uproc, s =>
    if s.lenOp = 0 ∨ s.a1Op = 0 then s.acceptWith 0 else (s.setRecon (uprocRecon s)).acceptWith (zext64 s.a0low)
  | .getsrc u, s => s.acceptWith (s.cfg u).srcRate
  | .gettgt u, s => s.acceptWith (s.cfg u).tgtRate
  | .getratio u, s => s.acceptWith (s.cfg u).ratio

/-- The state a command ends in for a verdict. -/
def conclude (i : Instr) (s : State) (c : Err) : State := if c = .ok then accepted i s else s.reject c

@[simp] theorem conclude_ok (i : Instr) (s : State) : conclude i s .ok = accepted i s := rfl

theorem conclude_of_ne {c : Err} (i : Instr) (s : State) (hc : c ≠ .ok) : conclude i s c = s.reject c := if_neg hc

/-- A check before the rest of a command. -/
theorem State.check_conclude (i : Instr) (s : State) (ok : Bool) {c e : Err} (hc : c ≠ .ok) :
    s.check ok c (conclude i s e) = conclude i s (if ok then e else c) := by
  cases ok with
  | true => rfl
  | false => exact (conclude_of_ne i s hc).symm

/-- Every command answers the state of its verdict. -/
theorem exec_eq_conclude (i : Instr) (s : State) : exec i s = .next (conclude i s (verdict i s)) := by
  cases i with
  | freset u | fsamp u | preset u => rfl
  | init u => exact congrArg _ (s.check_conclude (.init u) (rateAccepted s.rateOp) (e := .ok) (by decide))
  | getsrc u => exact congrArg _ (s.check_conclude (.getsrc u) (s.cfg u).ready (e := .ok) (by decide))
  | gettgt u => exact congrArg _ (s.check_conclude (.gettgt u) (s.cfg u).ready (e := .ok) (by decide))
  | getratio u => exact congrArg _ (s.check_conclude (.getratio u) (s.cfg u).ready (e := .ok) (by decide))
  | expsz =>
    have hsize : s.acceptSize (expectedSize s) =
        conclude .expsz s (if (expectedSize s).isSome then .ok else .range) := by
      cases h : expectedSize s with
      | none => rfl
      | some e => simp [State.acceptSize, accepted, h]
    change execExpsz s = _
    rw [execExpsz, hsize, State.check_conclude _ _ _ (by decide)]
    rfl
  | dproc =>
    have hcap := s.check_conclude .dproc (decide (dprocCount s ≤ s.a1Op)) (c := .cap) (e := .ok) (by decide)
    rw [conclude_ok, accepted] at hcap
    change execDproc s = _
    rw [execDproc, hcap, State.check_conclude _ _ _ (by decide), State.check_conclude _ _ _ (by decide),
      State.check_conclude _ _ _ (by decide)]
    simp only [verdict, decide_eq_true_eq]
  | uproc =>
    have hout := s.check_conclude .uproc (s.rangeFits .output s.dstBaseOp s.lenOp) (c := .range) (e := .ok) (by decide)
    rw [conclude_ok, accepted] at hout
    change execUproc s = _
    rw [execUproc, hout, State.check_conclude _ _ _ (by decide), State.check_conclude _ _ _ (by decide)]
    rfl

/-- What a command that answers a next state has done: it was accepted, or rejected with its verdict. -/
theorem exec_cases {i : Instr} {s t : State} (h : exec i s = .next t) :
    (verdict i s = .ok ∧ t = accepted i s) ∨ (verdict i s ≠ .ok ∧ t = s.reject (verdict i s)) := by
  cases (exec_eq_conclude i s).symm.trans h
  by_cases hv : verdict i s = .ok
  · exact .inl ⟨hv, by rw [hv, conclude_ok]⟩
  · exact .inr ⟨hv, conclude_of_ne i s hv⟩

theorem accepted_uproc_of_empty {s : State} (h : s.lenOp = 0 ∨ s.a1Op = 0) : accepted .uproc s = s.acceptWith 0 :=
  if_pos h

theorem accepted_uproc_of_block {s : State} (h : ¬(s.lenOp = 0 ∨ s.a1Op = 0)) :
    accepted .uproc s = (s.setRecon (uprocRecon s)).acceptWith (zext64 s.a0low) :=
  if_neg h

/-- An accepted UPROC does nothing or runs its block. -/
theorem accepted_uproc_cases (s : State) :
    accepted .uproc s = s.acceptWith 0 ∨
      accepted .uproc s = (s.setRecon (uprocRecon s)).acceptWith (zext64 s.a0low) :=
  (Decidable.em (s.lenOp = 0 ∨ s.a1Op = 0)).imp accepted_uproc_of_empty accepted_uproc_of_block

/-! The shapes of the accepted states whose fields are costly to compute, with those fields left open. -/

theorem accepted_expsz_shape (s : State) : ∃ r, accepted .expsz s = s.acceptWith r := ⟨_, rfl⟩

theorem accepted_dproc_shape (s : State) : ∃ b r, accepted .dproc s = (s.setStream b).acceptWith r := ⟨_, _, rfl⟩

theorem accepted_uproc_shape (s : State) :
    (∃ r, accepted .uproc s = s.acceptWith r) ∨ ∃ b r, accepted .uproc s = (s.setRecon b).acceptWith r :=
  (accepted_uproc_cases s).imp (fun h => ⟨_, h⟩) fun h => ⟨_, _, h⟩

@[simp] theorem err_accepted (i : Instr) (s : State) : (accepted i s).err = .ok := by
  cases i with
  | uproc => obtain ⟨r, h⟩ | ⟨b, r, h⟩ := accepted_uproc_shape s <;> simp [h]
  | _ => rfl

/-- The verdict is what ERR holds afterwards. -/
theorem err_of_exec {i : Instr} {s t : State} (h : exec i s = .next t) : t.err = verdict i s := by
  obtain ⟨hv, rfl⟩ | ⟨-, rfl⟩ := exec_cases h
  · rw [err_accepted, hv]
  · rfl

theorem verdict_dproc_eq_ok_iff {s : State} :
    verdict .dproc s = .ok ↔
      s.cfgD.ready = true ∧ s.rangeFits .input s.srcBaseOp s.lenOp = true ∧
        s.rangeFits .mid s.dstBaseOp s.a1Op = true ∧ dprocCount s ≤ s.a1Op := by
  simp only [verdict]
  split_ifs <;> simp_all

theorem verdict_uproc_eq_ok_iff {s : State} :
    verdict .uproc s = .ok ↔
      s.cfgU.ready = true ∧ s.rangeFits .mid s.srcBaseOp s.a1Op = true ∧
        s.rangeFits .output s.dstBaseOp s.lenOp = true := by
  simp only [verdict]
  split_ifs <;> simp_all

theorem exec_of_verdict_ok {i : Instr} {s : State} (h : verdict i s = .ok) : exec i s = .next (accepted i s) := by
  rw [exec_eq_conclude, h, conclude_ok]

theorem exec_of_verdict_ne {i : Instr} {s : State} (h : verdict i s ≠ .ok) :
    exec i s = .next (s.reject (verdict i s)) := by
  rw [exec_eq_conclude, conclude_of_ne i s h]

end Sys2Proof.Machine
end

section
/-! PROOFS. What every command leaves unchanged, and what it does not read (10 R40, R43; 20 R64; 60 R191, R200). -/

namespace Sys2Proof.Machine

/-! ### The fields an accepted command can write -/

/-- An accepted command leaves the operands, STICKY, IN and the parameters as they are. -/
theorem accepted_frame (i : Instr) (s : State) :
    ((accepted i s).a0 = s.a0 ∧ (accepted i s).a1 = s.a1 ∧ (accepted i s).a2 = s.a2 ∧ (accepted i s).a3 = s.a3) ∧
      (accepted i s).sticky = s.sticky ∧ (accepted i s).inMem = s.inMem ∧ (accepted i s).params = s.params := by
  cases i with
  | dproc => obtain ⟨b, r, h⟩ := accepted_dproc_shape s; simp [h]
  | expsz => obtain ⟨r, h⟩ := accepted_expsz_shape s; simp [h]
  | uproc => obtain ⟨r, h⟩ | ⟨b, r, h⟩ := accepted_uproc_shape s <;> simp [h]
  | _ => simp [accepted]

@[simp] theorem sticky_accepted (i : Instr) (s : State) : (accepted i s).sticky = s.sticky := by
  obtain ⟨-, h, -, -⟩ := accepted_frame i s
  exact h

@[simp] theorem inMem_accepted (i : Instr) (s : State) : (accepted i s).inMem = s.inMem := by
  obtain ⟨-, -, h, -⟩ := accepted_frame i s
  exact h

@[simp] theorem params_accepted (i : Instr) (s : State) : (accepted i s).params = s.params := by
  obtain ⟨-, -, -, h⟩ := accepted_frame i s
  exact h

theorem midMem_accepted {i : Instr} (hi : i ≠ .dproc) (s : State) : (accepted i s).midMem = s.midMem := by
  cases i with
  | dproc => exact absurd rfl hi
  | expsz => obtain ⟨r, h⟩ := accepted_expsz_shape s; simp [h]
  | uproc => obtain ⟨r, h⟩ | ⟨b, r, h⟩ := accepted_uproc_shape s <;> simp [h]
  | _ => simp [accepted]

theorem outMem_accepted {i : Instr} (hi : i ≠ .uproc) (s : State) : (accepted i s).outMem = s.outMem := by
  cases i with
  | dproc => obtain ⟨b, r, h⟩ := accepted_dproc_shape s; simp [h]
  | expsz => obtain ⟨r, h⟩ := accepted_expsz_shape s; simp [h]
  | uproc => exact absurd rfl hi
  | _ => simp [accepted]

/-- An accepted command of unit D leaves stage RC and the configuration of unit U alone. -/
theorem accepted_of_down {i : Instr} (hi : unitOf i = .down) (s : State) :
    (accepted i s).rc = s.rc ∧ (accepted i s).cfgU = s.cfgU := by
  cases i with
  | uproc => cases hi
  | dproc => obtain ⟨b, r, h⟩ := accepted_dproc_shape s; simp [h]
  | expsz => obtain ⟨r, h⟩ := accepted_expsz_shape s; simp [h]
  | getsrc u | gettgt u | getratio u => simp [accepted]
  | freset u | fsamp u | init u | preset u => cases hi; exact ⟨rfl, rfl⟩

/-- An accepted command of unit U leaves stage AA, the phase and the configuration of unit D alone. -/
theorem accepted_of_up {i : Instr} (hi : unitOf i = .up) (s : State) :
    (accepted i s).aa = s.aa ∧ (accepted i s).t = s.t ∧ (accepted i s).prev = s.prev ∧ (accepted i s).curr = s.curr ∧
      (accepted i s).cfgD = s.cfgD := by
  cases i with
  | dproc | expsz => cases hi
  | uproc => obtain ⟨r, h⟩ | ⟨b, r, h⟩ := accepted_uproc_shape s <;> simp [h]
  | getsrc u | gettgt u | getratio u => simp [accepted]
  | freset u | fsamp u | init u | preset u => cases hi; exact ⟨rfl, rfl, rfl, rfl, rfl⟩

/-- Settles O48: a rejection touches neither unit, and an accepted command only its own. -/
theorem unitsAreIndependent : Obligations.UnitsAreIndependent := by
  unfold Obligations.UnitsAreIndependent
  intro i s t h
  obtain ⟨-, rfl⟩ | ⟨-, rfl⟩ := exec_cases h
  · constructor
    · intro hu
      obtain ⟨hrc, hcfg⟩ := accepted_of_down hu s
      exact ⟨hrc, hcfg, outMem_accepted (by rintro rfl; cases hu) s⟩
    · intro hu
      obtain ⟨haa, ht, hprev, hcurr, hcfg⟩ := accepted_of_up hu s
      exact ⟨haa, ht, hprev, hcurr, hcfg, midMem_accepted (by rintro rfl; cases hu) s⟩
  · simp

/-! ### The errors of each command -/

/-- Settles O42: ERR ends as the verdict, whose codes are those of the command's own checks. -/
theorem errorsRaisedByEachCommand : Obligations.ErrorsRaisedByEachCommand := by
  unfold Obligations.ErrorsRaisedByEachCommand
  intro i s t h
  rw [err_of_exec h]
  cases i with
  | freset u | fsamp u | preset u => rfl
  | init u | getsrc u | gettgt u | getratio u => simp only [verdict]; split <;> simp
  | dproc | expsz | uproc =>
    simp only [verdict]
    split_ifs <;> decide

/-! ### Two runs from states that differ in what a command does not read -/

/-- A change `f` of the start that the verdict does not see shows in the end as the change `g`, when it does so in the
accepted and in the rejected state. -/
theorem exec_congr {i : Instr} {s t : State} {f g : State → State} (h : exec i s = .next t)
    (hverdict : verdict i (f s) = verdict i s) (haccepted : verdict i s = .ok → accepted i (f s) = g (accepted i s))
    (hreject : ∀ c, c ≠ .ok → (f s).reject c = g (s.reject c)) : exec i (f s) = .next (g t) := by
  obtain ⟨hv, rfl⟩ | ⟨hv, rfl⟩ := exec_cases h
  · rw [exec_of_verdict_ok (hverdict.trans hv), haccepted hv]
  · rw [exec_of_verdict_ne (by rwa [hverdict]), hverdict, hreject _ hv]

/-- The state with other values in ERR and STICKY. -/
def State.setStatus (e : Err) (k : BitVec 5) (s : State) : State := { s with err := e, sticky := k }

theorem verdict_setStatus (i : Instr) (s : State) (e : Err) (k : BitVec 5) :
    verdict i (s.setStatus e k) = verdict i s := by
  cases i with
  | getsrc u | gettgt u | getratio u => cases u <;> rfl
  | _ => rfl

theorem accepted_setStatus (i : Instr) (s : State) (e : Err) (k : BitVec 5) :
    accepted i (s.setStatus e k) = { accepted i s with sticky := k } := by
  cases i with
  | uproc =>
    by_cases hz : s.lenOp = 0 ∨ s.a1Op = 0
    · rw [accepted_uproc_of_empty hz, accepted_uproc_of_empty (s := s.setStatus e k) hz]
      rfl
    · rw [accepted_uproc_of_block hz, accepted_uproc_of_block (s := s.setStatus e k) hz]
      rfl
  | dproc | expsz => rfl
  | _ u => cases u <;> rfl

/-- Settles O44: the verdict and the accepted state do not depend on STATUS, and a rejection adds its bit to what is
there. -/
theorem noCommandReadsStatus : Obligations.NoCommandReadsStatus := by
  unfold Obligations.NoCommandReadsStatus
  intro i s t e k h
  refine exec_congr (f := State.setStatus e k) (g := fun t => { t with sticky := k ||| t.err.stickyBit }) h
    (verdict_setStatus i s e k) (fun _ => ?_) fun c _ => rfl
  simp only [accepted_setStatus, err_accepted, show Err.ok.stickyBit = 0#5 from rfl, BitVec.or_zero]

/-- The state with another value in A0. -/
def State.setA0 (v : BitVec 64) (s : State) : State := { s with a0 := v }

theorem verdict_setA0 {i : Instr} (hi : ∀ u, i ≠ .init u) {s : State} {v : BitVec 64}
    (hlow : (s.setA0 v).a0low = s.a0low) : verdict i (s.setA0 v) = verdict i s := by
  have hlen : (s.setA0 v).lenOp = s.lenOp := congrArg BitVec.toNat hlow
  cases i with
  | init u => exact absurd rfl (hi u)
  | dproc => simp only [verdict, dprocCount, hlen]; rfl
  | expsz => simp only [verdict, expectedSize, expectedProduct, hlen]; rfl
  | uproc => simp only [verdict, hlen]; rfl
  | getsrc u | gettgt u | getratio u => cases u <;> rfl
  | _ => rfl

theorem accepted_setA0 {i : Instr} (hi : ∀ u, i ≠ .init u) {s : State} {v : BitVec 64}
    (hlow : (s.setA0 v).a0low = s.a0low) : accepted i (s.setA0 v) = (accepted i s).setA0 v := by
  have hlen : (s.setA0 v).lenOp = s.lenOp := congrArg BitVec.toNat hlow
  have hsample : (s.setA0 v).sampleOp = s.sampleOp := hlow
  cases i with
  | init u => exact absurd rfl (hi u)
  | dproc => simp only [accepted, dprocStream, hlen]; rfl
  | expsz => simp only [accepted, expectedSize, expectedProduct, hlen]; rfl
  | uproc =>
    have hrecon : uprocRecon (s.setA0 v) = uprocRecon s := by simp only [uprocRecon, hlen]; rfl
    by_cases hz : s.lenOp = 0 ∨ s.a1Op = 0
    · rw [accepted_uproc_of_empty hz, accepted_uproc_of_empty (by rw [hlen]; exact hz)]
      rfl
    · rw [accepted_uproc_of_block hz, accepted_uproc_of_block (by rw [hlen]; exact hz), hrecon, hlow]
      rfl
  | fsamp u => simp only [accepted, hsample]; cases u <;> rfl
  | _ u => cases u <;> rfl

/-- Settles O46: no accepted state has other operands, and A0 is read through its low half by all but INIT. -/
theorem operandsAreKept : Obligations.OperandsAreKept := by
  unfold Obligations.OperandsAreKept
  intro i s t h
  constructor
  · obtain ⟨-, rfl⟩ | ⟨-, rfl⟩ := exec_cases h
    · exact (accepted_frame i s).1
    · exact ⟨rfl, rfl, rfl, rfl⟩
  · intro v hlow hi
    exact exec_congr (f := State.setA0 v) (g := State.setA0 v) h (verdict_setA0 hi hlow)
      (fun _ => accepted_setA0 hi hlow) fun _ _ => rfl

end Sys2Proof.Machine
end

section
/-! PROOFS. The dry run against the block (41 R122, R127), sample by sample. -/

namespace Sys2Proof.Machine

/-! ### One sample of the block and of the dry run -/

theorem countAfter_succ_of_le {ratio t : F64} {cap n : Nat} (h : (countAfter ratio cap t n).2 ≤ cap) :
    countAfter ratio cap t (n + 1) =
      countPasses cap (cap + 1) (add64 noDraw (countAfter ratio cap t n).1 ratio) (countAfter ratio cap t n).2 :=
  if_neg (Nat.not_lt.mpr h)

/-- Once it has exceeded `cap` the dry run has returned. -/
theorem countAfter_succ_of_lt {ratio t : F64} {cap n : Nat} (h : cap < (countAfter ratio cap t n).2) :
    countAfter ratio cap t (n + 1) = countAfter ratio cap t n :=
  if_pos h

/-- A dry run that has not exceeded `cap` after a sample had not exceeded it before. -/
theorem countAfter_le_of_succ {ratio t : F64} {cap n : Nat} (h : (countAfter ratio cap t (n + 1)).2 ≤ cap) :
    (countAfter ratio cap t n).2 ≤ cap := by
  by_contra hlt
  rw [countAfter_succ_of_lt (Nat.lt_of_not_le hlt)] at h
  exact hlt h

theorem resampleBlock_count_mono (taps : Taps) (ratio : F64) (inp : Mem) (inBase outBase fuel : Nat) (r : ResampleRun)
    (n : Nat) :
    (resampleBlock taps ratio inp inBase outBase fuel r n).count ≤
      (resampleBlock taps ratio inp inBase outBase fuel r (n + 1)).count :=
  emitPasses_count_ge ratio outBase fuel
    (takeSample taps ratio (inp.read (inBase + n)) (resampleBlock taps ratio inp inBase outBase fuel r n))

/-! ### The whole block -/

/-- The block follows a dry run that stays within `cap`: the same accumulator and the same count, for every pass bound of
at least `cap`, and the run of the bound `cap` itself. -/
theorem resampleBlock_of_countAfter_le (taps : Taps) (ratio : F64) (inp : Mem) (inBase outBase cap : Nat)
    {r : ResampleRun} (hr : r.count = 0) {n : Nat} (h : (countAfter ratio cap r.t n).2 ≤ cap) {fuel : Nat}
    (hf : cap ≤ fuel) :
    (resampleBlock taps ratio inp inBase outBase fuel r n).t = (countAfter ratio cap r.t n).1 ∧
      (resampleBlock taps ratio inp inBase outBase fuel r n).count = (countAfter ratio cap r.t n).2 ∧
      resampleBlock taps ratio inp inBase outBase fuel r n = resampleBlock taps ratio inp inBase outBase cap r n := by
  induction n with
  | zero => exact ⟨rfl, hr, rfl⟩
  | succ n ih =>
    have hn := countAfter_le_of_succ h
    obtain ⟨ht, hc, heq⟩ := ih hn
    rw [countAfter_succ_of_le hn, ← ht, ← hc] at h ⊢
    rw [resampleBlock_succ, resampleBlock_succ, ← heq]
    have hpasses := countPasses_emitPasses ratio outBase cap (cap + 1)
      (takeSample taps ratio (inp.read (inBase + n)) (resampleBlock taps ratio inp inBase outBase fuel r n))
    rw [takeSample_count, takeSample_t] at hpasses
    obtain ⟨-, -, hrun⟩ | ⟨hover, -⟩ := hpasses (by omega) (by omega)
    · obtain ⟨ht', hc', hbound⟩ := hrun fuel (by omega)
      obtain ⟨-, -, hcap⟩ := hrun cap (by omega)
      refine ⟨ht', hc', ?_⟩
      rw [resampleSample_eq, resampleSample_eq, hbound, hcap]
    · omega

/-- Where the dry run of a block that is not empty stays within `cap`, its accumulator is not at least 1.0. -/
theorem ge64_countAfter_eq_false {ratio t : F64} {cap n : Nat} (h : (countAfter ratio cap t (n + 1)).2 ≤ cap) :
    ge64 (countAfter ratio cap t (n + 1)).1 one64 = false := by
  have hn := countAfter_le_of_succ h
  rw [countAfter_succ_of_le hn] at h ⊢
  -- the accumulator and the count of a dry run are those of a run of the block with any stage and any buffer
  obtain ⟨-, hge, -⟩ | ⟨hover, -⟩ := countPasses_emitPasses ratio 0 cap (cap + 1)
    { fir := FirState.clear, t := add64 noDraw (countAfter ratio cap t n).1 ratio, prev := 0, curr := 0, mid := []
      count := (countAfter ratio cap t n).2, draws := 0 } hn (Nat.sub_le _ _)
  · exact hge
  · exact absurd h (by rw [hover]; omega)

/-- A dry run that exceeds `cap` stands at `cap + 1`, and the block writes more than `cap` samples. -/
theorem resampleBlock_of_lt_countAfter (taps : Taps) (ratio : F64) (inp : Mem) (inBase outBase cap : Nat)
    {r : ResampleRun} (hr : r.count = 0) {n : Nat} (h : cap < (countAfter ratio cap r.t n).2) {fuel : Nat}
    (hf : cap < fuel) :
    (countAfter ratio cap r.t n).2 = cap + 1 ∧ cap < (resampleBlock taps ratio inp inBase outBase fuel r n).count := by
  induction n with
  | zero => exact absurd h (Nat.not_lt_zero cap)
  | succ n ih =>
    rcases Nat.lt_or_ge cap (countAfter ratio cap r.t n).2 with hlt | hle
    · rw [countAfter_succ_of_lt hlt]
      obtain ⟨hover, hblock⟩ := ih hlt
      exact ⟨hover, Nat.lt_of_lt_of_le hblock (resampleBlock_count_mono taps ratio inp inBase outBase fuel r n)⟩
    · obtain ⟨ht, hc, -⟩ := resampleBlock_of_countAfter_le taps ratio inp inBase outBase cap hr hle (Nat.le_of_lt hf)
      rw [countAfter_succ_of_le hle, ← ht, ← hc] at h ⊢
      rw [resampleBlock_succ]
      have hpasses := countPasses_emitPasses ratio outBase cap (cap + 1)
        (takeSample taps ratio (inp.read (inBase + n)) (resampleBlock taps ratio inp inBase outBase fuel r n))
      rw [takeSample_count, takeSample_t] at hpasses
      obtain ⟨hwithin, -⟩ | ⟨hover, hblock⟩ := hpasses (by omega) (by omega)
      · omega
      · exact ⟨hover, hblock fuel (by omega)⟩

/-- Settles O16: both directions follow the dry run sample by sample. -/
theorem dryRunCountsTheBlock : Obligations.DryRunCountsTheBlock := by
  unfold Obligations.DryRunCountsTheBlock
  intro taps ratio inp inBase outBase cap len r hr
  constructor
  · intro h fuel hf
    obtain ⟨-, hcount, -⟩ := resampleBlock_of_countAfter_le taps ratio inp inBase outBase cap hr h hf
    exact hcount
  · intro h
    refine ⟨?_, fun fuel hf => ?_⟩
    · exact (resampleBlock_of_lt_countAfter taps ratio inp inBase outBase cap hr h (Nat.lt_succ_self cap)).1
    · exact (resampleBlock_of_lt_countAfter taps ratio inp inBase outBase cap hr h hf).2

/-- The count of an allowed DPROC is the dry run's, and fits R0. -/
theorem dprocStream_count {s : State} (h : dprocCount s ≤ s.a1Op) :
    (dprocStream s).count = dprocCount s ∧ (zext64 (BitVec.ofNat 32 (dprocStream s).count)).toNat = dprocCount s := by
  have hcount : (dprocStream s).count = dprocCount s :=
    (resampleBlock_of_countAfter_le s.params.tapsAA s.cfgD.ratio s.inMem s.srcBaseOp s.dstBaseOp s.a1Op
      (r := s.stream) rfl h (Nat.le_refl _)).2.1
  have hlt : dprocCount s < 2 ^ 32 := Nat.lt_of_le_of_lt h s.a1.isLt
  refine ⟨hcount, ?_⟩
  rw [hcount, zext64, BitVec.toNat_setWidth, BitVec.toNat_ofNat, Nat.mod_eq_of_lt hlt, Nat.mod_eq_of_lt (by omega)]

end Sys2Proof.Machine
end

section
/-! PROOFS. Which commands reach IN, MID and OUT (20 R64). -/

namespace Sys2Proof.Machine

/-! ### Commands that do not reach a space -/

/-- The commands that read or write a space (20 R64). -/
def reaches : Instr → Space → Bool
  | .dproc, .input => true
  | .dproc, .mid => true
  | .uproc, .mid => true
  | .uproc, .output => true
  | _, _ => false

theorem reaches_input {i : Instr} (hi : i ≠ .dproc) : reaches i .input = false := by
  cases i with
  | dproc => exact absurd rfl hi
  | _ => rfl

theorem reaches_mid {i : Instr} (hd : i ≠ .dproc) (hu : i ≠ .uproc) : reaches i .mid = false := by
  cases i with
  | dproc => exact absurd rfl hd
  | uproc => exact absurd rfl hu
  | _ => rfl

theorem reaches_output {i : Instr} (hi : i ≠ .uproc) : reaches i .output = false := by
  cases i with
  | uproc => exact absurd rfl hi
  | _ => rfl

/-- No check of a command reads an element. -/
theorem verdict_setMem (i : Instr) (s : State) (sp : Space) (m : Mem) : verdict i (s.setMem sp m) = verdict i s := by
  cases i with
  | getsrc u | gettgt u | getratio u => cases u <;> cases sp <;> rfl
  | _ => cases sp <;> rfl

theorem accepted_setMem {i : Instr} {sp : Space} (h : reaches i sp = false) (s : State) (m : Mem) :
    accepted i (s.setMem sp m) = (accepted i s).setMem sp m := by
  cases i with
  | dproc =>
    cases sp with
    | input | mid => cases h
    | output => rfl
  | uproc =>
    cases sp with
    | mid | output => cases h
    | input =>
      by_cases hz : s.lenOp = 0 ∨ s.a1Op = 0
      · rw [accepted_uproc_of_empty hz, accepted_uproc_of_empty (s := s.setMem .input m) hz]
        rfl
      · rw [accepted_uproc_of_block hz, accepted_uproc_of_block (s := s.setMem .input m) hz]
        rfl
  | expsz => cases sp <;> rfl
  | _ u => cases u <;> cases sp <;> rfl

/-- With other contents of a space it does not reach, a command does the same and leaves those contents alone. -/
theorem exec_setMem {i : Instr} {sp : Space} (hi : reaches i sp = false) {s t : State} (h : exec i s = .next t)
    (m : Mem) : exec i (s.setMem sp m) = .next (t.setMem sp m) :=
  exec_congr (f := fun s => s.setMem sp m) (g := fun t => t.setMem sp m) h (verdict_setMem i s sp m)
    (fun _ => accepted_setMem hi s m) fun _ _ => by cases sp <;> rfl

/-! ### The space a pipeline writes, with other contents -/

/-- A command that is rejected writes no element, whatever the space holds. -/
theorem exec_setMem_of_reject {i : Instr} {s t : State} (h : exec i s = .next t) (ht : t.err ≠ .ok) (sp : Space)
    (m : Mem) : exec i (s.setMem sp m) = .next (t.setMem sp m) := by
  have hv : verdict i s ≠ .ok := by rwa [← err_of_exec h]
  exact exec_congr (f := fun s => s.setMem sp m) (g := fun t => t.setMem sp m) h (verdict_setMem i s sp m)
    (fun hok => absurd hok hv) fun _ _ => by cases sp <;> rfl

/-- The stream of a DPROC with other contents of MID differs in MID only, and agrees there on what it writes. -/
theorem dprocStream_setMem_mid {s : State} (hs : s.midMem.wf = true) {m : Mem} (hm : m.wf = true) :
    (dprocStream s).SameBut s.dstBaseOp 0 (dprocStream (s.setMem .mid m)) :=
  resampleBlock_sameBut s.params.tapsAA s.cfgD.ratio s.inMem s.srcBaseOp s.a1Op
    (r := s.stream) (r' := (s.setMem .mid m).stream)
    ⟨rfl, hs, hm, fun _ hlo hhi => absurd hhi (Nat.not_lt.mpr hlo)⟩ s.lenOp

/-- An accepted DPROC writes MID at the elements its stream counts. -/
theorem dprocStream_mid {s : State} (hs : s.midMem.wf = true) :
    (dprocStream s).mid.wf = true ∧
      ∀ a, (a < s.dstBaseOp ∨ s.dstBaseOp + (dprocStream s).count ≤ a) → (dprocStream s).mid.read a = s.midMem.read a :=
  (resampleBlock_mid s.params.tapsAA s.cfgD.ratio s.inMem s.srcBaseOp s.dstBaseOp s.a1Op s.stream hs s.lenOp).2

/-- DPROC does not read MID: with other contents there it writes the same elements and leaves the others alone. -/
theorem exec_dproc_setMem_mid {s t : State} (h : exec .dproc s = .next t) (hs : s.midMem.wf = true) {m : Mem}
    (hm : m.wf = true) :
    ∃ m', exec .dproc (s.setMem .mid m) = .next (t.setMem .mid m') ∧ m'.wf = true ∧
      ∀ a, m'.read a =
        if t.err = .ok ∧ s.a3.toNat ≤ a ∧ a < s.a3.toNat + t.r0.toNat then t.midMem.read a else m.read a := by
  by_cases ht : t.err = .ok
  · have hv : verdict .dproc s = .ok := by rwa [← err_of_exec h]
    obtain ⟨-, -, -, hcap⟩ := verdict_dproc_eq_ok_iff.mp hv
    obtain ⟨hcount, hr0⟩ := dprocStream_count hcap
    obtain ⟨heq, -, -, hsame⟩ := dprocStream_setMem_mid hs hm
    obtain ⟨hwf, hframe⟩ := dprocStream_mid (s := s.setMem .mid m) hm
    have hcount' : (dprocStream (s.setMem .mid m)).count = (dprocStream s).count := by rw [heq]
    cases (exec_of_verdict_ok hv).symm.trans h
    refine ⟨(dprocStream (s.setMem .mid m)).mid, ?_, hwf, fun a => ?_⟩
    · rw [exec_of_verdict_ok ((verdict_setMem .dproc s .mid m).trans hv), accepted, accepted, heq]
      rfl
    · have hread : (accepted .dproc s).midMem = (dprocStream s).mid := rfl
      have hlen : (accepted .dproc s).r0.toNat = (dprocStream s).count := hr0.trans hcount.symm
      rw [hread, hlen]
      split
      · rename_i hin
        obtain ⟨-, hlo, hhi⟩ := hin
        exact hsame a hlo hhi
      · rename_i hout
        refine hframe a ?_
        change a < s.a3.toNat ∨ s.a3.toNat + (dprocStream (s.setMem .mid m)).count ≤ a
        rw [hcount']
        simp only [ht, true_and] at hout
        omega
  · refine ⟨m, exec_setMem_of_reject h ht .mid m, hm, fun a => ?_⟩
    rw [if_neg (fun hin => ht hin.1)]

/-- OUT after an UPROC with other contents there differs from them only where the block writes. -/
theorem uprocRecon_setMem_output {s : State} (hs : s.outMem.wf = true) {m : Mem} (hm : m.wf = true) :
    (uprocRecon s).SameBut s.dstBaseOp (s.dstBaseOp + s.lenOp) (uprocRecon (s.setMem .output m)) :=
  reconBlock_sameBut s.params.tapsRC s.midMem (upsampleRatio s.lenOp s.a1Op) s.a1Op s.srcBaseOp
    (r := s.recon) (r' := (s.setMem .output m).recon)
    ⟨rfl, hs, hm, fun _ hlo hhi => absurd hhi (Nat.not_lt.mpr hlo)⟩ s.lenOp

/-- The block of an UPROC writes OUT at its own range only. -/
theorem uprocRecon_out {s : State} (hs : s.outMem.wf = true) :
    (uprocRecon s).out.wf = true ∧
      ∀ a, (a < s.dstBaseOp ∨ s.dstBaseOp + s.lenOp ≤ a) → (uprocRecon s).out.read a = s.outMem.read a :=
  reconBlock_out s.params.tapsRC s.midMem (upsampleRatio s.lenOp s.a1Op) s.a1Op s.srcBaseOp s.dstBaseOp s.recon hs
    s.lenOp

theorem toNat_zext64 (w : BitVec 32) : (zext64 w).toNat = w.toNat := by
  rw [zext64, BitVec.toNat_setWidth, Nat.mod_eq_of_lt (by omega)]

/-- UPROC does not read OUT: with other contents there it writes the same elements and leaves the others alone. -/
theorem exec_uproc_setMem_output {s t : State} (h : exec .uproc s = .next t) (hs : s.outMem.wf = true) {m : Mem}
    (hm : m.wf = true) :
    ∃ m', exec .uproc (s.setMem .output m) = .next (t.setMem .output m') ∧ m'.wf = true ∧
      ∀ a, m'.read a =
        if t.err = .ok ∧ s.a3.toNat ≤ a ∧ a < s.a3.toNat + t.r0.toNat then t.outMem.read a else m.read a := by
  by_cases ht : t.err = .ok
  · have hv : verdict .uproc s = .ok := by rwa [← err_of_exec h]
    have hv' : verdict .uproc (s.setMem .output m) = .ok := (verdict_setMem .uproc s .output m).trans hv
    cases (exec_of_verdict_ok hv).symm.trans h
    rw [exec_of_verdict_ok hv']
    by_cases hz : s.lenOp = 0 ∨ s.a1Op = 0
    · refine ⟨m, ?_, hm, fun a => ?_⟩
      · rw [accepted_uproc_of_empty hz, accepted_uproc_of_empty (s := s.setMem .output m) hz]
        rfl
      · have hempty : (accepted .uproc s).r0.toNat = 0 := by rw [accepted_uproc_of_empty hz]; rfl
        rw [if_neg (by omega)]
    · obtain ⟨heq, -, -, hsame⟩ := uprocRecon_setMem_output hs hm
      obtain ⟨hwf, hframe⟩ := uprocRecon_out (s := s.setMem .output m) hm
      refine ⟨(uprocRecon (s.setMem .output m)).out, ?_, hwf, fun a => ?_⟩
      · rw [accepted_uproc_of_block hz, accepted_uproc_of_block (s := s.setMem .output m) hz, heq]
        rfl
      · have hlen : (accepted .uproc s).r0.toNat = s.lenOp := by
          rw [accepted_uproc_of_block hz, State.r0_acceptWith, toNat_zext64]
          rfl
        have hread : (accepted .uproc s).outMem = (uprocRecon s).out := by rw [accepted_uproc_of_block hz]; rfl
        rw [hlen, hread]
        split
        · rename_i hin
          obtain ⟨-, hlo, hhi⟩ := hin
          exact hsame a hlo hhi
        · rename_i hout
          refine hframe a ?_
          change a < s.a3.toNat ∨ s.a3.toNat + s.lenOp ≤ a
          simp only [ht, true_and] at hout
          omega
  · refine ⟨m, exec_setMem_of_reject h ht .output m, hm, fun a => ?_⟩
    rw [if_neg (fun hin => ht hin.1)]

/-- Settles O47: the frames of the accepted states, and two runs from states that differ in one space. -/
theorem buffersReachedByTheirCommands : Obligations.BuffersReachedByTheirCommands := by
  unfold Obligations.BuffersReachedByTheirCommands
  intro i s t h
  have hframe : t.inMem = s.inMem ∧ (i ≠ .dproc → t.midMem = s.midMem) ∧ (i ≠ .uproc → t.outMem = s.outMem) := by
    obtain ⟨-, rfl⟩ | ⟨-, rfl⟩ := exec_cases h
    · exact ⟨inMem_accepted i s, fun hi => midMem_accepted hi s, fun hi => outMem_accepted hi s⟩
    · exact ⟨rfl, fun _ => rfl, fun _ => rfl⟩
  obtain ⟨hin, hmid, hout⟩ := hframe
  refine ⟨hin, hmid, hout, fun m => ⟨fun hi => exec_setMem (reaches_input hi) h m,
    fun hd hu => exec_setMem (reaches_mid hd hu) h m, ?_, fun hi => exec_setMem (reaches_output hi) h m, ?_⟩⟩
  · rintro rfl hs hm
    exact exec_dproc_setMem_mid h hs hm
  · rintro rfl hs hm
    exact exec_uproc_setMem_output h hs hm

end Sys2Proof.Machine
end

section
/-! PROOFS. The host's moves, hardware reset, and what every step keeps (10 R34, R44, R48; 60 R200, R205; 70 R220, R234). -/

namespace Sys2Proof.Machine

/-! ### What one move does -/

/-- A step with a move pending makes that move. -/
theorem step_of_moves {s : State} {m : HostMove} {rest : List HostMove} (h : s.moves = m :: rest) :
    step s = hostMove m (takeMove rest s) := by
  rw [step, nextMove, h]

/-- Settles O6: with no move in the list, the step has no move to make. -/
theorem idleStepKeepsState : Obligations.IdleStepKeepsState := by
  unfold Obligations.IdleStepKeepsState
  intro s h
  rw [step, nextMove, h]

theorem zext64_lt (w : BitVec 32) : (zext64 w).toNat < 2 ^ 32 := by
  rw [toNat_zext64]
  exact w.isLt

@[simp] theorem setWidth_zext64 (w : BitVec 32) : (zext64 w).setWidth 32 = w := by simp [zext64]

/-- Settles O5: the move issues the word, and issuing it runs its command or rejects it. -/
theorem stepRunsTheDecodedCommand : Obligations.StepRunsTheDecodedCommand := by
  unfold Obligations.StepRunsTheDecodedCommand
  intro s w rest h
  have hstep : step s = issue w (takeMove rest s) := (step_of_moves h).trans (hostMove_issueMove w _)
  constructor
  · intro i hi
    rw [hstep, issue, hi]
    rfl
  · intro e he
    rw [hstep, issue, he]
    rfl

/-- A write of a value that fits its register. -/
theorem hostMove_writeReg {n : Nat} {r : Reg} {v : BitVec 64} (hn : regOfNumber n = some r)
    (hv : v.toNat < 2 ^ regWidth r) (s : State) : hostMove (.writeReg n v) s = writeRegister r v s := by
  rw [hostMove, hostWriteReg, hn]
  exact if_pos hv

/-- A read of a register that holds a value. -/
theorem hostMove_readReg {n : Nat} {r : Reg} {v : BitVec 64} {s : State} (hn : regOfNumber n = some r)
    (hv : registerValue r s = some v) : hostMove (.readReg n) s = .next { s with reply := some v } := by
  rw [hostMove, hostReadReg, hn]
  simp only [hv]

/-- Settles O7, one register after the other; the 32-bit registers take every value that `zext64` gives. -/
theorem registerAccesses : Obligations.RegisterAccesses := by
  unfold Obligations.RegisterAccesses
  intro s v w rest
  have hwide : v.toNat < 2 ^ 64 := v.isLt
  have hnarrow : (zext64 w).toNat < 2 ^ 32 := zext64_lt w
  refine ⟨fun h => ?_, fun h => ?_, fun h => ?_, fun h => ?_, fun h => ?_, fun h => ?_, fun h => ?_, fun h => ?_,
    fun h => ?_, fun h => ?_, fun h => ?_, fun h => ?_⟩ <;> rw [step_of_moves h]
  · exact hostMove_writeReg (r := .a0) rfl hwide _
  · rw [hostMove_writeReg (r := .a1) rfl hnarrow, writeRegister, setWidth_zext64]
    rfl
  · rw [hostMove_writeReg (r := .a2) rfl hnarrow, writeRegister, setWidth_zext64]
    rfl
  · rw [hostMove_writeReg (r := .a3) rfl hnarrow, writeRegister, setWidth_zext64]
    rfl
  · exact hostMove_writeReg (r := .status) rfl hnarrow _
  · exact hostMove_writeReg (r := .r0) rfl hwide _
  · exact hostMove_readReg (r := .a0) rfl rfl
  · exact hostMove_readReg (r := .a1) rfl rfl
  · exact hostMove_readReg (r := .a2) rfl rfl
  · exact hostMove_readReg (r := .a3) rfl rfl
  · exact hostMove_readReg (r := .status) rfl rfl
  · exact hostMove_readReg (r := .r0) rfl rfl

/-- Settles O8: the write of one element of one space, and the read of an element. -/
theorem elementAccesses : Obligations.ElementAccesses := by
  unfold Obligations.ElementAccesses
  intro s sp idx w rest hidx
  have hsize : idx < (takeMove rest s).size sp := by cases sp <;> exact hidx
  constructor
  · intro h hwf
    have hmem : (takeMove rest s).mem sp = s.mem sp := by cases sp <;> rfl
    refine ⟨(takeMove rest s).setMem sp ((s.mem sp).write idx w), ?_, ?_, fun j hj => ?_, fun sp' hsp => ?_, ?_⟩
    · rw [step_of_moves h, hostMove, hostWriteElem, if_pos hsize, hmem]
    · rw [State.mem_setMem, Mem.read_write_same hwf]
    · rw [State.mem_setMem, Mem.read_write_ne hwf hj]
    · rw [State.mem_setMem_ne _ _ _ _ hsp]
      cases sp' <;> rfl
    · cases sp <;> rfl
  · intro h
    rw [step_of_moves h, hostMove, hostReadElem, if_pos hsize]
    cases sp <;> rfl

theorem regOfNumber_of_ge {n : Nat} (h : 7 ≤ n) : regOfNumber n = none := by
  obtain ⟨j, rfl⟩ := Nat.exists_eq_add_of_le' h
  rfl

/-- The registers 1 to 5 have 32 bits (10 R44). -/
theorem regWidth_of_narrow {n : Nat} (h1 : 1 ≤ n) (h5 : n ≤ 5) : ∃ r, regOfNumber n = some r ∧ regWidth r = 32 := by
  interval_cases n
  · exact ⟨.a1, rfl, rfl⟩
  · exact ⟨.a2, rfl, rfl⟩
  · exact ⟨.a3, rfl, rfl⟩
  · exact ⟨.cmd, rfl, rfl⟩
  · exact ⟨.status, rfl, rfl⟩

/-- Settles O9: each access fails the test that the move makes before it does anything. -/
theorem accessesTheHostLacksStop : Obligations.AccessesTheHostLacksStop := by
  unfold Obligations.AccessesTheHostLacksStop
  intro s n idx v w sp rest
  have hsize : s.size sp ≤ idx → ¬ idx < (takeMove rest s).size sp := by
    intro hidx
    cases sp <;> exact Nat.not_lt.mpr hidx
  refine ⟨fun hn h => ?_, fun hn h => ?_, fun h => ?_, fun h1 h5 hv h => ?_, fun hidx h => ?_, fun hidx h => ?_⟩ <;>
    rw [step_of_moves h, hostMove]
  · rw [hostWriteReg, regOfNumber_of_ge hn]
  · rw [hostReadReg, regOfNumber_of_ge hn]
  · rfl
  · obtain ⟨r, hr, hwidth⟩ := regWidth_of_narrow h1 h5
    rw [hostWriteReg, hr]
    exact if_neg (by rw [hwidth]; omega)
  · rw [hostWriteElem, if_neg (hsize hidx)]
  · rw [hostReadElem, if_neg (hsize hidx)]

/-! ### Hardware reset (10 R48, 70 R220) -/

theorem State.statusWord_hardwareReset (s : State) : s.hardwareReset.statusWord = 0x00000000#32 := by
  change State.reset.statusWord = _
  decide

/-- Settles O10: a hardware reset gives the block the values of `State.reset`. -/
theorem resetClearsTheBlock : Obligations.ResetClearsTheBlock := by
  unfold Obligations.ResetClearsTheBlock
  intro t ht
  have hblock : ∃ s : State, t = s.hardwareReset := by
    rcases ht with rfl | ⟨s, rest, hmoves, hstep⟩
    · exact ⟨State.reset, rfl⟩
    · rw [step_of_moves hmoves] at hstep
      cases hstep
      exact ⟨takeMove rest s, rfl⟩
  obtain ⟨s, rfl⟩ := hblock
  exact ⟨fun j => ⟨FirState.clear_get j, FirState.clear_get j⟩, rfl, rfl, rfl, rfl, rfl, rfl, rfl, rfl, rfl, rfl, rfl,
    rfl, s.statusWord_hardwareReset⟩

/-- Settles O11: the reset move keeps the host's buffers, the parameters and the moves that follow. -/
theorem hardwareResetKeepsBuffers : Obligations.HardwareResetKeepsBuffers := by
  unfold Obligations.HardwareResetKeepsBuffers
  intro s rest h
  exact ⟨(takeMove rest s).hardwareReset, step_of_moves h, rfl, rfl, rfl, rfl, rfl⟩

/-- Settles O51, by evaluating the invariant on the one closed state. -/
theorem resetMeetsTheInvariant : Obligations.ResetMeetsTheInvariant := by
  unfold Obligations.ResetMeetsTheInvariant
  decide +kernel

/-! ### What a step can do, and what every step keeps -/

/-- Two states of the same block and buffers: only the operands, the pending moves and the reply may differ. -/
def SameBlock (s u : State) : Prop :=
  u = { s with a0 := u.a0, a1 := u.a1, a2 := u.a2, a3 := u.a3, moves := u.moves, reply := u.reply }

/-- What a step that answers a next state has done: nothing to the block, an accepted or a rejected command, the write of
a buffer element, or a hardware reset. -/
theorem step_effect {s t : State} (h : step s = .next t) :
    ∃ u, SameBlock s u ∧
      (t = u ∨ (∃ i, verdict i u = .ok ∧ t = accepted i u) ∨ (∃ c, c ≠ .ok ∧ t = u.reject c) ∨
        (∃ sp idx w, t = u.setMem sp ((u.mem sp).write idx w)) ∨
        (notResetNext s = false ∧ t = u.hardwareReset)) := by
  rcases step_cases s with ⟨-, hstep⟩ | ⟨m, rest, hmoves, hstep⟩
  · cases hstep.symm.trans h
    exact ⟨s, rfl, .inl rfl⟩
  · rw [hstep] at h
    obtain ⟨v, rfl⟩ | ⟨w, rfl⟩ | ⟨w, rfl⟩ | ⟨w, rfl⟩ | rfl | ⟨w, hissue⟩ | ⟨v, rfl⟩ | ⟨sp, idx, w, -, rfl⟩ |
      ⟨rfl, rfl⟩ := hostMove_cases h
    · exact ⟨{ takeMove rest s with a0 := v }, rfl, .inl rfl⟩
    · exact ⟨{ takeMove rest s with a1 := w }, rfl, .inl rfl⟩
    · exact ⟨{ takeMove rest s with a2 := w }, rfl, .inl rfl⟩
    · exact ⟨{ takeMove rest s with a3 := w }, rfl, .inl rfl⟩
    · exact ⟨takeMove rest s, rfl, .inl rfl⟩
    · refine ⟨takeMove rest s, rfl, ?_⟩
      obtain ⟨i, -, hi⟩ | ⟨e, -, he⟩ := issue_cases w (takeMove rest s)
      · rw [hi] at hissue
        obtain ⟨hv, ht⟩ | ⟨hv, ht⟩ := exec_cases hissue
        · exact .inr (.inl ⟨i, hv, ht⟩)
        · exact .inr (.inr (.inl ⟨_, hv, ht⟩))
      · cases he.symm.trans hissue
        exact .inr (.inr (.inl ⟨.illegal, by decide, rfl⟩))
    · exact ⟨{ takeMove rest s with reply := some v }, rfl, .inl rfl⟩
    · exact ⟨takeMove rest s, rfl, .inr (.inr (.inr (.inl ⟨sp, idx, w, rfl⟩)))⟩
    · exact ⟨takeMove rest s, rfl, .inr (.inr (.inr (.inr ⟨by simp [notResetNext, hmoves], rfl⟩)))⟩

/-- Settles O50: none of the effects of a step is on the parameters. -/
theorem parametersNeverChange : Obligations.ParametersNeverChange := by
  unfold Obligations.ParametersNeverChange
  intro s t h
  obtain ⟨u, hu, heffect⟩ := step_effect h
  have hsame : u.params = s.params := by rw [hu]
  rw [← hsame]
  obtain rfl | ⟨i, -, rfl⟩ | ⟨c, -, rfl⟩ | ⟨sp, idx, w, rfl⟩ | ⟨-, rfl⟩ := heffect <;> simp

/-- Settles O43: only a hardware reset clears STICKY, and a rejection only adds a bit. -/
theorem stickyBitsStay : Obligations.StickyBitsStay := by
  unfold Obligations.StickyBitsStay
  intro s t hn h
  obtain ⟨u, hu, heffect⟩ := step_effect h
  have hsame : u.sticky = s.sticky := by rw [hu]
  rw [← hsame]
  obtain rfl | ⟨i, -, rfl⟩ | ⟨c, -, rfl⟩ | ⟨sp, idx, w, rfl⟩ | ⟨hreset, -⟩ := heffect
  · exact BitVec.and_self
  · rw [sticky_accepted, BitVec.and_self]
  · ext b hb
    simp +contextual
  · rw [State.sticky_setMem, BitVec.and_self]
  · rw [hn] at hreset
    cases hreset

/-! ### The canonical form of the buffers (20 R62) -/

theorem buffersWf_iff (s : State) :
    s.buffersWf = true ↔ s.inMem.wf = true ∧ s.midMem.wf = true ∧ s.outMem.wf = true := by
  simp [State.buffersWf, and_assoc]

theorem buffersWf_accepted {s : State} (h : s.buffersWf = true) (i : Instr) : (accepted i s).buffersWf = true := by
  obtain ⟨hin, hmid, hout⟩ := (buffersWf_iff s).mp h
  refine (buffersWf_iff _).mpr ⟨by rwa [inMem_accepted], ?_, ?_⟩
  · by_cases hi : i = .dproc
    · subst hi
      exact (dprocStream_mid hmid).1
    · rwa [midMem_accepted hi]
  · by_cases hi : i = .uproc
    · subst hi
      by_cases hz : s.lenOp = 0 ∨ s.a1Op = 0
      · rwa [accepted_uproc_of_empty hz]
      · rw [accepted_uproc_of_block hz]
        exact (uprocRecon_out hout).1
    · rwa [outMem_accepted hi]

/-- Settles O53: every write of an element keeps the form, the host's and those of the two pipelines. -/
theorem stepKeepsBuffersCanonical : Obligations.StepKeepsBuffersCanonical := by
  unfold Obligations.StepKeepsBuffersCanonical
  intro s t hs h
  obtain ⟨u, hu, heffect⟩ := step_effect h
  have hwf : u.buffersWf = true := by rw [hu]; exact hs
  obtain ⟨hin, hmid, hout⟩ := (buffersWf_iff u).mp hwf
  obtain rfl | ⟨i, -, rfl⟩ | ⟨c, -, rfl⟩ | ⟨sp, idx, w, rfl⟩ | ⟨-, rfl⟩ := heffect
  · exact hwf
  · exact buffersWf_accepted hwf i
  · exact hwf
  · rw [buffersWf_iff]
    cases sp with
    | input => exact ⟨Mem.wf_write hin idx w, hmid, hout⟩
    | mid => exact ⟨hin, Mem.wf_write hmid idx w, hout⟩
    | output => exact ⟨hin, hmid, Mem.wf_write hout idx w⟩
  · exact hwf

end Sys2Proof.Machine
end

section
/-! PROOFS. Rounding is to nearest, ties to even (00 R13). -/

namespace Sys2Proof.Machine

/-! ### Rounding to an integer -/

/-- Rounding to an integer errs by at most one half, and by one half only to an even integer. -/
theorem roundDiv_error (num den : Nat) (hd : 0 < den) :
    2 * |(roundDiv num den : Int) * den - num| ≤ den ∧
      (2 * |(roundDiv num den : Int) * den - num| = den → roundDiv num den % 2 = 0) := by
  have hr := Nat.mod_lt num hd
  have hnum : (num : Int) = (num / den : Nat) * den + (num % den : Nat) := by
    exact_mod_cast (Nat.div_add_mod' num den).symm
  unfold roundDiv
  generalize num / den = k at hnum ⊢
  generalize num % den = r at hnum hr ⊢
  rw [hnum]
  split
  · rename_i hup
    have herr : ((k + 1 : Nat) : Int) * den - (k * den + r) = den - r := by push_cast; ring
    rw [herr, abs_of_nonneg (by omega)]
    omega
  · rename_i hdown
    have herr : (k : Int) * den - (k * den + r) = -r := by ring
    rw [herr, abs_neg, abs_of_nonneg (by omega)]
    omega

/-- No integer is nearer than the rounded one, and where another one is as near the rounded one is even. -/
theorem roundDiv_nearest (num den q : Nat) (hd : 0 < den) :
    |(roundDiv num den : Int) * den - num| ≤ |(q : Int) * den - num| ∧
      (|(roundDiv num den : Int) * den - num| = |(q : Int) * den - num| → q ≠ roundDiv num den →
        roundDiv num den % 2 = 0) := by
  obtain ⟨herr, htie⟩ := roundDiv_error num den hd
  generalize roundDiv num den = k at herr htie ⊢
  by_cases hq : q = k
  · subst hq
    exact ⟨le_rfl, fun _ hne => absurd rfl hne⟩
  · -- two integers are at least `den` apart, so the errors of both together are at least `den`
    have hapart : (den : Int) ≤ |(q : Int) * den - num| + |(k : Int) * den - num| := by
      have hstep : (1 : Int) ≤ |(q : Int) - k| := Int.one_le_abs (by omega)
      have hsub : ((q : Int) - k) * den = (q * den - num) - (k * den - num) := by ring
      calc (den : Int) ≤ |(q : Int) - k| * den := by nlinarith
        _ = |(q * den - num) - (k * den - num : Int)| := by rw [← hsub, abs_mul, Nat.abs_cast]
        _ ≤ _ := abs_sub _ _
    exact ⟨by omega, fun heq _ => htie (by omega)⟩

/-! ### Representable magnitudes -/

/-- A pattern that is not subnormal has an exponent field and a fraction. -/
theorem exists_normal {prec m : Nat} (h : 2 ^ (prec - 1) ≤ m) :
    ∃ e f, f < 2 ^ (prec - 1) ∧ m = (e + 1) * 2 ^ (prec - 1) + f := by
  have hpos : 0 < 2 ^ (prec - 1) := Nat.two_pow_pos _
  have hdiv : 1 ≤ m / 2 ^ (prec - 1) := (Nat.le_div_iff_mul_le hpos).2 (by omega)
  refine ⟨m / 2 ^ (prec - 1) - 1, m % 2 ^ (prec - 1), Nat.mod_lt _ hpos, ?_⟩
  rw [Nat.sub_add_cancel hdiv]
  exact (Nat.div_add_mod' _ _).symm

theorem two_pow_prec {prec : Nat} (hp : 0 < prec) : 2 ^ prec = 2 * 2 ^ (prec - 1) := by
  rw [← Nat.pow_succ', Nat.succ_eq_add_one, Nat.sub_add_cancel hp]

/-- A larger pattern holds a larger magnitude. -/
theorem strictMono_magValue {prec : Nat} (hp : 0 < prec) : StrictMono (magValue prec) := by
  intro m n h
  by_contra hle
  have hround := roundMag_mono (prec := prec) (n := magValue prec n * 1) (n' := magValue prec m * 1) hp
    Nat.one_pos Nat.one_pos (by omega)
  rw [roundMag_magValue prec n 1 hp Nat.one_pos, roundMag_magValue prec m 1 hp Nat.one_pos] at hround
  omega

/-- A magnitude is a multiple of 2^sh or lies below the least significand of that exponent. -/
theorem dvd_magValue_or_lt (prec m sh : Nat) :
    2 ^ sh ∣ magValue prec m ∨ (0 < sh ∧ magValue prec m < 2 ^ (prec - 1) * 2 ^ sh) := by
  rcases Nat.eq_zero_or_pos sh with rfl | hsh
  · exact .inl (one_dvd _)
  rcases Nat.lt_or_ge m (2 ^ (prec - 1)) with hsub | hnormal
  · refine .inr ⟨hsh, ?_⟩
    rw [magValue_subnormal prec m hsub]
    exact Nat.lt_of_lt_of_le hsub (Nat.le_mul_of_pos_right _ (Nat.two_pow_pos sh))
  · obtain ⟨e, f, hf, rfl⟩ := exists_normal hnormal
    rw [magValue_normal prec e f hf]
    rcases Nat.lt_or_ge e sh with hlt | hge
    · refine .inr ⟨hsh, ?_⟩
      calc (2 ^ (prec - 1) + f) * 2 ^ e < (2 * 2 ^ (prec - 1)) * 2 ^ e :=
            Nat.mul_lt_mul_of_pos_right (by omega) (Nat.two_pow_pos e)
        _ = 2 ^ (prec - 1) * 2 ^ (e + 1) := by ring
        _ ≤ 2 ^ (prec - 1) * 2 ^ sh := Nat.mul_le_mul_left _ (Nat.pow_le_pow_right (by omega) hlt)
    · exact .inl (Dvd.dvd.mul_left (pow_dvd_pow 2 hge) _)

/-- The magnitude that a fraction rounds to: its rounded significand at its shift. -/
theorem magValue_roundMag {prec : Nat} (hp : 0 < prec) (num den : Nat) :
    magValue prec (roundMag prec num den) =
      roundDiv num (den * 2 ^ roundShift prec num den) * 2 ^ roundShift prec num den := by
  have hle := roundSignificand_le prec num den
  have hge := le_roundSignificand prec num den hp
  have hpos : 0 < 2 ^ (prec - 1) := Nat.two_pow_pos _
  rw [two_pow_prec hp] at hle
  unfold roundMag
  generalize roundDiv num (den * 2 ^ roundShift prec num den) = sig at hle hge ⊢
  generalize roundShift prec num den = sh at hge ⊢
  rcases Nat.lt_or_ge sig (2 ^ (prec - 1)) with hsub | hnormal
  · obtain rfl : sh = 0 := by
      by_contra hsh
      exact absurd (hge (Nat.pos_of_ne_zero hsh)) (Nat.not_le.mpr hsub)
    rw [Nat.zero_mul, Nat.zero_add, magValue_subnormal prec sig hsub, Nat.pow_zero, Nat.mul_one]
  · obtain ⟨f, rfl⟩ : ∃ f, sig = 2 ^ (prec - 1) + f := Nat.exists_eq_add_of_le hnormal
    rcases Nat.lt_or_ge f (2 ^ (prec - 1)) with hf | hcarry
    · rw [← magValue_normal prec sh f hf]
      congr 1
      ring
    · -- the significand has rounded up to 2^prec and carries into the exponent field
      obtain rfl : f = 2 ^ (prec - 1) := by omega
      have hpat : sh * 2 ^ (prec - 1) + (2 ^ (prec - 1) + 2 ^ (prec - 1)) =
          (sh + 1 + 1) * 2 ^ (prec - 1) + 0 := by ring
      rw [hpat, magValue_normal prec (sh + 1) 0 hpos]
      ring

/-! ### Nearest -/

/-- A pattern is even when its significand is. -/
theorem roundMag_mod_two {prec : Nat} (hp : 2 ≤ prec) (num den : Nat) :
    roundMag prec num den % 2 = roundDiv num (den * 2 ^ roundShift prec num den) % 2 := by
  have heven : 2 ∣ roundShift prec num den * 2 ^ (prec - 1) := Dvd.dvd.mul_left (dvd_pow_self 2 (by omega)) _
  unfold roundMag
  generalize roundShift prec num den * 2 ^ (prec - 1) = e at heven ⊢
  omega

/-- The rounded magnitude is nearest, and where another pattern is as near the rounded one is even. -/
theorem roundMag_nearest_abs {prec : Nat} (hp : 2 ≤ prec) (num : Nat) {den : Nat} (hd : 0 < den) (m : Nat) :
    |(magValue prec (roundMag prec num den) : Int) * den - num| ≤ |(magValue prec m : Int) * den - num| ∧
      (|(magValue prec (roundMag prec num den) : Int) * den - num| = |(magValue prec m : Int) * den - num| →
        m ≠ roundMag prec num den → roundMag prec num den % 2 = 0) := by
  have hp0 : 0 < prec := by omega
  have hd' : 0 < den * 2 ^ roundShift prec num den := Nat.mul_pos hd (Nat.two_pow_pos _)
  have hval := magValue_roundMag hp0 num den
  -- an error of a multiple of 2^sh, written as one of the significand
  have hsig : ∀ q : Nat, ((q * 2 ^ roundShift prec num den : Nat) : Int) * den - num =
      (q : Int) * ((den * 2 ^ roundShift prec num den : Nat) : Int) - num := by
    intro q
    push_cast
    ring
  rcases dvd_magValue_or_lt prec m (roundShift prec num den) with ⟨q, hq⟩ | ⟨hsh, hlt⟩
  · rw [Nat.mul_comm] at hq
    obtain ⟨hle, htie⟩ := roundDiv_nearest num (den * 2 ^ roundShift prec num den) q hd'
    rw [hval, hq, hsig, hsig]
    refine ⟨hle, fun heq hne => ?_⟩
    have hne' : q ≠ roundDiv num (den * 2 ^ roundShift prec num den) := by
      rintro rfl
      exact hne ((strictMono_magValue hp0).injective (hq.trans hval.symm))
    rw [roundMag_mod_two hp]
    exact htie heq hne'
  · -- the least significand of the exponent lies between the other magnitude and the number
    have hbelow : magValue prec m * den < 2 ^ (prec - 1) * 2 ^ roundShift prec num den * den :=
      Nat.mul_lt_mul_of_pos_right hlt hd
    have habove : 2 ^ (prec - 1) * 2 ^ roundShift prec num den * den ≤ num :=
      (Nat.le_div_iff_mul_le hd).mp (shift_le_div prec num den hp0 hsh)
    zify at hbelow habove
    obtain ⟨hle, -⟩ := roundDiv_nearest num (den * 2 ^ roundShift prec num den) (2 ^ (prec - 1)) hd'
    rw [← hsig, ← hsig, ← hval] at hle
    push_cast at hle
    rw [abs_of_nonpos (a := _ * _ * _ - _) (by omega)] at hle
    rw [abs_of_neg (a := (magValue prec m : Int) * den - num) (by omega)]
    exact ⟨by omega, fun heq => by omega⟩

/-- The same in the terms of the natural distance. -/
theorem roundMag_nearest {prec : Nat} (hp : 2 ≤ prec) (num : Nat) {den : Nat} (hd : 0 < den) (m : Nat) :
    ((magValue prec (roundMag prec num den) : Int) * den - num).natAbs ≤ ((magValue prec m : Int) * den - num).natAbs ∧
      (((magValue prec (roundMag prec num den) : Int) * den - num).natAbs =
          ((magValue prec m : Int) * den - num).natAbs →
        m ≠ roundMag prec num den → roundMag prec num den % 2 = 0) := by
  obtain ⟨hle, htie⟩ := roundMag_nearest_abs hp num hd m
  exact ⟨by zify; exact hle, fun heq => htie (by zify at heq; exact heq)⟩

/-- Settles O54: both formats have at least two bits of significand. -/
theorem roundingIsNearestEven : Obligations.RoundingIsNearestEven := by
  unfold Obligations.RoundingIsNearestEven
  intro f num den m hf hd
  have hp : 2 ≤ f.prec := by rcases hf with rfl | rfl <;> decide
  exact roundMag_nearest hp num hd m

end Sys2Proof.Machine
end

section
/-! PROOFS. The primitives give correctly rounded results (00 R13). -/

namespace Sys2Proof.Machine

/-! ### Where rounding overflows -/

/-- A number rounds to the pattern of infinity, or past it, from half a unit above the largest finite magnitude on: the tie
there goes to the pattern of infinity, which is even. -/
theorem le_roundMag_iff_of_even {prec inf : Nat} (hp : 2 ≤ prec) (heven : inf % 2 = 0) (hinf : 0 < inf) (num : Nat)
    {den : Nat} (hd : 0 < den) :
    inf ≤ roundMag prec num den ↔ (magValue prec (inf - 1) + magValue prec inf) * den ≤ 2 * num := by
  have hmono := strictMono_magValue (prec := prec) (by omega)
  obtain ⟨hlast, -⟩ := roundMag_nearest hp num hd (inf - 1)
  obtain ⟨hnext, htie⟩ := roundMag_nearest hp num hd inf
  have hstep : magValue prec (inf - 1) * den < magValue prec inf * den :=
    Nat.mul_lt_mul_of_pos_right (hmono (by omega)) hd
  generalize roundMag prec num den = R at *
  rw [Nat.add_mul]
  constructor
  · intro hle
    have hval : magValue prec inf * den ≤ magValue prec R * den := Nat.mul_le_mul_right _ (hmono.monotone hle)
    omega
  · intro hle
    by_contra hlt
    have hval : magValue prec R * den ≤ magValue prec (inf - 1) * den :=
      Nat.mul_le_mul_right _ (hmono.monotone (by omega))
    -- the magnitude before infinity is the only one as near as infinity, and its pattern is odd
    have heq : magValue prec R * den = magValue prec (inf - 1) * den := by omega
    have hR : R = inf - 1 := hmono.injective (Nat.eq_of_mul_eq_mul_right hd heq)
    have := htie (by omega) (by omega)
    omega

theorem infMag32_le_roundMag_iff (num : Nat) {den : Nat} (hd : 0 < den) :
    b32.infMag ≤ roundMag b32.prec num den ↔ overflow32 * den ≤ num := by
  have hsum : magValue b32.prec (b32.infMag - 1) + magValue b32.prec b32.infMag = 2 * overflow32 := by decide +kernel
  rw [le_roundMag_iff_of_even (by decide) (by decide) (by decide) num hd, hsum, Nat.mul_assoc]
  omega

theorem infMag64_le_roundMag_iff (num : Nat) {den : Nat} (hd : 0 < den) :
    b64.infMag ≤ roundMag b64.prec num den ↔ overflow64 * den ≤ num := by
  have hsum : magValue b64.prec (b64.infMag - 1) + magValue b64.prec b64.infMag = 2 * overflow64 := by decide +kernel
  rw [le_roundMag_iff_of_even (by decide) (by decide) (by decide) num hd, hsum, Nat.mul_assoc]
  omega

/-! ### Signed numbers -/

theorem signedInt_of_neg (v : Nat) : signedInt true v = -(v : Int) := rfl

theorem signedInt_of_pos (v : Nat) : signedInt false v = (v : Int) := rfl

theorem signedInt_mul_natCast (s : Bool) (v d : Nat) : signedInt s v * d = signedInt s (v * d) := by
  cases s <;> simp [signedInt]

/-- A number of the sign of `num` is as far from it as their magnitudes are apart. -/
theorem natAbs_signedInt_sub {num : Int} {neg : Bool} (hneg : num ≠ 0 → neg = decide (num < 0)) {v : Nat}
    (hv : num = 0 → v = 0) : (signedInt neg v - num).natAbs = ((v : Int) - num.natAbs).natAbs := by
  rcases lt_trichotomy num 0 with h | h | h
  · rw [hneg h.ne, decide_eq_true h, signedInt_of_neg]
    omega
  · rw [h, hv h, signedInt_zero]
    rfl
  · rw [hneg h.ne', decide_eq_false (by omega), signedInt_of_pos]
    omega

/-- Of the two numbers of a magnitude the one of the sign of `num` is the only one at its distance. -/
theorem eq_signedInt_of_natAbs_sub_eq {num x : Int} {neg : Bool} (hneg : num ≠ 0 → neg = decide (num < 0))
    (hx : num = 0 → x = 0) (h : (signedInt neg x.natAbs - num).natAbs = (x - num).natAbs) :
    x = signedInt neg x.natAbs := by
  rcases lt_trichotomy num 0 with hlt | heq | hgt
  · rw [hneg hlt.ne, decide_eq_true hlt, signedInt_of_neg] at h ⊢
    omega
  · rw [hx heq]
    exact (signedInt_zero neg).symm
  · rw [hneg hgt.ne', decide_eq_false (by omega), signedInt_of_pos] at h ⊢
    omega

theorem roundMag_zero {prec den : Nat} (hp : 0 < prec) (hd : 0 < den) : roundMag prec 0 den = 0 := by
  simpa [magValue] using roundMag_magValue prec 0 den hp hd

/-- Rounding a signed number by its magnitude: no number of a representable magnitude is nearer, and where another one is
as near the rounded pattern is even. -/
theorem signedInt_roundMag_nearest {prec : Nat} (hp : 2 ≤ prec) {num : Int} {den : Nat} (hd : 0 < den) {neg : Bool}
    (hneg : num ≠ 0 → neg = decide (num < 0)) {z : Int} {m : Nat} (hz : z.natAbs = magValue prec m) :
    (signedInt neg (magValue prec (roundMag prec num.natAbs den)) * den - num).natAbs ≤ (z * den - num).natAbs ∧
      ((signedInt neg (magValue prec (roundMag prec num.natAbs den)) * den - num).natAbs = (z * den - num).natAbs →
        z ≠ signedInt neg (magValue prec (roundMag prec num.natAbs den)) → roundMag prec num.natAbs den % 2 = 0) := by
  obtain ⟨hle, htie⟩ := roundMag_nearest hp num.natAbs hd m
  have hzero : num = 0 → magValue prec (roundMag prec num.natAbs den) * den = 0 := by
    rintro rfl
    rw [Int.natAbs_zero, roundMag_zero (by omega) hd, (magValue_eq_zero_iff _ _).mpr rfl, Nat.zero_mul]
  have hzd : (z * den).natAbs = magValue prec m * den := by rw [Int.natAbs_mul, hz, Int.natAbs_natCast]
  have hfar : (((z * den).natAbs : Int) - num.natAbs).natAbs ≤ (z * den - num).natAbs := by omega
  rw [signedInt_mul_natCast, natAbs_signedInt_sub hneg hzero, Nat.cast_mul]
  rw [hzd, Nat.cast_mul] at hfar
  refine ⟨hle.trans hfar, fun heq hne => ?_⟩
  by_cases hm : m = roundMag prec num.natAbs den
  · -- the other number of the same magnitude is as near only for an exact zero
    subst hm
    have hzx : num = 0 → z * den = 0 := fun h => Int.natAbs_eq_zero.mp (hzd.trans (hzero h))
    have hx := eq_signedInt_of_natAbs_sub_eq (x := z * den) hneg hzx
      (by rw [hzd, natAbs_signedInt_sub hneg hzero, Nat.cast_mul]; exact heq)
    rw [hzd, ← signedInt_mul_natCast] at hx
    exact absurd (Int.eq_of_mul_eq_mul_right (by omega) hx) hne
  · exact htie (by omega) hm

/-! ### Correctly rounded results -/

theorem finite32_iff (x : F32) : finite32 x = true ↔ ∃ s m, val32 x = .fin s m := by
  unfold finite32
  cases val32 x <;> simp

theorem finite64_iff (x : F64) : finite64 x = true ↔ ∃ s m, val64 x = .fin s m := by
  unfold finite64
  cases val64 x <;> simp

theorem int32_of_val32 {x : F32} {s : Bool} {m : Nat} (h : val32 x = .fin s m) : int32 x = signedInt s m := by
  rw [int32, h]

theorem int64_of_val64 {x : F64} {s : Bool} {m : Nat} (h : val64 x = .fin s m) : int64 x = signedInt s m := by
  rw [int64, h]

theorem overflow32_pos : 0 < overflow32 := by
  unfold overflow32
  positivity

theorem overflow64_pos : 0 < overflow64 := by
  unfold overflow64
  positivity

@[simp] theorem scale_b64 : b64.scale = 1074 := rfl

/-- A rounded number below the overflow threshold is finite, with the rounded magnitude. -/
theorem val32_round32_of_lt (k : Nat) (neg : Bool) {num den : Nat} (hd : 0 < den) (h : num < overflow32 * den) :
    val32 (round32 k (.ratio neg num den)) = .fin neg (magValue b32.prec (roundMag b32.prec num den)) := by
  rw [val32_round32_ratio, if_neg (by rw [infMag32_le_roundMag_iff num hd]; omega)]

theorem val64_round64_of_lt (k : Nat) (neg : Bool) {num den : Nat} (hd : 0 < den) (h : num < overflow64 * den) :
    val64 (round64 k (.ratio neg num den)) = .fin neg (magValue b64.prec (roundMag b64.prec num den)) := by
  rw [val64_round64_ratio, if_neg (by rw [infMag64_le_roundMag_iff num hd]; omega)]

/-- From the overflow threshold on a number rounds to the infinity of its sign. -/
theorem round32_of_overflow (k : Nat) (neg : Bool) {num den : Nat} (hd : 0 < den) (h : overflow32 * den ≤ num) :
    round32 k (.ratio neg num den) = if neg then 0xFF800000#32 else 0x7F800000#32 := by
  rw [round32, Nat.min_eq_right ((infMag32_le_roundMag_iff num hd).mpr h)]
  cases neg <;> rfl

theorem round64_of_overflow (k : Nat) (neg : Bool) {num den : Nat} (hd : 0 < den) (h : overflow64 * den ≤ num) :
    round64 k (.ratio neg num den) = if neg then 0xFFF0000000000000#64 else 0x7FF0000000000000#64 := by
  rw [round64, Nat.min_eq_right ((infMag64_le_roundMag_iff num hd).mpr h)]
  cases neg <;> rfl

theorem signedMag_mod_two (n : Nat) (hn : 1 ≤ n) (neg : Bool) (m : Nat) : signedMag (2 ^ n) neg m % 2 = m % 2 := by
  have htop : 2 ∣ 2 ^ n := dvd_pow_self 2 (by omega)
  cases neg <;> simp only [signedMag, if_true, Bool.false_eq_true, if_false] <;> omega

/-- The lowest bit of a finite rounded pattern is that of its magnitude pattern. -/
theorem round32_getLsbD_zero (k : Nat) (neg : Bool) {num den : Nat} (hd : 0 < den) (h : num < overflow32 * den)
    (heven : roundMag b32.prec num den % 2 = 0) : (round32 k (.ratio neg num den)).getLsbD 0 = false := by
  have hlt : ¬ b32.infMag ≤ roundMag b32.prec num den := by rw [infMag32_le_roundMag_iff num hd]; omega
  rw [round32, Nat.min_eq_left (by omega), BitVec.getLsbD_ofNat, Nat.testBit_zero, signedMag_mod_two 31 (by omega), heven]
  rfl

theorem round64_getLsbD_zero (k : Nat) (neg : Bool) {num den : Nat} (hd : 0 < den) (h : num < overflow64 * den)
    (heven : roundMag b64.prec num den % 2 = 0) : (round64 k (.ratio neg num den)).getLsbD 0 = false := by
  have hlt : ¬ b64.infMag ≤ roundMag b64.prec num den := by rw [infMag64_le_roundMag_iff num hd]; omega
  rw [round64, Nat.min_eq_left (by omega), BitVec.getLsbD_ofNat, Nat.testBit_zero, signedMag_mod_two 63 (by omega), heven]
  rfl

/-- The rounding of an exact number is correctly rounded binary32 (00 R13). -/
theorem correctlyRounded32_round32 (k : Nat) {num : Int} {den : Nat} (hd : 0 < den) {neg : Bool}
    (hneg : num ≠ 0 → neg = decide (num < 0)) :
    CorrectlyRounded32 num den (round32 k (.ratio neg num.natAbs den)) := by
  constructor
  · intro hlt
    have hval := val32_round32_of_lt k neg hd hlt
    obtain ⟨-, hmsb, -⟩ := decodeFloat_eq_fin hval
    refine ⟨(finite32_iff _).mpr ⟨_, _, hval⟩, fun hnum => hmsb.symm.trans (hneg hnum), fun z hz => ?_⟩
    obtain ⟨s, m, hzval⟩ := (finite32_iff z).mp hz
    obtain ⟨-, -, hmag⟩ := decodeFloat_eq_fin hzval
    have habs : (int32 z).natAbs = magValue b32.prec (z.toNat % 2 ^ 31) := by
      rw [int32_of_val32 hzval, natAbs_signedInt, hmag]
    obtain ⟨hle, htie⟩ := signedInt_roundMag_nearest (by decide) hd hneg habs
    rw [int32_of_val32 hval]
    exact ⟨hle, fun heq hne => round32_getLsbD_zero k neg hd hlt (htie heq hne)⟩
  · intro hover
    have hnum : num ≠ 0 := by
      rintro rfl
      exact absurd hover (by rw [Int.natAbs_zero]; exact Nat.not_le.mpr (Nat.mul_pos overflow32_pos hd))
    rw [round32_of_overflow k neg hd hover, hneg hnum]
    simp

/-- The rounding of an exact number is correctly rounded binary64 (00 R13). -/
theorem correctlyRounded64_round64 (k : Nat) {num : Int} {den : Nat} (hd : 0 < den) {neg : Bool}
    (hneg : num ≠ 0 → neg = decide (num < 0)) :
    CorrectlyRounded64 num den (round64 k (.ratio neg num.natAbs den)) := by
  constructor
  · intro hlt
    have hval := val64_round64_of_lt k neg hd hlt
    obtain ⟨-, hmsb, -⟩ := decodeFloat_eq_fin hval
    refine ⟨(finite64_iff _).mpr ⟨_, _, hval⟩, fun hnum => hmsb.symm.trans (hneg hnum), fun z hz => ?_⟩
    obtain ⟨s, m, hzval⟩ := (finite64_iff z).mp hz
    obtain ⟨-, -, hmag⟩ := decodeFloat_eq_fin hzval
    have habs : (int64 z).natAbs = magValue b64.prec (z.toNat % 2 ^ 63) := by
      rw [int64_of_val64 hzval, natAbs_signedInt, hmag]
    obtain ⟨hle, htie⟩ := signedInt_roundMag_nearest (by decide) hd hneg habs
    rw [int64_of_val64 hval]
    exact ⟨hle, fun heq hne => round64_getLsbD_zero k neg hd hlt (htie heq hne)⟩
  · intro hover
    have hnum : num ≠ 0 := by
      rintro rfl
      exact absurd hover (by rw [Int.natAbs_zero]; exact Nat.not_le.mpr (Nat.mul_pos overflow64_pos hd))
    rw [round64_of_overflow k neg hd hover, hneg hnum]
    simp

/-! ### The exact results of the primitives -/

/-- The exact sum of finite numbers, as a signed magnitude. -/
theorem addVal_fin (s s' : Bool) (m m' : Nat) :
    ∃ neg, addVal (.fin s m) (.fin s' m') = .ratio neg (signedInt s m + signedInt s' m').natAbs 1 ∧
      (signedInt s m + signedInt s' m' ≠ 0 → neg = decide (signedInt s m + signedInt s' m' < 0)) := by
  by_cases h : signedInt s m + signedInt s' m' = 0
  · exact ⟨s && s', by simp [addVal, h], fun hne => absurd h hne⟩
  · exact ⟨_, if_neg h, fun _ => rfl⟩

theorem negVal_fin (s : Bool) (m : Nat) : negVal (.fin s m) = .fin (!s) m := rfl

theorem signedInt_not (s : Bool) (m : Nat) : signedInt (!s) m = -signedInt s m := by
  cases s <;> simp [signedInt]

/-- The sign of a product of nonzero numbers is the exclusive or of the signs. -/
theorem xor_eq_decide_signedInt_mul (s s' : Bool) {m m' : Nat} (h : signedInt s m * signedInt s' m' ≠ 0) :
    (s ^^ s') = decide (signedInt s m * signedInt s' m' < 0) := by
  have hm : (0 : Int) < m := by
    have : m ≠ 0 := by rintro rfl; simp at h
    omega
  have hm' : (0 : Int) < m' := by
    have : m' ≠ 0 := by rintro rfl; simp at h
    omega
  have hpos := Int.mul_pos hm hm'
  cases s <;> cases s' <;> simp [signedInt, hpos, hpos.le]

/-- Settles O55: the exact sum of two finite numbers is a signed magnitude, which `round` rounds. -/
theorem sumsAreCorrectlyRounded : Obligations.SumsAreCorrectlyRounded := by
  unfold Obligations.SumsAreCorrectlyRounded
  constructor
  · intro k a b ha hb
    obtain ⟨s, m, hva⟩ := (finite32_iff a).mp ha
    obtain ⟨s', m', hvb⟩ := (finite32_iff b).mp hb
    obtain ⟨neg, hsum, hneg⟩ := addVal_fin s s' m m'
    rw [add32, hva, hvb, hsum, int32_of_val32 hva, int32_of_val32 hvb]
    exact correctlyRounded32_round32 k Nat.one_pos hneg
  · intro k a b ha hb
    obtain ⟨s, m, hva⟩ := (finite64_iff a).mp ha
    obtain ⟨s', m', hvb⟩ := (finite64_iff b).mp hb
    constructor
    · obtain ⟨neg, hsum, hneg⟩ := addVal_fin s s' m m'
      rw [add64, hva, hvb, hsum, int64_of_val64 hva, int64_of_val64 hvb]
      exact correctlyRounded64_round64 k Nat.one_pos hneg
    · obtain ⟨neg, hsum, hneg⟩ := addVal_fin s (!s') m m'
      rw [sub64, hva, hvb, negVal_fin, hsum, int64_of_val64 hva, int64_of_val64 hvb, sub_eq_add_neg, ← signedInt_not]
      exact correctlyRounded64_round64 k Nat.one_pos hneg

theorem natAbs_signedInt_mul (s s' : Bool) (m m' : Nat) : (signedInt s m * signedInt s' m').natAbs = m * m' := by
  rw [Int.natAbs_mul, natAbs_signedInt, natAbs_signedInt]

/-- The exact quotient by a nonzero number, as a signed magnitude: dividing by the sign is multiplying by it. -/
theorem signedInt_div_num (s s' : Bool) (m : Nat) {m' : Nat} (hm' : m' ≠ 0) (c : Nat) :
    signedInt s m * c * (signedInt s' m').sign = signedInt (s ^^ s') (c * m) := by
  have hpos : (0 : Int) < m' := by omega
  cases s <;> cases s' <;> simp [signedInt, Int.sign_eq_one_of_pos hpos, mul_comm]

theorem neg_eq_decide_signedInt {s : Bool} {m : Nat} (h : signedInt s m ≠ 0) : s = decide (signedInt s m < 0) := by
  refine (decide_signedInt_neg s ?_).symm
  rintro rfl
  exact h (signedInt_zero s)

/-- Settles O56, as the sums: the exact product is over 2^scale, the exact quotient over the divisor's magnitude. -/
theorem productsAndQuotientsAreCorrectlyRounded : Obligations.ProductsAndQuotientsAreCorrectlyRounded := by
  unfold Obligations.ProductsAndQuotientsAreCorrectlyRounded
  constructor
  · intro k a b ha hb
    obtain ⟨s, m, hva⟩ := (finite32_iff a).mp ha
    obtain ⟨s', m', hvb⟩ := (finite32_iff b).mp hb
    rw [mul32, hva, hvb, mulVal, int32_of_val32 hva, int32_of_val32 hvb, ← natAbs_signedInt_mul s s']
    exact correctlyRounded32_round32 k (Nat.two_pow_pos _) (xor_eq_decide_signedInt_mul s s')
  · intro k a b ha hb
    obtain ⟨s, m, hva⟩ := (finite64_iff a).mp ha
    obtain ⟨s', m', hvb⟩ := (finite64_iff b).mp hb
    rw [int64_of_val64 hva, int64_of_val64 hvb]
    constructor
    · rw [mul64, hva, hvb, mulVal, scale_b64, ← natAbs_signedInt_mul s s']
      have hden : 0 < 2 ^ 1074 := by positivity
      generalize 2 ^ 1074 = den at hden ⊢
      exact correctlyRounded64_round64 k hden (xor_eq_decide_signedInt_mul s s')
    · intro hb0
      have hm' : m' ≠ 0 := by
        rintro rfl
        exact hb0 (signedInt_zero s')
      have hnum := signedInt_div_num s s' m hm' (2 ^ 1074)
      rw [Nat.cast_pow, Nat.cast_ofNat] at hnum
      have hrounded := correctlyRounded64_round64 k (num := signedInt (s ^^ s') (2 ^ 1074 * m)) (den := m')
        (Nat.pos_of_ne_zero hm') neg_eq_decide_signedInt
      rw [natAbs_signedInt] at hrounded
      rw [hnum, natAbs_signedInt, div64, hva, hvb, divVal, if_neg hm', scale_b64]
      exact hrounded

end Sys2Proof.Machine
end

section
/-! PROOFS. Exact results: representable numbers, widening, and the conversions from and to integers (00 §5, R16). -/

namespace Sys2Proof.Machine

/-! ### Representable numbers -/

/-- A number with a significand of at most `prec` bits rounds to a pattern of its own magnitude. -/
theorem magValue_roundMag_of_lt {prec q : Nat} (hp : 0 < prec) (hq : q < 2 ^ prec) (j : Nat) {den : Nat} (hd : 0 < den) :
    magValue prec (roundMag prec (q * 2 ^ j * den) den) = q * 2 ^ j := by
  have hshift : roundShift prec (q * 2 ^ j * den) den ≤ j := by
    unfold roundShift
    rw [Nat.mul_div_cancel _ hd]
    rcases Nat.eq_zero_or_pos q with rfl | hpos
    · rw [Nat.zero_mul, Nat.log2_zero]
      omega
    · have hne : q * 2 ^ j ≠ 0 := by positivity
      have hlt : q * 2 ^ j < 2 ^ (prec + j) := by
        rw [Nat.pow_add]
        exact Nat.mul_lt_mul_of_pos_right hq (Nat.two_pow_pos j)
      have := (Nat.log2_lt hne).mpr hlt
      omega
  rw [magValue_roundMag hp]
  generalize roundShift prec (q * 2 ^ j * den) den = sh at hshift ⊢
  obtain ⟨i, rfl⟩ := Nat.exists_eq_add_of_le hshift
  have hnum : q * 2 ^ (sh + i) * den = q * 2 ^ i * (den * 2 ^ sh) := by ring
  rw [hnum, roundDiv_mul _ _ (Nat.mul_pos hd (Nat.two_pow_pos sh))]
  ring

/-- A magnitude has a significand of at most `prec` bits. -/
theorem exists_significand {prec : Nat} (hp : 0 < prec) (m : Nat) : ∃ q j, q < 2 ^ prec ∧ magValue prec m = q * 2 ^ j := by
  have hpow := two_pow_prec hp
  rcases Nat.lt_or_ge m (2 ^ (prec - 1)) with hsub | hnormal
  · exact ⟨m, 0, by omega, by rw [magValue_subnormal prec m hsub, Nat.pow_zero, Nat.mul_one]⟩
  · obtain ⟨e, f, hf, rfl⟩ := exists_normal hnormal
    exact ⟨2 ^ (prec - 1) + f, e, by omega, magValue_normal prec e f hf⟩

/-- A number with a significand of 53 bits below the overflow threshold rounds to itself. -/
theorem val64_round64_exact (k : Nat) (neg : Bool) {q j : Nat} (hq : q < 2 ^ 53) (hlt : q * 2 ^ j < overflow64) :
    val64 (round64 k (.ratio neg (q * 2 ^ j) 1)) = .fin neg (q * 2 ^ j) := by
  have hval := magValue_roundMag_of_lt (prec := b64.prec) (by decide) hq j Nat.one_pos
  rw [Nat.mul_one] at hval
  rw [val64_round64_of_lt k neg Nat.one_pos (by rwa [Nat.mul_one]), hval]

/-- A finite binary32 magnitude lies below 2^128. -/
theorem lt_of_val32_fin {x : F32} {s : Bool} {m : Nat} (h : val32 x = .fin s m) : m < 2 ^ 277 := by
  obtain ⟨hlt, -, rfl⟩ := decodeFloat_eq_fin h
  have hinf : magValue b32.prec b32.infMag = 2 ^ 277 := by decide +kernel
  rw [← hinf]
  exact strictMono_magValue (by decide) hlt

/-- A finite binary64 magnitude lies below 2^1024. -/
theorem lt_of_val64_fin {x : F64} {s : Bool} {m : Nat} (h : val64 x = .fin s m) : m < 2 ^ 1024 * 2 ^ 1074 := by
  obtain ⟨hlt, -, rfl⟩ := decodeFloat_eq_fin h
  have hinf : magValue b64.prec b64.infMag = 2 ^ 1024 * 2 ^ 1074 := by decide +kernel
  rw [← hinf]
  exact strictMono_magValue (by decide) hlt

/-! ### Widening -/

/-- binary64 counts in units 2^925 times smaller than binary32. -/
theorem scale_sub_scale : b64.scale - b32.scale = 925 := rfl

/-- The overflow threshold of binary64 is above its half. -/
theorem lt_overflow64_of_lt {n : Nat} (h : n < 2 ^ (53 + 2044)) : n < overflow64 := by
  refine h.trans_le ?_
  unfold overflow64
  calc 2 ^ (53 + 2044) = 2 ^ 53 * 2 ^ 2044 := pow_add 2 53 2044
    _ ≤ (2 ^ 54 - 1) * 2 ^ 2044 := Nat.mul_le_mul_right _ (by decide)

/-- Widening a finite binary32 is exact. -/
theorem val64_cvt64 (k : Nat) {x : F32} {s : Bool} {m : Nat} (h : val32 x = .fin s m) :
    val64 (cvt64 k x) = .fin s (m * 2 ^ 925) := by
  obtain ⟨-, -, hm⟩ := decodeFloat_eq_fin h
  obtain ⟨q, j, hq, hqj⟩ := exists_significand (prec := b32.prec) (by decide) (x.toNat % 2 ^ 31)
  have hbound : m * 2 ^ 925 < 2 ^ (53 + 2044) := by
    calc m * 2 ^ 925 < 2 ^ 277 * 2 ^ 925 := Nat.mul_lt_mul_of_pos_right (lt_of_val32_fin h) (by positivity)
      _ = 2 ^ (277 + 925) := (pow_add 2 277 925).symm
      _ ≤ 2 ^ (53 + 2044) := pow_le_pow_right₀ (by decide) (by decide)
  rw [← hm] at hqj
  have hexact : m * 2 ^ 925 = q * 2 ^ (j + 925) := by rw [hqj, Nat.pow_add, Nat.mul_assoc]
  rw [cvt64, h, rescale, scale_sub_scale, Nat.pow_zero, Nat.mul_comm, hexact]
  exact val64_round64_exact k s (hq.trans (by decide)) (hexact ▸ lt_overflow64_of_lt hbound)

/-- Rounding a widened binary32 gives its pattern back. -/
theorem rnd32_of_val64 (k : Nat) {x : F32} {s : Bool} {m : Nat} (h : val32 x = .fin s m) {y : F64}
    (hy : val64 y = .fin s (m * 2 ^ 925)) : rnd32 k y = x := by
  rw [rnd32, hy, rescale, scale_sub_scale, Nat.pow_zero, Nat.one_mul]
  exact round32_ratio_mul k h (by positivity)

/-- Settles O57: the exact value of a binary32 is representable, and rounding from it is rounding a fraction over 2^925. -/
theorem wideningIsExact : Obligations.WideningIsExact := by
  unfold Obligations.WideningIsExact
  constructor
  · intro j k x hx
    obtain ⟨s, m, hval⟩ := (finite32_iff x).mp hx
    have hwide := val64_cvt64 k hval
    refine ⟨(finite64_iff _).mpr ⟨_, _, hwide⟩, ?_, rnd32_of_val64 j hval hwide⟩
    rw [int64_of_val64 hwide, int32_of_val32 hval, ← signedInt_mul_natCast, Nat.cast_pow, Nat.cast_ofNat]
  · intro k a ha
    obtain ⟨s, m, hval⟩ := (finite64_iff a).mp ha
    have hrounded := correctlyRounded32_round32 k (num := signedInt s m) (den := 2 ^ 925) (Nat.two_pow_pos 925)
      neg_eq_decide_signedInt
    rw [natAbs_signedInt] at hrounded
    rwa [int64_of_val64 hval, rnd32, hval, rescale, scale_sub_scale, Nat.pow_zero, Nat.one_mul]

/-! ### Integers -/

/-- A finite value that is not below 0.0 has no sign, unless it is a zero. -/
theorem ge64_zero_iff {d : F64} {s : Bool} {m : Nat} (h : val64 d = .fin s m) :
    ge64 d zero64 = true ↔ 0 ≤ signedInt s m := by
  have hzero : val64 zero64 = .fin false 0 := by decide
  simp [ge64, h, hzero, leVal]

theorem neg_and_ne_zero_of_nonneg {s : Bool} {m : Nat} (h : 0 ≤ signedInt s m) : (s && m != 0) = false := by
  cases s with
  | false => rfl
  | true =>
    rw [signedInt_of_neg] at h
    simp
    omega

theorem floor64_of_nonneg {d : F64} {s : Bool} {m : Nat} (h : val64 d = .fin s m) (h0 : 0 ≤ signedInt s m) :
    floor64 d = some (m / 2 ^ 1074) := by
  simp only [floor64, h, neg_and_ne_zero_of_nonneg h0, scale_b64]
  rfl

theorem ceil64_of_nonneg {d : F64} {s : Bool} {m : Nat} (h : val64 d = .fin s m) (h0 : 0 ≤ signedInt s m) :
    ceil64 d = some ((m + (2 ^ 1074 - 1)) / 2 ^ 1074) := by
  simp only [ceil64, h, neg_and_ne_zero_of_nonneg h0, scale_b64]
  rfl

theorem signedInt_of_nonneg {s : Bool} {m : Nat} (h : 0 ≤ signedInt s m) : signedInt s m = m := by
  cases s with
  | false => rfl
  | true =>
    rw [signedInt_of_neg] at h ⊢
    omega

/-- The integers below and above a quotient. -/
theorem floor_ceil_bounds (m : Nat) {b : Nat} (hb : 0 < b) :
    m / b * b ≤ m ∧ m < (m / b + 1) * b ∧ m ≤ (m + (b - 1)) / b * b ∧ (m + (b - 1)) / b * b < m + b := by
  have hlo := Nat.div_add_mod' m b
  have hlo' := Nat.mod_lt m hb
  have hhi := Nat.div_add_mod' (m + (b - 1)) b
  have hhi' := Nat.mod_lt (m + (b - 1)) hb
  rw [Nat.add_mul, Nat.one_mul]
  omega

theorem val64_u2f {n : Nat} (h : n < 2 ^ 53) : val64 (u2f n) = .fin false (n * 2 ^ 1074) := by
  unfold u2f
  rw [scale_b64, Nat.mul_comm]
  refine val64_round64_exact noDraw false h (lt_overflow64_of_lt ?_)
  calc n * 2 ^ 1074 < 2 ^ 53 * 2 ^ 1074 := Nat.mul_lt_mul_of_pos_right h (by positivity)
    _ = 2 ^ (53 + 1074) := (pow_add 2 53 1074).symm
    _ ≤ 2 ^ (53 + 2044) := pow_le_pow_right₀ (by decide) (by decide)

/-- Settles O58: floor and ceiling are quotients by 2^1074, and an integer below 2^53 is representable. -/
theorem integerConversionsAreExact : Obligations.IntegerConversionsAreExact := by
  unfold Obligations.IntegerConversionsAreExact
  constructor
  · intro d hfin hge
    obtain ⟨s, m, hval⟩ := (finite64_iff d).mp hfin
    have h0 := (ge64_zero_iff hval).mp hge
    refine ⟨_, _, floor64_of_nonneg hval h0, ceil64_of_nonneg hval h0, ?_⟩
    rw [int64_of_val64 hval, signedInt_of_nonneg h0]
    have hpos : 0 < 2 ^ 1074 := by positivity
    have hcast : ((2 ^ 1074 : Nat) : Int) = 2 ^ 1074 := by rw [Nat.cast_pow, Nat.cast_ofNat]
    rw [← hcast]
    generalize 2 ^ 1074 = b at hpos ⊢
    obtain ⟨h1, h2, h3, h4⟩ := floor_ceil_bounds m hpos
    refine ⟨by exact_mod_cast h1, by exact_mod_cast h2, by exact_mod_cast h3, ?_⟩
    rw [Int.sub_mul, Int.one_mul, Int.sub_lt_iff]
    exact_mod_cast h4
  · intro n hn
    have hval := val64_u2f hn
    refine ⟨(finite64_iff _).mpr ⟨_, _, hval⟩, ?_⟩
    rw [int64_of_val64 hval, signedInt_of_pos, Nat.cast_mul, Nat.cast_pow, Nat.cast_ofNat]

end Sys2Proof.Machine
end

section
/-! PROOFS. NaNs (00 R17, U3). -/

namespace Sys2Proof.Machine

/-! ### Quiet patterns hold a NaN -/

theorem val32_of_quiet32 {x : F32} (h : quiet32 x = true) : val32 x = .nan := by
  have hbits : x.toNat / 2 ^ 22 % 2 ^ 9 = 511 := by
    have := congrArg BitVec.toNat (beq_iff_eq.mp h)
    simpa [BitVec.extractLsb'_toNat, Nat.shiftRight_eq_div_pow] using this
  rw [val32, decodeFloat, if_pos (show b32.infMag < x.toNat % 2 ^ 31 by simp only [b32]; omega)]

theorem val64_of_quiet64 {x : F64} (h : quiet64 x = true) : val64 x = .nan := by
  have hbits : x.toNat / 2 ^ 51 % 2 ^ 12 = 4095 := by
    have := congrArg BitVec.toNat (beq_iff_eq.mp h)
    simpa [BitVec.extractLsb'_toNat, Nat.shiftRight_eq_div_pow] using this
  rw [val64, decodeFloat, if_pos (show b64.infMag < x.toNat % 2 ^ 63 by simp only [b64]; omega)]

/-- The exponent and the quiet bit of a draw are set, whatever the free value. -/
theorem quiet32_quietNan32 (k : Nat) : quiet32 (quietNan32 k) = true := by
  unfold quiet32 quietNan32
  rw [BitVec.extractLsb'_or, show (0x7FC00000#32).extractLsb' 22 9 = BitVec.allOnes 9 by decide, BitVec.or_allOnes]
  rfl

theorem quiet64_quietNan64 (k : Nat) : quiet64 (quietNan64 k) = true := by
  unfold quiet64 quietNan64
  rw [BitVec.extractLsb'_or, show (0x7FF8000000000000#64).extractLsb' 51 12 = BitVec.allOnes 12 by decide,
    BitVec.or_allOnes]
  rfl

theorem val32_round32_eq_nan_iff (k : Nat) (e : Exact) : val32 (round32 k e) = .nan ↔ e = .nan := by
  cases e with
  | nan => exact iff_of_true (val32_of_quiet32 (quiet32_quietNan32 k)) rfl
  | inf neg => simp [val32_round32_inf]
  | ratio neg num den =>
    rw [val32_round32_ratio]
    split <;> simp

theorem val64_round64_eq_nan_iff (k : Nat) (e : Exact) : val64 (round64 k e) = .nan ↔ e = .nan := by
  cases e with
  | nan => exact iff_of_true (val64_of_quiet64 (quiet64_quietNan64 k)) rfl
  | inf neg => simp [val64_round64_inf]
  | ratio neg num den =>
    rw [val64_round64_ratio]
    split <;> simp

/-- A rounded NaN is quiet. -/
theorem quiet32_round32 {k : Nat} {e : Exact} (h : val32 (round32 k e) = .nan) : quiet32 (round32 k e) = true := by
  rw [(val32_round32_eq_nan_iff k e).mp h]
  exact quiet32_quietNan32 k

theorem quiet64_round64 {k : Nat} {e : Exact} (h : val64 (round64 k e) = .nan) : quiet64 (round64 k e) = true := by
  rw [(val64_round64_eq_nan_iff k e).mp h]
  exact quiet64_quietNan64 k

/-! ### NaN operands -/

@[simp] theorem addVal_nan_right (a : FVal) : addVal a .nan = .nan := by cases a <;> rfl

@[simp] theorem mulVal_nan_right (scale : Nat) (a : FVal) : mulVal scale a .nan = .nan := by cases a <;> rfl

@[simp] theorem divVal_nan_right (scale : Nat) (a : FVal) : divVal scale a .nan = .nan := by cases a <;> rfl

theorem addVal_of_nan {a b : FVal} (h : a = .nan ∨ b = .nan) : addVal a b = .nan := by
  obtain rfl | rfl := h
  · rfl
  · exact addVal_nan_right a

theorem mulVal_of_nan {scale : Nat} {a b : FVal} (h : a = .nan ∨ b = .nan) : mulVal scale a b = .nan := by
  obtain rfl | rfl := h
  · rfl
  · exact mulVal_nan_right scale a

theorem divVal_of_nan {scale : Nat} {a b : FVal} (h : a = .nan ∨ b = .nan) : divVal scale a b = .nan := by
  obtain rfl | rfl := h
  · rfl
  · exact divVal_nan_right scale a

theorem negVal_of_nan {a : FVal} (h : a = .nan) : negVal a = .nan := by
  rw [h]
  rfl

/-- Settles O60: every primitive is a rounding, a NaN operand makes its exact result none, and a rounded NaN is a draw. -/
theorem producedNansAreQuiet : Obligations.ProducedNansAreQuiet := by
  unfold Obligations.ProducedNansAreQuiet
  refine ⟨fun k e => ⟨val32_round32_eq_nan_iff k e, val64_round64_eq_nan_iff k e⟩,
    fun k => ⟨quiet32_quietNan32 k, quiet64_quietNan64 k⟩, fun k a b y hy => ?_, fun k a b y hy => ?_,
    fun k a => ?_, fun k a => ?_⟩
  · obtain rfl | rfl := hy
    · rw [add32]
      exact ⟨fun h => (val32_round32_eq_nan_iff k _).mpr (addVal_of_nan h), quiet32_round32⟩
    · rw [mul32]
      exact ⟨fun h => (val32_round32_eq_nan_iff k _).mpr (mulVal_of_nan h), quiet32_round32⟩
  · obtain rfl | rfl | rfl | rfl := hy
    · rw [add64]
      exact ⟨fun h => (val64_round64_eq_nan_iff k _).mpr (addVal_of_nan h), quiet64_round64⟩
    · rw [sub64]
      exact ⟨fun h => (val64_round64_eq_nan_iff k _).mpr (addVal_of_nan (h.imp_right negVal_of_nan)), quiet64_round64⟩
    · rw [mul64]
      exact ⟨fun h => (val64_round64_eq_nan_iff k _).mpr (mulVal_of_nan h), quiet64_round64⟩
    · rw [div64]
      exact ⟨fun h => (val64_round64_eq_nan_iff k _).mpr (divVal_of_nan h), quiet64_round64⟩
  · rw [cvt64]
    exact ⟨fun h => (val64_round64_eq_nan_iff k _).mpr (by rw [h]; rfl), quiet64_round64⟩
  · rw [rnd32]
    exact ⟨fun h => (val32_round32_eq_nan_iff k _).mpr (by rw [h]; rfl), quiet32_round32⟩

end Sys2Proof.Machine
end

section
/-! PROOFS. Rounding keeps order, and the bounds it gives for the rates, the fractions and the positions (10 R38; 41 R121;
43 R151). -/

namespace Sys2Proof.Machine

/-! ### Values between bounds -/

/-- A magnitude that some finite binary64 pattern holds. -/
def Representable (m : Nat) : Prop := ∃ p, p < b64.infMag ∧ magValue b64.prec p = m

theorem representable_of_val64 {x : F64} {s : Bool} {m : Nat} (h : val64 x = .fin s m) : Representable m := by
  obtain ⟨hlt, -, hm⟩ := decodeFloat_eq_fin h
  exact ⟨_, hlt, hm.symm⟩

theorem representable_mul_two_pow {q j : Nat} (hq : q < 2 ^ 53) (hlt : q * 2 ^ j < overflow64) :
    Representable (q * 2 ^ j) :=
  representable_of_val64 (val64_round64_exact 0 false hq hlt)

theorem roundMag_le_of_le {prec p num den : Nat} (hp : 0 < prec) (hd : 0 < den) (h : num ≤ magValue prec p * den) :
    roundMag prec num den ≤ p :=
  (roundMag_mono hp hd hd (Nat.mul_le_mul_right den h)).trans_eq (roundMag_magValue prec p den hp hd)

theorem le_roundMag_of_le {prec p num den : Nat} (hp : 0 < prec) (hd : 0 < den) (h : magValue prec p * den ≤ num) :
    p ≤ roundMag prec num den :=
  (roundMag_magValue prec p den hp hd).symm.trans_le (roundMag_mono hp hd hd (Nat.mul_le_mul_right den h))

@[simp] theorem leVal_fin (s s' : Bool) (m m' : Nat) :
    leVal (.fin s m) (.fin s' m') = true ↔ signedInt s m ≤ signedInt s' m' := by
  simp [leVal]

/-- A number at most a representable one rounds to a value at most that one. -/
theorem round64_le {neg s : Bool} {num den m : Nat} (hd : 0 < den) (hm : Representable m)
    (h : signedInt neg num ≤ signedInt s m * den) (k : Nat) :
    leVal (val64 (round64 k (.ratio neg num den))) (.fin s m) = true := by
  obtain ⟨p, hp, rfl⟩ := hm
  have hmono := (strictMono_magValue (prec := b64.prec) (by decide)).monotone
  rw [signedInt_mul_natCast] at h
  rw [val64_round64_ratio]
  cases neg with
  | true =>
    split
    · rfl
    · cases s with
      | false =>
        rw [leVal_fin, signedInt_of_neg, signedInt_of_pos]
        omega
      | true =>
        rw [signedInt_of_neg, signedInt_of_neg] at h
        have hle := hmono (le_roundMag_of_le (prec := b64.prec) (p := p) (num := num) (by decide) hd (by omega))
        rw [leVal_fin, signedInt_of_neg, signedInt_of_neg]
        omega
  | false =>
    cases s with
    | false =>
      have hle := roundMag_le_of_le (prec := b64.prec) (p := p) (num := num) (by decide) hd
        (by rw [signedInt_of_pos, signedInt_of_pos] at h; omega)
      rw [if_neg (by omega), leVal_fin]
      exact Int.ofNat_le.mpr (hmono hle)
    | true =>
      rw [signedInt_of_neg, signedInt_of_pos] at h
      have hle := roundMag_le_of_le (prec := b64.prec) (p := 0) (num := num) (by decide) hd (by omega)
      have hzero : magValue b64.prec p * den = 0 := by omega
      have hmag : magValue b64.prec p = 0 := (Nat.mul_eq_zero.mp hzero).resolve_right (by omega)
      rw [Nat.le_zero.mp hle, if_neg (by decide), leVal_fin, hmag]
      rfl

theorem leVal_negVal (a b : FVal) : leVal (negVal b) (negVal a) = leVal a b := by
  cases a <;> cases b <;> simp [leVal, negVal, signedInt_not, Bool.or_comm]

theorem negVal_round64 (k : Nat) (neg : Bool) (num den : Nat) :
    negVal (val64 (round64 k (.ratio neg num den))) = val64 (round64 k (.ratio (!neg) num den)) := by
  rw [val64_round64_ratio, val64_round64_ratio]
  split <;> rfl

/-- A number at least a representable one rounds to a value at least that one. -/
theorem le_round64 {neg s : Bool} {num den m : Nat} (hd : 0 < den) (hm : Representable m)
    (h : signedInt s m * den ≤ signedInt neg num) (k : Nat) :
    leVal (.fin s m) (val64 (round64 k (.ratio neg num den))) = true := by
  rw [← leVal_negVal, negVal_round64]
  refine round64_le hd hm ?_ k
  rw [signedInt_not, signedInt_not, Int.neg_mul]
  omega

/-- A value between two finite ones is finite and lies between their numbers. -/
theorem exists_fin_of_between {v : FVal} {s s' : Bool} {m m' : Nat} (hlo : leVal (.fin s m) v = true)
    (hhi : leVal v (.fin s' m') = true) :
    ∃ t n, v = .fin t n ∧ signedInt s m ≤ signedInt t n ∧ signedInt t n ≤ signedInt s' m' := by
  cases v with
  | nan => cases hlo
  | inf t => cases t <;> simp [leVal] at hlo hhi
  | fin t n => exact ⟨t, n, rfl, (leVal_fin _ _ _ _).mp hlo, (leVal_fin _ _ _ _).mp hhi⟩

theorem val64_zero64 : val64 zero64 = .fin false 0 := by decide

theorem val64_one64 : val64 one64 = .fin false (2 ^ 1074) := by decide +kernel

theorem representable_zero : Representable 0 := representable_of_val64 val64_zero64

/-- A finite number above 0.0 has no sign and a magnitude that is not zero. -/
theorem pos_of_lt64_zero {x : F64} (hfin : finite64 x = true) (hpos : lt64 zero64 x = true) :
    ∃ m, val64 x = .fin false m ∧ 0 < m := by
  obtain ⟨s, m, hval⟩ := (finite64_iff x).mp hfin
  have hlt : (0 : Int) < signedInt s m := by
    simpa [lt64, ltVal, val64_zero64, hval] using hpos
  cases s with
  | true =>
    rw [signedInt_of_neg] at hlt
    omega
  | false =>
    rw [signedInt_of_pos] at hlt
    exact ⟨m, hval, by omega⟩

/-! ### The ratio of a rate (44 R166) -/

theorem val64_targetRate : val64 targetRate = .fin false (16000 * 2 ^ 1074) := by decide +kernel

/-- Settles O37: the largest finite rate is below 2^1024, and 16000 / 2^1024 is above 2^-1022. -/
theorem ratioIsNormal : Obligations.RatioIsNormal := by
  unfold Obligations.RatioIsNormal
  intro rate hfin hpos
  obtain ⟨m, hval, hm⟩ := pos_of_lt64_zero hfin hpos
  have hleast : val64 0x0010000000000000#64 = .fin false (2 ^ 52) := by decide +kernel
  have hbound : 2 ^ 52 * m ≤ 2 ^ 1074 * (16000 * 2 ^ 1074) := by
    have hunits : 2 ^ 52 * 2 ^ 1024 ≤ 16000 * 2 ^ 1074 := by decide +kernel
    calc 2 ^ 52 * m ≤ 2 ^ 52 * (2 ^ 1024 * 2 ^ 1074) := Nat.mul_le_mul_left _ (lt_of_val64_fin hval).le
      _ = 2 ^ 52 * 2 ^ 1024 * 2 ^ 1074 := (Nat.mul_assoc _ _ _).symm
      _ ≤ 16000 * 2 ^ 1074 * 2 ^ 1074 := Nat.mul_le_mul_right _ hunits
      _ = 2 ^ 1074 * (16000 * 2 ^ 1074) := Nat.mul_comm _ _
  have htarget : val64 0x40CF400000000000#64 = .fin false (16000 * 2 ^ 1074) := val64_targetRate
  rw [ge64, hleast, div64, htarget, hval, divVal, if_neg (by omega), scale_b64]
  refine le_round64 hm (representable_of_val64 hleast) ?_ 0
  rw [signedInt_mul_natCast]
  exact Int.ofNat_le.mpr hbound

end Sys2Proof.Machine
end

section
/-! PROOFS. The fraction of Emit, the weight 0.0, and the positions of a block (41 R121, 43 R151). -/

namespace Sys2Proof.Machine

/-! ### The fraction of Emit -/

/-- Of two values that are no NaN one is below the other or at least it. -/
theorem leVal_of_not_ltVal {a b : FVal} (ha : a ≠ .nan) (hb : b ≠ .nan) (h : ltVal a b = false) : leVal b a = true := by
  cases a with
  | nan => exact absurd rfl ha
  | inf s =>
    cases b with
    | nan => exact absurd rfl hb
    | inf s' => cases s <;> cases s' <;> simp_all [ltVal, leVal]
    | fin s' m' => cases s <;> simp_all [ltVal, leVal]
  | fin s m =>
    cases b with
    | nan => exact absurd rfl hb
    | inf s' => cases s' <;> simp_all [ltVal, leVal]
    | fin s' m' => simpa [ltVal, leVal] using h

theorem ne_nan_of_leVal_right {a b : FVal} (h : leVal a b = true) : b ≠ .nan := by
  rintro rfl
  cases a <;> cases h

theorem val64_zero64_ne_nan : val64 zero64 ≠ .nan := by
  rw [val64_zero64]
  exact FVal.noConfusion

theorem val64_one64_ne_nan : val64 one64 ≠ .nan := by
  rw [val64_one64]
  exact FVal.noConfusion

/-- `clamp01` of a number lies in [0, 1]. -/
theorem clamp01_mem {d : F64} (hd : val64 d ≠ .nan) :
    ge64 (clamp01 d) zero64 = true ∧ ge64 one64 (clamp01 d) = true := by
  cases h0 : lt64 d zero64 with
  | true =>
    rw [clamp01_of_lt_zero h0]
    decide +kernel
  | false =>
    cases h1 : lt64 one64 d with
    | true =>
      rw [clamp01_of_one_lt h1]
      decide +kernel
    | false =>
      rw [clamp01_of_not_lt h0 h1]
      exact ⟨leVal_of_not_ltVal hd val64_zero64_ne_nan h0, leVal_of_not_ltVal val64_one64_ne_nan hd h1⟩

theorem negVal_ne_nan {a : FVal} (h : a ≠ .nan) : negVal a ≠ .nan := by
  cases a <;> simp_all [negVal]

/-- A sum with a finite summand is no NaN. -/
theorem addVal_fin_ne_nan {b : FVal} (s : Bool) (m : Nat) (hb : b ≠ .nan) :
    addVal (.fin s m) b ≠ .nan ∧ addVal b (.fin s m) ≠ .nan := by
  cases b with
  | nan => exact absurd rfl hb
  | inf s' => exact ⟨Exact.noConfusion, Exact.noConfusion⟩
  | fin s' m' =>
    obtain ⟨neg, h, -⟩ := addVal_fin s s' m m'
    obtain ⟨neg', h', -⟩ := addVal_fin s' s m' m
    rw [h, h']
    exact ⟨Exact.noConfusion, Exact.noConfusion⟩

theorem val64_sub64_ne_nan {a b : F64} (k : Nat) (ha : val64 a ≠ .nan) (hb : val64 b ≠ .nan)
    (h : finite64 a = true ∨ finite64 b = true) : val64 (sub64 k a b) ≠ .nan := by
  rw [sub64, ne_eq, val64_round64_eq_nan_iff]
  obtain hfin | hfin := h
  · obtain ⟨s, m, hval⟩ := (finite64_iff a).mp hfin
    rw [hval]
    exact (addVal_fin_ne_nan s m (negVal_ne_nan hb)).1
  · obtain ⟨s, m, hval⟩ := (finite64_iff b).mp hfin
    rw [hval, negVal_fin]
    exact (addVal_fin_ne_nan (!s) m ha).2

/-- A quotient by a finite number that is not zero is no NaN. -/
theorem val64_div64_ne_nan {a b : F64} {s : Bool} {m : Nat} (k : Nat) (ha : val64 a ≠ .nan) (hb : val64 b = .fin s m)
    (hm : m ≠ 0) : val64 (div64 k a b) ≠ .nan := by
  rw [div64, ne_eq, val64_round64_eq_nan_iff, hb]
  cases hv : val64 a with
  | nan => exact absurd hv ha
  | inf s' => exact Exact.noConfusion
  | fin s' m' =>
    rw [divVal, if_neg hm]
    exact Exact.noConfusion

/-- The fraction of Emit lies in [0, 1] and is no NaN, for every accumulator that is none. -/
theorem emitFrac_mem {ratio t : F64} (hfin : finite64 ratio = true) (hpos : lt64 zero64 ratio = true)
    (ht : val64 t ≠ .nan) : ge64 (emitFrac ratio t) zero64 = true ∧ ge64 one64 (emitFrac ratio t) = true := by
  obtain ⟨m, hratio, hm⟩ := pos_of_lt64_zero hfin hpos
  have hone : finite64 one64 = true := by decide +kernel
  have hover := val64_sub64_ne_nan noDraw ht val64_one64_ne_nan (.inr hone)
  have hquot := val64_div64_ne_nan noDraw hover hratio (by omega)
  exact clamp01_mem (val64_sub64_ne_nan noDraw val64_one64_ne_nan hquot (.inl hone))

/-- Settles O20: a number of at least 1.0 is no NaN. -/
theorem emitFractionInRange : Obligations.EmitFractionInRange := by
  unfold Obligations.EmitFractionInRange
  exact fun ratio t hfin hpos _ hge => emitFrac_mem hfin hpos (ne_nan_of_leVal_right hge)

/-! ### The weight 0.0 -/

/-- A difference of widened samples is finite. -/
theorem finite64_sub64_cvt64 (i j k : Nat) {a b : F32} (ha : finite32 a = true) (hb : finite32 b = true) :
    finite64 (sub64 i (cvt64 j b) (cvt64 k a)) = true := by
  obtain ⟨s, m, hva⟩ := (finite32_iff a).mp ha
  obtain ⟨s', m', hvb⟩ := (finite32_iff b).mp hb
  obtain ⟨neg, hsum, -⟩ := addVal_fin s' (!s) (m' * 2 ^ 925) (m * 2 ^ 925)
  have hbound : (signedInt s' (m' * 2 ^ 925) + signedInt (!s) (m * 2 ^ 925)).natAbs < overflow64 := by
    have hle := Int.natAbs_add_le (signedInt s' (m' * 2 ^ 925)) (signedInt (!s) (m * 2 ^ 925))
    rw [natAbs_signedInt, natAbs_signedInt] at hle
    have hunits : (2 ^ 277 + 2 ^ 277) * 2 ^ 925 ≤ overflow64 := by decide +kernel
    calc _ ≤ m' * 2 ^ 925 + m * 2 ^ 925 := hle
      _ = (m' + m) * 2 ^ 925 := (Nat.add_mul _ _ _).symm
      _ < (2 ^ 277 + 2 ^ 277) * 2 ^ 925 :=
        Nat.mul_lt_mul_of_pos_right (Nat.add_lt_add (lt_of_val32_fin hvb) (lt_of_val32_fin hva)) (by positivity)
      _ ≤ overflow64 := hunits
  rw [sub64, val64_cvt64 j hvb, val64_cvt64 k hva, negVal_fin, hsum, finite64_iff]
  exact ⟨_, _, val64_round64_of_lt i neg Nat.one_pos (by rwa [Nat.mul_one])⟩

/-- A number that rounds from 0 is a zero of its sign. -/
theorem val64_round64_zero (k : Nat) (neg : Bool) {den : Nat} (hd : 0 < den) :
    val64 (round64 k (.ratio neg 0 den)) = .fin neg 0 := by
  rw [val64_round64_of_lt k neg hd (Nat.mul_pos overflow64_pos hd), roundMag_zero (by decide) hd,
    (magValue_eq_zero_iff _ _).mpr rfl]

/-- 0.0 times a finite number is a zero. -/
theorem val64_mul64_zero (k : Nat) {x : F64} (h : finite64 x = true) : ∃ s, val64 (mul64 k zero64 x) = .fin s 0 := by
  obtain ⟨s, m, hval⟩ := (finite64_iff x).mp h
  rw [mul64, val64_zero64, hval, mulVal, Nat.zero_mul]
  exact ⟨_, val64_round64_zero k _ (Nat.two_pow_pos _)⟩

/-- Adding a zero to a finite number keeps its value: the pattern of a nonzero one, some zero for a zero. -/
theorem val64_add64_zero_right (k : Nat) {x y : F64} {s s' : Bool} {m : Nat} (hx : val64 x = .fin s m)
    (hy : val64 y = .fin s' 0) :
    val64 (add64 k x y) = .fin s m ∨ (m = 0 ∧ val64 (add64 k x y) = .fin (s && s') 0) := by
  rw [add64, hx, hy]
  rcases eq_or_ne m 0 with rfl | hm
  · right
    have hsum : addVal (.fin s 0) (.fin s' 0) = .ratio (s && s') 0 1 := by simp [addVal]
    exact ⟨rfl, by rw [hsum, val64_round64_zero k _ Nat.one_pos]⟩
  · left
    rw [addVal_zero_right s s' hm, round64_val64 k hx, hx]

/-- Settles O21: the weighted difference is a zero, and adding it to the widened sample keeps the sample's value. -/
theorem zeroWeightReturnsTheFirstSample : Obligations.ZeroWeightReturnsTheFirstSample := by
  unfold Obligations.ZeroWeightReturnsTheFirstSample
  intro k a b ha hb
  obtain ⟨s, m, hva⟩ := (finite32_iff a).mp ha
  obtain ⟨s', hzero⟩ := val64_mul64_zero (k + 3) (finite64_sub64_cvt64 (k + 2) k (k + 1) ha hb)
  rw [lerp, sameValue32_iff]
  obtain hsum | ⟨hm, hsum⟩ := val64_add64_zero_right (k + 5) (val64_cvt64 (k + 4) hva) hzero
  · exact .inl (rnd32_of_val64 (k + 6) hva hsum)
  · right
    have hm0 : m = 0 := (Nat.mul_eq_zero.mp hm).resolve_right (by positivity)
    constructor
    · rw [zeroPattern32_iff_val32, rnd32, hsum]
      exact ⟨_, by
        rw [rescale, Nat.mul_zero, val32_round32_of_lt _ _ (by positivity) (Nat.mul_pos overflow32_pos (by positivity)),
          roundMag_zero (by decide) (by positivity), (magValue_eq_zero_iff _ _).mpr rfl]⟩
    · rw [zeroPattern32_iff_val32, hva, hm0]
      exact ⟨s, rfl⟩

/-! ### The positions of a block -/

/-- A quotient of integers below 2^32, in the units of binary64, does not overflow. -/
theorem units_mul_lt_overflow64 {n m : Nat} (hn : n < 2 ^ 32) (hm : 2 ^ 1042 ≤ m) :
    2 ^ 1074 * (n * 2 ^ 1074) < overflow64 * m := by
  have hunits : 2 ^ 1074 * (2 ^ 32 * 2 ^ 1074) ≤ overflow64 * 2 ^ 1042 := by decide +kernel
  calc 2 ^ 1074 * (n * 2 ^ 1074) < 2 ^ 1074 * (2 ^ 32 * 2 ^ 1074) :=
        Nat.mul_lt_mul_of_pos_left (Nat.mul_lt_mul_of_pos_right hn (by positivity)) (by positivity)
    _ ≤ overflow64 * 2 ^ 1042 := hunits
    _ ≤ overflow64 * m := Nat.mul_le_mul_left _ hm

/-- The ratio of two lengths below 2^32 is finite and at least 2^-32. -/
theorem val64_upsampleRatio {outLen midLen : Nat} (ho : 1 ≤ outLen) (ho' : outLen < 2 ^ 32) (hk : 1 ≤ midLen)
    (hk' : midLen < 2 ^ 32) : ∃ m, val64 (upsampleRatio outLen midLen) = .fin false m ∧ 2 ^ 1042 ≤ m := by
  have hden : 0 < midLen * 2 ^ 1074 := by positivity
  have hbig : 2 ^ 1042 ≤ midLen * 2 ^ 1074 := by
    have hunits : 2 ^ 1042 ≤ 1 * 2 ^ 1074 := by decide +kernel
    exact hunits.trans (Nat.mul_le_mul_right _ hk)
  have hsmall : 2 ^ 1042 * (midLen * 2 ^ 1074) ≤ 2 ^ 1074 * (outLen * 2 ^ 1074) := by
    have hunits : 2 ^ 1042 * (2 ^ 32 * 2 ^ 1074) ≤ 2 ^ 1074 * (1 * 2 ^ 1074) := by decide +kernel
    calc 2 ^ 1042 * (midLen * 2 ^ 1074) ≤ 2 ^ 1042 * (2 ^ 32 * 2 ^ 1074) :=
          Nat.mul_le_mul_left _ (Nat.mul_le_mul_right _ hk'.le)
      _ ≤ 2 ^ 1074 * (1 * 2 ^ 1074) := hunits
      _ ≤ 2 ^ 1074 * (outLen * 2 ^ 1074) := Nat.mul_le_mul_left _ (Nat.mul_le_mul_right _ ho)
  obtain ⟨p, -, hp⟩ := representable_mul_two_pow (q := 1) (j := 1042) (by decide) (by decide +kernel)
  rw [Nat.one_mul] at hp
  have hlow := le_roundMag_of_le (prec := b64.prec) (p := p)
    (num := 2 ^ 1074 * (outLen * 2 ^ 1074)) (by decide) hden (by rw [hp]; exact hsmall)
  refine ⟨_, ?_, hp.symm.trans_le ((strictMono_magValue (by decide)).monotone hlow)⟩
  unfold upsampleRatio
  rw [div64, val64_u2f (by omega), val64_u2f (by omega), divVal, if_neg hden.ne', scale_b64]
  exact val64_round64_of_lt noDraw false hden (units_mul_lt_overflow64 ho' hbig)

/-- Settles O34: the ratio is at least 2^-32, so a position stays below 2^64 and is finite. -/
theorem positionsHaveAnIndex : Obligations.PositionsHaveAnIndex := by
  unfold Obligations.PositionsHaveAnIndex
  intro outLen midLen i ho ho' hk hk' hi
  obtain ⟨m, hratio, hm⟩ := val64_upsampleRatio ho ho' hk hk'
  have hpos : 0 < m := lt_of_lt_of_le (by positivity) hm
  have hpos_eq : ∀ n, n < 2 ^ 53 → interpPos n (upsampleRatio outLen midLen) =
      round64 noDraw (.ratio false (2 ^ 1074 * (n * 2 ^ 1074)) m) := by
    intro n hn
    unfold interpPos
    rw [div64, val64_u2f hn, hratio, divVal, if_neg hpos.ne', scale_b64]
    rfl
  constructor
  · have hval := val64_round64_of_lt noDraw false hpos (units_mul_lt_overflow64 (hi.trans ho') hm)
    rw [hpos_eq i (by omega)]
    exact ⟨_, floor64_of_nonneg hval (Int.natCast_nonneg _)⟩
  · rw [hpos_eq 0 (by decide), Nat.zero_mul, Nat.mul_zero, round64, roundMag_zero (by decide) hpos]
    rfl

end Sys2Proof.Machine
end

section
/-! PROOFS. The accumulator of the resampler stays in [0, 1) (10 R36; 41 R125, R127). -/

namespace Sys2Proof.Machine

/-! ### Sums and differences of numbers that are not below 0.0 -/

/-- A value that is not below 0.0 is +infinity or a finite number that is not below 0. -/
theorem ge64_zero_cases {x : F64} (h : ge64 x zero64 = true) :
    val64 x = .inf false ∨ ∃ s m, val64 x = .fin s m ∧ 0 ≤ signedInt s m := by
  cases hv : val64 x with
  | nan => simp [ge64, val64_zero64, hv, leVal] at h
  | inf s =>
    cases s with
    | false => exact .inl rfl
    | true => simp [ge64, val64_zero64, hv, leVal] at h
  | fin s m => exact .inr ⟨s, m, rfl, (ge64_zero_iff hv).mp h⟩

theorem signedInt_natAbs {neg : Bool} {n : Int} (h : n ≠ 0 → neg = decide (n < 0)) : signedInt neg n.natAbs = n := by
  refine (eq_signedInt_of_natAbs_sub_eq h (fun h0 => h0) ?_).symm
  rw [natAbs_signedInt_sub h (fun h0 => by rw [h0]; rfl)]
  omega

/-- A finite sum of at least a representable number rounds to at least that one. -/
theorem le_round64_addVal {s s' t : Bool} {m m' n : Nat} (hn : Representable n)
    (h : signedInt t n ≤ signedInt s m + signedInt s' m') (k : Nat) :
    leVal (.fin t n) (val64 (round64 k (addVal (.fin s m) (.fin s' m')))) = true := by
  obtain ⟨neg, hsum, hneg⟩ := addVal_fin s s' m m'
  rw [hsum]
  exact le_round64 Nat.one_pos hn (by rw [signedInt_natAbs hneg]; omega) k

/-- A finite sum of at most a representable number rounds to at most that one. -/
theorem round64_addVal_le {s s' t : Bool} {m m' n : Nat} (hn : Representable n)
    (h : signedInt s m + signedInt s' m' ≤ signedInt t n) (k : Nat) :
    leVal (val64 (round64 k (addVal (.fin s m) (.fin s' m')))) (.fin t n) = true := by
  obtain ⟨neg, hsum, hneg⟩ := addVal_fin s s' m m'
  rw [hsum]
  exact round64_le Nat.one_pos hn (by rw [signedInt_natAbs hneg]; omega) k

theorem ge64_zero_add64 (k : Nat) {a b : F64} (ha : ge64 a zero64 = true) (hb : ge64 b zero64 = true) :
    ge64 (add64 k a b) zero64 = true := by
  have hinf : leVal (.fin false 0) (val64 (round64 k (.inf false))) = true := by
    rw [val64_round64_inf]
    rfl
  rw [ge64, val64_zero64, add64]
  obtain hva | ⟨s, m, hva, hm⟩ := ge64_zero_cases ha
  · obtain hvb | ⟨s', m', hvb, -⟩ := ge64_zero_cases hb <;> rw [hva, hvb] <;> exact hinf
  · obtain hvb | ⟨s', m', hvb, hm'⟩ := ge64_zero_cases hb <;> rw [hva, hvb]
    · exact hinf
    · exact le_round64_addVal representable_zero (by rw [signedInt_zero]; omega) k

/-- The subtraction of a pass leaves an accumulator of at least 1.0 at least 0.0. -/
theorem ge64_zero_sub64_one (k : Nat) {t : F64} (h : ge64 t one64 = true) : ge64 (sub64 k t one64) zero64 = true := by
  rw [ge64, val64_zero64, sub64, val64_one64, negVal_fin]
  rw [ge64, val64_one64] at h
  cases hv : val64 t with
  | nan => rw [hv] at h; cases h
  | inf s =>
    cases s with
    | false => rw [addVal, val64_round64_inf]; rfl
    | true => rw [hv] at h; cases h
  | fin s m =>
    rw [hv, leVal_fin] at h
    refine le_round64_addVal representable_zero ?_ k
    rw [signedInt_zero, signedInt_not]
    omega

theorem ge64_zero_of_lt64 {x : F64} (h : lt64 zero64 x = true) : ge64 x zero64 = true := by
  rw [lt64, val64_zero64] at h
  rw [ge64, val64_zero64]
  cases hv : val64 x with
  | nan => rw [hv] at h; cases h
  | inf s => rw [hv] at h; exact h
  | fin s m =>
    rw [hv] at h
    rw [leVal_fin]
    exact (of_decide_eq_true h).le

/-- A number is in [0, 1) when it is at least 0.0 and not at least 1.0. -/
theorem phaseInRange_iff {t : F64} : phaseInRange t = true ↔ ge64 t zero64 = true ∧ ge64 t one64 = false := by
  rw [phaseInRange, Bool.and_eq_true]
  refine and_congr_right fun h => ?_
  rw [lt64, ge64, val64_one64]
  generalize 2 ^ 1074 = unit
  obtain hv | ⟨s, m, hv, -⟩ := ge64_zero_cases h <;> simp [hv, ltVal, leVal]

/-! ### The accumulator of a block -/

theorem ge64_zero_emitPasses {ratio : F64} {outBase n : Nat} {r : ResampleRun} (h : ge64 r.t zero64 = true) :
    ge64 (emitPasses ratio outBase n r).t zero64 = true := by
  induction n generalizing r with
  | zero => exact h
  | succ n ih =>
    cases hge : ge64 r.t one64 with
    | false =>
      rw [emitPasses_of_not_ge hge]
      exact h
    | true =>
      rw [emitPasses_of_ge hge]
      exact ih (ge64_zero_sub64_one noDraw hge)

theorem ge64_zero_resampleBlock (taps : Taps) {ratio : F64} (inp : Mem) (inBase outBase fuel : Nat) {r : ResampleRun}
    (hratio : ge64 ratio zero64 = true) (h : ge64 r.t zero64 = true) (n : Nat) :
    ge64 (resampleBlock taps ratio inp inBase outBase fuel r n).t zero64 = true := by
  induction n with
  | zero => exact h
  | succ n ih => exact ge64_zero_emitPasses (ge64_zero_add64 noDraw ih hratio)

/-- After an allowed block the accumulator is not at least 1.0, if it was not before. -/
theorem ge64_one_resampleBlock (taps : Taps) {ratio : F64} (inp : Mem) (inBase outBase cap : Nat) {r : ResampleRun}
    (hr : r.count = 0) {n : Nat} (hcount : countOutputs ratio r.t n cap ≤ cap) (h : ge64 r.t one64 = false) :
    ge64 (resampleBlock taps ratio inp inBase outBase cap r n).t one64 = false := by
  cases n with
  | zero => exact h
  | succ n =>
    obtain ⟨ht, -, -⟩ := resampleBlock_of_countAfter_le taps ratio inp inBase outBase cap hr hcount (Nat.le_refl cap)
    rw [ht]
    exact ge64_countAfter_eq_false hcount

/-- An allowed block with a ratio of at least 0.0 keeps the accumulator in [0, 1). -/
theorem phaseInRange_resampleBlock (taps : Taps) {ratio : F64} (inp : Mem) (inBase outBase cap : Nat) {r : ResampleRun}
    (hr : r.count = 0) {n : Nat} (hcount : countOutputs ratio r.t n cap ≤ cap) (hratio : ge64 ratio zero64 = true)
    (h : phaseInRange r.t = true) :
    phaseInRange (resampleBlock taps ratio inp inBase outBase cap r n).t = true := by
  rw [phaseInRange_iff] at h ⊢
  exact ⟨ge64_zero_resampleBlock taps inp inBase outBase cap hratio h.1 n,
    ge64_one_resampleBlock taps inp inBase outBase cap hr hcount h.2⟩

/-- Settles O17: the dry run bounds the passes of every sample, and no pass takes the accumulator below 0.0. -/
theorem passBoundNeverBinds : Obligations.PassBoundNeverBinds := by
  unfold Obligations.PassBoundNeverBinds
  intro taps ratio inp inBase outBase cap fuel len r hr hcount hfuel
  obtain ⟨-, -, hbound⟩ := resampleBlock_of_countAfter_le taps ratio inp inBase outBase cap hr hcount hfuel
  exact ⟨hbound, ge64_one_resampleBlock taps inp inBase outBase cap hr hcount,
    fun _ hpos => phaseInRange_resampleBlock taps inp inBase outBase cap hr hcount (ge64_zero_of_lt64 hpos)⟩

/-! ### A ratio below 1 -/

/-- The largest binary64 number below 1.0, in least subnormals. -/
def belowOne : Nat := (2 ^ 53 - 1) * 2 ^ 1021

theorem representable_belowOne : Representable belowOne :=
  representable_mul_two_pow (by decide) (by decide +kernel)

theorem representable_two_mul_belowOne : Representable (2 * belowOne) := by
  have hdouble : 2 * belowOne = (2 ^ 53 - 1) * 2 ^ 1022 := by decide +kernel
  rw [hdouble]
  exact representable_mul_two_pow (by decide) (by decide +kernel)

theorem belowOne_lt : belowOne < 2 ^ 1074 := by decide +kernel

theorem two_mul_belowOne_le : 2 * belowOne ≤ belowOne + 2 ^ 1074 := by decide +kernel

/-- A number below 1.0 is at most the largest binary64 number below it. -/
theorem le_belowOne {x : F64} {s : Bool} {m : Nat} (hval : val64 x = .fin s m) (h : signedInt s m < 2 ^ 1074) :
    signedInt s m ≤ belowOne := by
  cases s with
  | true =>
    rw [signedInt_of_neg]
    omega
  | false =>
    obtain ⟨-, -, hm⟩ := decodeFloat_eq_fin hval
    have hone : magValue b64.prec 0x3FF0000000000000 = 2 ^ 1074 := by decide +kernel
    have hprev : magValue b64.prec 0x3FEFFFFFFFFFFFFF = belowOne := by decide +kernel
    have hmono := strictMono_magValue (prec := b64.prec) (by decide)
    rw [signedInt_of_pos] at h ⊢
    have hlt : m < 2 ^ 1074 := by exact_mod_cast h
    rw [hm, ← hone, hmono.lt_iff_lt] at hlt
    have hle := hmono.monotone (Nat.le_sub_one_of_lt hlt)
    rw [← hm, hprev] at hle
    exact_mod_cast hle

theorem phaseInRange_cases {t : F64} (h : phaseInRange t = true) :
    ∃ s m, val64 t = .fin s m ∧ 0 ≤ signedInt s m ∧ signedInt s m < 2 ^ 1074 := by
  obtain ⟨h0, h1⟩ := Bool.and_eq_true_iff.mp h
  rw [lt64, val64_one64] at h1
  obtain hv | ⟨s, m, hv, hm⟩ := ge64_zero_cases h0 <;> rw [hv] at h1
  · cases h1
  · refine ⟨s, m, hv, hm, ?_⟩
    have hlt := of_decide_eq_true h1
    rwa [signedInt_of_pos, Nat.cast_pow, Nat.cast_ofNat] at hlt

/-- A number that is at most the largest one below 1.0 is not at least 1.0. -/
theorem ge64_one_of_le_belowOne {x : F64} (h : leVal (val64 x) (.fin false belowOne) = true) : ge64 x one64 = false := by
  have hlt := belowOne_lt
  rw [ge64, val64_one64]
  generalize 2 ^ 1074 = unit at hlt ⊢
  cases hv : val64 x with
  | nan => rfl
  | inf s => cases s <;> simp_all [leVal]
  | fin s m =>
    rw [hv, leVal_fin, signedInt_of_pos] at h
    rw [Bool.eq_false_iff, ne_eq, leVal_fin, signedInt_of_pos]
    omega

/-- Below 1, the sum of the phase and the ratio is at most twice the largest number below 1.0, so one pass takes it
below 1.0 again. -/
theorem phaseInRange_sub64_one {t ratio : F64} (ht : phaseInRange t = true) (hpos : lt64 zero64 ratio = true)
    (hlt : lt64 ratio one64 = true) (hge : ge64 (add64 noDraw t ratio) one64 = true) :
    phaseInRange (sub64 noDraw (add64 noDraw t ratio) one64) = true := by
  have hratio : phaseInRange ratio = true := Bool.and_eq_true_iff.mpr ⟨ge64_zero_of_lt64 hpos, hlt⟩
  obtain ⟨s, m, hvt, hm0, hm⟩ := phaseInRange_cases ht
  obtain ⟨s', m', hvr, hm0', hm'⟩ := phaseInRange_cases hratio
  have hlet := le_belowOne hvt hm
  have hler := le_belowOne hvr hm'
  have hsum : leVal (val64 (add64 noDraw t ratio)) (.fin false (2 * belowOne)) = true := by
    rw [add64, hvt, hvr]
    refine round64_addVal_le representable_two_mul_belowOne ?_ noDraw
    rw [signedInt_of_pos]
    omega
  rw [phaseInRange_iff]
  refine ⟨ge64_zero_sub64_one noDraw hge, ge64_one_of_le_belowOne ?_⟩
  have hlo : leVal (.fin false (2 ^ 1074)) (val64 (add64 noDraw t ratio)) = true := by rwa [ge64, val64_one64] at hge
  obtain ⟨u, n, hvs, -, hle⟩ := exists_fin_of_between hlo hsum
  have hunits := two_mul_belowOne_le
  rw [sub64, hvs, val64_one64, negVal_fin]
  refine round64_addVal_le representable_belowOne ?_ noDraw
  generalize 2 ^ 1074 = unit at hunits ⊢
  rw [signedInt_of_pos] at hle ⊢
  rw [Bool.not_false, signedInt_of_neg]
  omega

theorem countPasses_of_not_ge {tt : F64} (h : ge64 tt one64 = false) (cap n k : Nat) :
    countPasses cap n tt k = (tt, k) := by
  cases n with
  | zero => rfl
  | succ n => simp [countPasses, h]

theorem countPasses_of_ge {tt : F64} (h : ge64 tt one64 = true) {cap k : Nat} (hk : k + 1 ≤ cap) (n : Nat) :
    countPasses cap (n + 1) tt k = countPasses cap n (sub64 noDraw tt one64) (k + 1) := by
  simp [countPasses, h, Nat.not_lt.mpr hk]

/-- The dry run at a ratio below 1: the accumulator is in [0, 1) after every sample, and a sample counts at most once. -/
theorem countAfter_of_ratio_lt_one {t ratio : F64} {cap : Nat} (ht : phaseInRange t = true)
    (hpos : lt64 zero64 ratio = true) (hlt : lt64 ratio one64 = true) {n : Nat} (hn : n ≤ cap) :
    phaseInRange (countAfter ratio cap t n).1 = true ∧ (countAfter ratio cap t n).2 ≤ n := by
  induction n with
  | zero => exact ⟨ht, Nat.le_refl 0⟩
  | succ n ih =>
    obtain ⟨hphase, hcount⟩ := ih (by omega)
    rw [countAfter_succ_of_le (by omega)]
    generalize (countAfter ratio cap t n).1 = u at hphase ⊢
    generalize (countAfter ratio cap t n).2 = k at hcount ⊢
    cases hge : ge64 (add64 noDraw u ratio) one64 with
    | false =>
      rw [countPasses_of_not_ge hge]
      have hsum := ge64_zero_add64 noDraw (phaseInRange_iff.mp hphase).1 (ge64_zero_of_lt64 hpos)
      exact ⟨phaseInRange_iff.mpr ⟨hsum, hge⟩, by omega⟩
    | true =>
      have hpass := phaseInRange_sub64_one hphase hpos hlt hge
      rw [countPasses_of_ge hge (by omega), countPasses_of_not_ge (phaseInRange_iff.mp hpass).2]
      exact ⟨hpass, by omega⟩

/-- Settles O19: each sample counts at most once. -/
theorem atMostOneOutputPerInput : Obligations.AtMostOneOutputPerInput := by
  unfold Obligations.AtMostOneOutputPerInput
  exact fun ratio t len cap ht hpos hlt hlen => (countAfter_of_ratio_lt_one ht hpos hlt hlen).2

end Sys2Proof.Machine
end

section
/-! PROOFS. Every step keeps the relations between the rates and the phase (10 R36, R38). -/

namespace Sys2Proof.Machine

/-! ### The rates -/

theorem PipeConfig.consistent_iff (c : PipeConfig) :
    c.consistent = true ↔
      (c.ready = true → finite64 c.srcRate = true ∧ lt64 zero64 c.srcRate = true ∧ c.tgtRate = targetRate ∧
        c.ratio = div64 noDraw c.tgtRate c.srcRate ∧ finite64 c.ratio = true ∧ lt64 zero64 c.ratio = true) := by
  cases hready : c.ready <;> simp [PipeConfig.consistent, hready, and_assoc]

/-- A value of at least a finite number above 0 lies above 0.0. -/
theorem lt64_zero_of_ge64 {x y : F64} (hy : lt64 zero64 y = true) (hfin : finite64 y = true) (h : ge64 x y = true) :
    lt64 zero64 x = true := by
  obtain ⟨m, hvy, hm⟩ := pos_of_lt64_zero hfin hy
  rw [ge64, hvy] at h
  rw [lt64, val64_zero64]
  cases hv : val64 x with
  | nan => rw [hv] at h; cases h
  | inf s => rw [hv] at h; exact h
  | fin s n =>
    rw [hv, leVal_fin, signedInt_of_pos] at h
    simp only [ltVal, signedInt_zero, decide_eq_true_eq]
    omega

/-- The ratio of a finite positive rate is finite, unless it is +infinity (44 R166). -/
theorem finite64_initRatio {rate : F64} (hfin : finite64 rate = true) (hpos : lt64 zero64 rate = true)
    (hinf : initRatio rate ≠ posInf64) : finite64 (initRatio rate) = true := by
  obtain ⟨m, hval, hm⟩ := pos_of_lt64_zero hfin hpos
  have hratio : initRatio rate = round64 noDraw (.ratio false (2 ^ 1074 * (16000 * 2 ^ 1074)) m) := by
    unfold initRatio
    rw [div64, val64_targetRate, hval, divVal, if_neg hm.ne', scale_b64]
    rfl
  rw [hratio] at hinf ⊢
  generalize 2 ^ 1074 * (16000 * 2 ^ 1074) = num at hinf ⊢
  rcases Nat.lt_or_ge num (overflow64 * m) with hlt | hge
  · exact (finite64_iff _).mpr ⟨_, _, val64_round64_of_lt noDraw false hm hlt⟩
  · exact absurd (round64_of_overflow noDraw false hm hge) hinf

/-- The record that an accepted INIT leaves is consistent. -/
theorem consistent_initConfig {rate : F64} (h : rateAccepted rate = true) : (initConfig rate).consistent = true := by
  simp only [rateAccepted, Bool.and_eq_true, bne_iff_ne] at h
  obtain ⟨⟨hfin, hpos⟩, hinf⟩ := h
  have hleast : lt64 zero64 0x0010000000000000#64 = true ∧ finite64 0x0010000000000000#64 = true := by decide +kernel
  have hratio : lt64 zero64 (initRatio rate) = true :=
    lt64_zero_of_ge64 hleast.1 hleast.2 (ratioIsNormal rate hfin hpos)
  exact (PipeConfig.consistent_iff _).mpr
    fun _ => ⟨hfin, hpos, rfl, rfl, finite64_initRatio hfin hpos hinf, hratio⟩

theorem ratesConsistent_iff (s : State) : s.ratesConsistent = true ↔ ∀ u, (s.cfg u).consistent = true := by
  rw [State.ratesConsistent, Bool.and_eq_true]
  constructor
  · rintro ⟨hd, hu⟩ u
    cases u
    · exact hd
    · exact hu
  · exact fun h => ⟨h .down, h .up⟩

/-- In consistent rates a Ready unit D has a finite positive ratio. -/
theorem ratio_of_ready {s : State} (h : s.ratesConsistent = true) (hready : s.cfgD.ready = true) :
    finite64 s.cfgD.ratio = true ∧ lt64 zero64 s.cfgD.ratio = true := by
  obtain ⟨-, -, -, -, hfin, hpos⟩ := (PipeConfig.consistent_iff _).mp ((ratesConsistent_iff s).mp h .down) hready
  exact ⟨hfin, hpos⟩

theorem ratesConsistent_accepted {s : State} {i : Instr} (hv : verdict i s = .ok) (h : s.ratesConsistent = true) :
    (accepted i s).ratesConsistent = true := by
  rw [ratesConsistent_iff] at h ⊢
  intro u
  by_cases hi : ∃ v, i = .init v
  · obtain ⟨v, rfl⟩ := hi
    have hrate : rateAccepted s.rateOp = true := by
      by_contra hbad
      simp [verdict, hbad] at hv
    have hcfg : (accepted (.init v) s).cfg u = (s.setCfg v (initConfig s.rateOp)).cfg u := by simp [accepted]
    rw [hcfg]
    by_cases huv : u = v
    · subst huv
      rw [State.cfg_setCfg]
      exact consistent_initConfig hrate
    · rw [State.cfg_setCfg_ne _ _ _ _ huv]
      exact h u
  · push Not at hi
    rw [exec_cfg_of_ne_init hi (exec_of_verdict_ok hv) u]
    exact h u

/-! ### The phase -/

theorem phaseOk_iff (s : State) : s.phaseOk = true ↔ phaseInRange s.t = true ∧ s.prev = s.curr := by
  rw [State.phaseOk, Bool.and_eq_true, beq_iff_eq]

theorem phaseOk_of_eq {s t : State} (h : s.phaseOk = true) (ht : t.t = s.t) (hp : t.prev = s.prev)
    (hc : t.curr = s.curr) : t.phaseOk = true := by
  rw [phaseOk_iff] at h ⊢
  rwa [ht, hp, hc]

theorem phaseInRange_zero : phaseInRange zero64 = true := by decide +kernel

/-- The reset of unit D's pipeline puts the phase to its start, that of unit U keeps it. -/
theorem phaseOk_pipeReset {s : State} (h : s.phaseOk = true) (u : PipeUnit) : (s.pipeReset u).phaseOk = true := by
  cases u with
  | down => exact (phaseOk_iff _).mpr ⟨phaseInRange_zero, rfl⟩
  | up => exact phaseOk_of_eq h (by simp [State.pipeReset]) (by simp [State.pipeReset]) (by simp [State.pipeReset])

/-- An allowed DPROC keeps the accumulator in [0, 1), and leaves `prev` equal to `curr` (10 R36). -/
theorem phaseOk_dproc {s : State} (hv : verdict .dproc s = .ok) (hrates : s.ratesConsistent = true)
    (h : s.phaseOk = true) : (accepted .dproc s).phaseOk = true := by
  obtain ⟨hready, -, -, hcount⟩ := verdict_dproc_eq_ok_iff.mp hv
  obtain ⟨-, hpos⟩ := ratio_of_ready hrates hready
  obtain ⟨hphase, hprev⟩ := (phaseOk_iff s).mp h
  have hblock : phaseInRange (dprocStream s).t = true :=
    phaseInRange_resampleBlock s.params.tapsAA s.inMem s.srcBaseOp s.dstBaseOp s.a1Op (r := s.stream) rfl hcount
      (ge64_zero_of_lt64 hpos) hphase
  refine (phaseOk_iff _).mpr ⟨hblock, ?_⟩
  change (dprocStream s).prev = (dprocStream s).curr
  unfold dprocStream
  cases s.lenOp with
  | zero => exact hprev
  | succ n => exact resampleBlock_prev_eq_curr _ _ _ _ _ _ _ _

theorem phaseOk_accepted {s : State} {i : Instr} (hv : verdict i s = .ok) (hrates : s.ratesConsistent = true)
    (h : s.phaseOk = true) : (accepted i s).phaseOk = true := by
  cases i with
  | dproc => exact phaseOk_dproc hv hrates h
  | preset u => exact phaseOk_pipeReset h u
  | init u =>
    exact phaseOk_pipeReset (s := s.setCfg u (initConfig s.rateOp))
      (phaseOk_of_eq h (by simp) (by simp) (by simp)) u
  | expsz =>
    obtain ⟨r, hr⟩ := accepted_expsz_shape s
    rw [hr]
    exact h
  | uproc =>
    obtain ⟨r, hr⟩ | ⟨b, r, hr⟩ := accepted_uproc_shape s <;> rw [hr] <;> exact h
  | freset u | fsamp u => exact phaseOk_of_eq h (by simp [accepted]) (by simp [accepted]) (by simp [accepted])
  | getsrc u | gettgt u | getratio u => exact h

/-- Settles O52: INIT stores rates that are consistent, the block of a DPROC keeps the phase, resets restart it. -/
theorem stepKeepsRatesAndPhase : Obligations.StepKeepsRatesAndPhase := by
  unfold Obligations.StepKeepsRatesAndPhase
  intro s t hs h
  obtain ⟨u, hu, heffect⟩ := step_effect h
  have hrates : u.ratesConsistent = true := by rw [hu]; exact hs
  have hphase : s.phaseOk = true → u.phaseOk = true := fun hok => by rw [hu]; exact hok
  obtain rfl | ⟨i, hv, rfl⟩ | ⟨c, -, rfl⟩ | ⟨sp, idx, w, rfl⟩ | ⟨-, rfl⟩ := heffect
  · exact ⟨hrates, hphase⟩
  · exact ⟨ratesConsistent_accepted hv hrates, fun hok => phaseOk_accepted hv hrates (hphase hok)⟩
  · exact ⟨hrates, hphase⟩
  · refine ⟨?_, fun hok => phaseOk_of_eq (hphase hok) (by simp) (by simp) (by simp)⟩
    rw [ratesConsistent_iff] at hrates ⊢
    simpa using hrates
  · exact ⟨rfl, fun _ => (phaseOk_iff _).mpr ⟨phaseInRange_zero, rfl⟩⟩

end Sys2Proof.Machine
end

section
/-! PROOFS. What a DPROC writes, and silence (41 R120, R121, R123; 42 R140, R141). -/

namespace Sys2Proof.Machine

/-! ### The samples of an allowed block -/

/-- The run of a DPROC after `n` of its samples. -/
def dprocRun (s : State) (n : Nat) : ResampleRun :=
  resampleBlock s.params.tapsAA s.cfgD.ratio s.inMem s.srcBaseOp s.dstBaseOp s.a1Op s.stream n

theorem dprocRun_succ (s : State) (n : Nat) :
    dprocRun s (n + 1) =
      resampleSample s.params.tapsAA s.cfgD.ratio s.dstBaseOp s.a1Op (s.inMem.read (s.srcBaseOp + n)) (dprocRun s n) :=
  rfl

theorem dprocRun_mid_wf {s : State} (hs : s.midMem.wf = true) (n : Nat) : (dprocRun s n).mid.wf = true :=
  (resampleBlock_mid s.params.tapsAA s.cfgD.ratio s.inMem s.srcBaseOp s.dstBaseOp s.a1Op s.stream hs n).2.1

/-- A dry run within `cap` at the end was within `cap` after every sample. -/
theorem countAfter_le_of_le {ratio t : F64} {cap n m : Nat} (hnm : n ≤ m) (h : (countAfter ratio cap t m).2 ≤ cap) :
    (countAfter ratio cap t n).2 ≤ cap := by
  induction m, hnm using Nat.le_induction with
  | base => exact h
  | succ m _ ih => exact ih (countAfter_le_of_succ h)

/-- The `while` of every sample of an allowed DPROC ends by its test. -/
theorem ge64_one_dprocRun_succ {s : State} (hcount : dprocCount s ≤ s.a1Op) {n : Nat} (hn : n < s.lenOp) :
    ge64 (dprocRun s (n + 1)).t one64 = false := by
  have hle : (countAfter s.cfgD.ratio s.a1Op s.stream.t (n + 1)).2 ≤ s.a1Op := countAfter_le_of_le hn hcount
  obtain ⟨ht, -, -⟩ := resampleBlock_of_countAfter_le s.params.tapsAA s.cfgD.ratio s.inMem s.srcBaseOp s.dstBaseOp
    s.a1Op (r := s.stream) rfl hle (Nat.le_refl _)
  rw [dprocRun, ht]
  exact ge64_countAfter_eq_false hle

/-- Emit, written out (41 R121). -/
theorem emit_eq (k : Nat) (ratio t : F64) (prev curr : F32) :
    emit k ratio t prev curr =
      rnd32 (k + 6) (add64 (k + 5) (cvt64 (k + 4) prev)
        (mul64 (k + 3) (clamp01 (sub64 0 one64 (div64 0 (sub64 0 t one64) ratio)))
          (sub64 (k + 2) (cvt64 k curr) (cvt64 (k + 1) prev)))) := by
  unfold emit lerp
  rfl

/-- Pass `q` of sample `n` of a DPROC: its accumulator is at least 1.0, and it leaves its Emit in MID to the end. -/
theorem dprocRun_output {s : State} (hs : s.midMem.wf = true) {n : Nat} (hn : n < s.lenOp) {q : Nat}
    (hq : (dprocRun s n).count + q < (dprocRun s (n + 1)).count) :
    ge64 (passTime (add64 0 (dprocRun s n).t s.cfgD.ratio) q) one64 = true ∧
      (dprocStream s).mid.read (s.dstBaseOp + ((dprocRun s n).count + q)) =
        emit ((dprocRun s n).draws + 128 + 7 * q) s.cfgD.ratio (passTime (add64 0 (dprocRun s n).t s.cfgD.ratio) q)
          (dprocRun s n).prev (dprocRun s (n + 1)).curr := by
  obtain ⟨hout, -⟩ := resampleSample_outputs s.params.tapsAA s.cfgD.ratio s.dstBaseOp s.a1Op
    (s.inMem.read (s.srcBaseOp + n)) (dprocRun s n) (dprocRun_mid_wf hs n)
  obtain ⟨hge, hread⟩ := hout q hq
  obtain ⟨-, hkept⟩ := resampleBlock_mid_kept s.params.tapsAA s.cfgD.ratio s.inMem s.srcBaseOp s.dstBaseOp s.a1Op
    s.stream hs (Nat.succ_le_of_lt hn)
  exact ⟨hge, (hkept _ (Nat.add_lt_add_left hq _)).trans hread⟩

/-- Settles O26: a rejection writes nothing; an accepted DPROC runs its samples, and each pass leaves its Emit. -/
theorem dprocWritesOnlyItsOutputs : Obligations.DprocWritesOnlyItsOutputs := by
  unfold Obligations.DprocWritesOnlyItsOutputs
  intro s t hs h
  obtain ⟨hv, rfl⟩ | ⟨hv, rfl⟩ := exec_cases h
  · obtain ⟨-, -, -, hcap⟩ := verdict_dproc_eq_ok_iff.mp hv
    obtain ⟨hcount, hr0⟩ := dprocStream_count hcap
    have hr0' : (accepted .dproc s).r0.toNat = (dprocStream s).count := hr0.trans hcount.symm
    obtain ⟨-, hframe⟩ := dprocStream_mid hs
    rw [hr0']
    refine ⟨fun _ => hcount.trans_le hcap, fun a ha => ?_, fun _ b hb => ?_⟩
    · exact hframe a (ha.resolve_left (fun hne => hne (err_accepted .dproc s)))
    · obtain rfl : b = dprocRun s := funext hb
      refine ⟨rfl, fun n hn => ?_⟩
      obtain ⟨hfir, hcurr, hprev⟩ := resampleSample_frame s.params.tapsAA s.cfgD.ratio s.dstBaseOp s.a1Op
        (s.inMem.read (s.srcBaseOp + n)) (dprocRun s n)
      obtain ⟨hmono, -, -⟩ := resampleSample_mid s.params.tapsAA s.cfgD.ratio s.dstBaseOp s.a1Op
        (s.inMem.read (s.srcBaseOp + n)) (dprocRun s n) (dprocRun_mid_wf hs n)
      obtain ⟨-, htime⟩ := resampleSample_outputs s.params.tapsAA s.cfgD.ratio s.dstBaseOp s.a1Op
        (s.inMem.read (s.srcBaseOp + n)) (dprocRun s n) (dprocRun_mid_wf hs n)
      refine ⟨hfir, hcurr, hprev.trans hcurr.symm, hmono, fun q hq => ?_, htime, ge64_one_dprocRun_succ hcap hn⟩
      obtain ⟨hge, hread⟩ := dprocRun_output hs hn hq
      refine ⟨hge, fun k hk => ?_⟩
      rw [hk, ← emit_eq]
      exact hread
  · exact ⟨fun hok => absurd hok hv, fun _ _ => rfl, fun hok => absurd hok hv⟩

/-! ### Silence -/

theorem FirState.insert_zero {f : FirState} (h : f.dl = Vector.replicate 64 0x00000000#32) :
    f.insert 0x00000000#32 = Vector.replicate 64 0x00000000#32 := by
  unfold FirState.insert
  rw [h]
  ext i hi
  simp

/-- The dot product with a line of +0.0 is +0.0, for finite taps. -/
theorem firAcc_zero {taps : Taps} (hfin : tapsFinite taps = true) (wi : Fin 64) (k i : Nat) :
    firAcc taps (Vector.replicate 64 0x00000000#32) wi k i = 0x00000000#32 := by
  induction i with
  | zero => rfl
  | succ i ih =>
    have hslot : (Vector.replicate 64 0x00000000#32).get (wi - Fin.ofNat 64 i) = 0x00000000#32 := by
      simp [Vector.get_eq_getElem]
    rw [firAcc_succ, ih, hslot]
    exact add32_posZero_zero _ (zeroPattern32_mul32_posZero _ (finitePattern32_get hfin _))

theorem firOut_zero {taps : Taps} (hfin : tapsFinite taps = true) {f : FirState}
    (hf : f.dl = Vector.replicate 64 0x00000000#32) (k : Nat) : firOut taps f k 0x00000000#32 = 0x00000000#32 := by
  unfold firOut
  rw [FirState.insert_zero hf, firAcc_zero hfin]

/-- A finite number times +0.0 is a zero. -/
theorem val64_mul64_zero_right (k : Nat) {x y : F64} {s : Bool} {m : Nat} (hx : val64 x = .fin s m)
    (hy : val64 y = .fin false 0) : ∃ s', val64 (mul64 k x y) = .fin s' 0 := by
  rw [mul64, hx, hy, mulVal, Nat.mul_zero]
  exact ⟨_, val64_round64_zero k _ (Nat.two_pow_pos _)⟩

/-- The interpolation of +0.0 and +0.0 at a finite weight is +0.0. -/
theorem lerp_zero (k : Nat) {w : F64} {s : Bool} {m : Nat} (hw : val64 w = .fin s m) :
    lerp k 0x00000000#32 w 0x00000000#32 = 0x00000000#32 := by
  have hwide : ∀ j, val64 (cvt64 j 0x00000000#32) = .fin false 0 := by
    intro j
    rw [val64_cvt64 j val32_posZero, Nat.zero_mul]
  have hdiff : val64 (sub64 (k + 2) (cvt64 k 0x00000000#32) (cvt64 (k + 1) 0x00000000#32)) = .fin false 0 := by
    rw [sub64, hwide, hwide]
    exact val64_round64_zero _ _ Nat.one_pos
  obtain ⟨s', hprod⟩ := val64_mul64_zero_right (k + 3) hw hdiff
  unfold lerp
  refine rnd32_of_val64 (k + 6) val32_posZero ?_
  rw [Nat.zero_mul]
  obtain hsum | ⟨-, hsum⟩ := val64_add64_zero_right (k + 5) (hwide (k + 4)) hprod <;> exact hsum

/-- Emit of +0.0 and +0.0 is +0.0, since its fraction is finite. -/
theorem emit_zero (k : Nat) {ratio t : F64} (hfin : finite64 ratio = true) (hpos : lt64 zero64 ratio = true)
    (ht : ge64 t one64 = true) : emit k ratio t 0x00000000#32 0x00000000#32 = 0x00000000#32 := by
  obtain ⟨hlo, hhi⟩ := emitFrac_mem hfin hpos (ne_nan_of_leVal_right ht)
  rw [ge64, val64_zero64] at hlo
  rw [ge64, val64_one64] at hhi
  obtain ⟨s, m, hfrac, -, -⟩ := exists_fin_of_between hlo hhi
  exact lerp_zero k hfrac

/-- A run of silence: the line and `prev` hold +0.0. -/
def ResampleRun.Silent (r : ResampleRun) : Prop := r.fir.dl = Vector.replicate 64 0x00000000#32 ∧ r.prev = 0x00000000#32

/-- A sample of +0.0 keeps a run silent, and `curr` becomes +0.0. -/
theorem silent_resampleSample {taps : Taps} (hfin : tapsFinite taps = true) (ratio : F64) (outBase fuel : Nat)
    {r : ResampleRun} (h : r.Silent) :
    (resampleSample taps ratio outBase fuel 0x00000000#32 r).Silent ∧
      (resampleSample taps ratio outBase fuel 0x00000000#32 r).curr = 0x00000000#32 := by
  obtain ⟨hfir, hcurr, hprev⟩ := resampleSample_frame taps ratio outBase fuel 0x00000000#32 r
  have hzero : firOut taps r.fir r.draws 0x00000000#32 = 0x00000000#32 := firOut_zero hfin h.1 _
  refine ⟨⟨?_, hprev.trans hzero⟩, hcurr.trans hzero⟩
  rw [hfir, firNext_dl, FirState.insert_zero h.1]

/-- A DPROC over inputs of +0.0 that starts silent is silent after every sample. -/
theorem silent_dprocRun {s : State} (hfin : tapsFinite s.params.tapsAA = true) (h : s.stream.Silent)
    (hin : ∀ n, n < s.lenOp → s.inMem.read (s.srcBaseOp + n) = 0x00000000#32) {n : Nat} (hn : n ≤ s.lenOp) :
    (dprocRun s n).Silent := by
  induction n with
  | zero => exact h
  | succ n ih =>
    rw [dprocRun_succ, hin n hn]
    exact (silent_resampleSample hfin _ _ _ (ih (by omega))).1

/-- Every output of a block belongs to one of its samples. -/
theorem exists_sample_of_lt_count (s : State) {j : Nat} : ∀ {n : Nat}, j < (dprocRun s n).count →
    ∃ m q, m < n ∧ j = (dprocRun s m).count + q ∧ (dprocRun s m).count + q < (dprocRun s (m + 1)).count
  | 0, hj => absurd hj (Nat.not_lt_zero j)
  | n + 1, hj => by
    rcases Nat.lt_or_ge j (dprocRun s n).count with hlt | hge
    · obtain ⟨m, q, hm, hrest⟩ := exists_sample_of_lt_count s hlt
      exact ⟨m, q, by omega, hrest⟩
    · obtain ⟨q, rfl⟩ := Nat.exists_eq_add_of_le hge
      exact ⟨n, q, Nat.lt_succ_self n, rfl, hj⟩

/-- Settles O27: the run stays silent, and every output is the Emit of +0.0 and +0.0. -/
theorem silenceGivesSilence : Obligations.SilenceGivesSilence := by
  unfold Obligations.SilenceGivesSilence
  intro s t hinv hfin hline hprev hin h hok
  obtain ⟨hv, rfl⟩ | ⟨hv, rfl⟩ := exec_cases h
  · simp only [State.Inv, Bool.and_eq_true] at hinv
    obtain ⟨⟨hrates, -⟩, hbuffers⟩ := hinv
    obtain ⟨-, hmid, -⟩ := (buffersWf_iff s).mp hbuffers
    obtain ⟨hready, -, -, hcap⟩ := verdict_dproc_eq_ok_iff.mp hv
    obtain ⟨hratio, hpos⟩ := ratio_of_ready hrates hready
    obtain ⟨hcount, hr0⟩ := dprocStream_count hcap
    have hsilent : ∀ {n}, n ≤ s.lenOp → (dprocRun s n).Silent := silent_dprocRun hfin ⟨hline, hprev⟩ hin
    obtain ⟨hline', hprev'⟩ := hsilent (Nat.le_refl s.lenOp)
    refine ⟨fun j hj => ?_, hprev', hline'⟩
    have hj' : j < (dprocRun s s.lenOp).count := hj.trans_eq (hr0.trans hcount.symm)
    obtain ⟨n, q, hn, rfl, hq⟩ := exists_sample_of_lt_count s hj'
    obtain ⟨hge, hread⟩ := dprocRun_output hmid hn hq
    have hsample : s.inMem.read (s.srcBaseOp + n) = 0x00000000#32 := hin n hn
    have hcurr : (dprocRun s (n + 1)).curr = 0x00000000#32 := by
      rw [dprocRun_succ, hsample]
      exact (silent_resampleSample hfin _ _ _ (hsilent hn.le)).2
    rw [(hsilent hn.le).2, hcurr, emit_zero _ hratio hpos hge] at hread
    exact hread
  · exact absurd hok hv

end Sys2Proof.Machine
end

section
/-! PROOFS. The block of an UPROC: its outputs, the elements it reads, and the boundary (43 R150 to R152). -/

namespace Sys2Proof.Machine

/-! ### The outputs of the loop -/

/-- Stage RC after the loop of UPROC, and the elements it has written: output `i` is what the stage returns for the
interpolated value `i` after those before it. -/
theorem reconBlock_outputs (taps : Taps) (mid : Mem) (ur : F64) (len midBase outBase : Nat) {r : ReconRun}
    (hr : r.out.wf = true) {v : Nat → F32} (hv : ∀ i, v i = interp (r.draws + 135 * i) mid i ur len midBase) (n : Nat) :
    (reconBlock taps mid ur len midBase outBase r n).fir = ((List.range n).map v).foldl firNext r.fir ∧
      ∀ i, i < n → (reconBlock taps mid ur len midBase outBase r n).out.read (outBase + i) =
        firOut taps (((List.range i).map v).foldl firNext r.fir) (r.draws + 135 * i + 7) (v i) := by
  induction n with
  | zero => exact ⟨rfl, fun i hi => absurd hi (Nat.not_lt_zero i)⟩
  | succ n ih =>
    obtain ⟨hfir, hout⟩ := ih
    have hwf := (reconBlock_out taps mid ur len midBase outBase r hr n).1
    have hdraws := reconBlock_draws taps mid ur len midBase outBase r n
    rw [reconBlock, hdraws, ← hv, reconSample]
    constructor
    · rw [List.range_succ, List.map_append, List.foldl_append, ← hfir]
      rfl
    · intro i hi
      rcases Nat.lt_or_eq_of_le (Nat.le_of_lt_succ hi) with hlt | rfl
      · rw [Mem.read_write_ne hwf (by omega)]
        exact hout i hlt
      · rw [Mem.read_write_same hwf, hfir, hdraws]
        rfl

/-- Settles O31: with M = 0 there are no outputs, and otherwise the loop of UPROC ran. -/
theorem uprocFiltersTheInterpolation : Obligations.UprocFiltersTheInterpolation := by
  unfold Obligations.UprocFiltersTheInterpolation
  intro s t v hs h hok ha1 hv
  obtain ⟨-, rfl⟩ | ⟨hbad, rfl⟩ := exec_cases h
  · have hk : s.a1Op ≠ 0 := fun h0 => ha1 (BitVec.eq_of_toNat_eq h0)
    by_cases hm : s.lenOp = 0
    · have hlen : (s.a0.extractLsb' 0 32).toNat = 0 := hm
      rw [accepted_uproc_of_empty (.inl hm), hlen]
      exact ⟨fun i hi => absurd hi (Nat.not_lt_zero i), rfl, fun _ _ => rfl⟩
    · rw [accepted_uproc_of_block (by simp [hm, hk])]
      obtain ⟨hfir, hout⟩ := reconBlock_outputs s.params.tapsRC s.midMem (upsampleRatio s.lenOp s.a1Op) s.a1Op
        s.srcBaseOp s.dstBaseOp (r := s.recon) hs hv s.lenOp
      exact ⟨hout, hfir, (uprocRecon_out hs).2⟩
  · exact absurd hok hbad

/-! ### The elements that Interp reads -/

/-- Interp reads no element outside `midBase .. midBase + len - 1` (43 R152). -/
theorem interp_congr {mid mid' : Mem} {len midBase : Nat} (hlen : 0 < len)
    (h : ∀ a, midBase ≤ a → a < midBase + len → mid'.read a = mid.read a) (k i : Nat) (ur : F64) :
    interp k mid' i ur len midBase = interp k mid i ur len midBase := by
  have hheld : heldSample mid' len midBase = heldSample mid len midBase := h _ (by omega) (by omega)
  unfold interp
  cases floor64 (interpPos i ur) with
  | none => exact hheld
  | some idx =>
    simp only [interpAt]
    split
    · exact hheld
    · rw [h (midBase + idx) (by omega) (by omega), h (midBase + idx + 1) (by omega) (by omega)]

theorem reconBlock_congr {mid mid' : Mem} {len midBase : Nat} (hlen : 0 < len)
    (h : ∀ a, midBase ≤ a → a < midBase + len → mid'.read a = mid.read a) (taps : Taps) (ur : F64) (outBase : Nat)
    (r : ReconRun) (n : Nat) :
    reconBlock taps mid' ur len midBase outBase r n = reconBlock taps mid ur len midBase outBase r n := by
  induction n with
  | zero => rfl
  | succ n ih => rw [reconBlock, reconBlock, ih, interp_congr hlen h]

/-- Settles O32: MID reaches an UPROC through Interp only. -/
theorem uprocReadsOnlyItsRange : Obligations.UprocReadsOnlyItsRange := by
  unfold Obligations.UprocReadsOnlyItsRange
  intro s t m hm h
  refine exec_congr (f := fun s => s.setMem .mid m) (g := fun t => t.setMem .mid m) h (verdict_setMem .uproc s .mid m)
    (fun _ => ?_) fun _ _ => rfl
  by_cases hz : s.lenOp = 0 ∨ s.a1Op = 0
  · rw [accepted_uproc_of_empty hz, accepted_uproc_of_empty (s := s.setMem .mid m) hz]
    rfl
  · have hrecon : uprocRecon (s.setMem .mid m) = uprocRecon s :=
      reconBlock_congr (len := s.a1Op) (midBase := s.srcBaseOp) (by omega) hm s.params.tapsRC
        (upsampleRatio s.lenOp s.a1Op) s.dstBaseOp s.recon s.lenOp
    rw [accepted_uproc_of_block hz, accepted_uproc_of_block (s := s.setMem .mid m) hz, hrecon]
    rfl

/-! ### The boundary of the block -/

theorem interpAt_of_lt {len idx : Nat} (h : idx + 1 < len) (k : Nat) (mid : Mem) (pos : F64) (midBase : Nat) :
    interpAt k mid pos len midBase (some idx) =
      lerp k (mid.read (midBase + idx)) (sub64 noDraw pos (u2f idx)) (mid.read (midBase + idx + 1)) :=
  if_neg (Nat.not_le.mpr h)

theorem interpAt_of_le {len idx : Nat} (h : len ≤ idx + 1) (k : Nat) (mid : Mem) (pos : F64) (midBase : Nat) :
    interpAt k mid pos len midBase (some idx) = heldSample mid len midBase :=
  if_pos h

/-- Settles O33: the two branches of Interp; a block of one sample has the second only. -/
theorem lastSampleIsHeld : Obligations.LastSampleIsHeld := by
  unfold Obligations.LastSampleIsHeld
  intro k i len midBase idx mid ur
  refine ⟨fun hpos hlt => ?_, fun hpos hle => ?_, ?_⟩
  · have hindex : floor64 (interpPos i ur) = some idx := hpos
    rw [interp, hindex, interpAt_of_lt hlt, lerp]
    rfl
  · have hindex : floor64 (interpPos i ur) = some idx := hpos
    rw [interp, hindex, interpAt_of_le hle]
    rfl
  · rw [interp]
    cases floor64 (interpPos i ur) with
    | none => rfl
    | some j => exact interpAt_of_le (Nat.le_add_left 1 j) k mid _ midBase

end Sys2Proof.Machine
end

section
/-! PROOFS. The commands one by one: what an accepted one ends in, and what rejects it (40 to 44, 60 R198). -/

namespace Sys2Proof.Machine

/-! ### STATUS (10 R43) -/

/-- Settles O45: each field is read below those above it and past those below it. -/
theorem statusFields : Obligations.StatusFields := by
  unfold Obligations.StatusFields
  intro s
  unfold State.statusWord
  refine ⟨?_, ?_, ?_, ?_, ?_, ?_, ?_⟩ <;>
    simp (disch := decide) only [BitVec.extractLsb'_append_eq_of_le, BitVec.extractLsb'_append_eq_of_add_le,
      Nat.reduceSub, Nat.sub_self, BitVec.extractLsb'_eq_self]

/-! ### FSAMP (40 R103) -/

/-- The accumulator of FirStep as a fold over the taps. -/
theorem firAcc_eq_foldl (taps : Taps) (dl : Vector F32 64) (wi : Fin 64) (k : Nat) :
    firAcc taps dl wi k 64 =
      (List.finRange 64).foldl (fun acc i => add32 (k + 2 * i.val + 1) acc
        (mul32 (k + 2 * i.val) (taps.get i) (dl.get (wi - i)))) 0x00000000#32 := by
  have hrange : ∀ n, firAcc taps dl wi k n =
      (List.range n).foldl (fun acc i => add32 (k + 2 * i + 1) acc
        (mul32 (k + 2 * i) (taps.get (Fin.ofNat 64 i)) (dl.get (wi - Fin.ofNat 64 i)))) 0x00000000#32 := by
    intro n
    induction n with
    | zero => rfl
    | succ n ih => rw [firAcc_succ, List.range_succ, List.foldl_concat, ih]
  rw [hrange, ← List.map_coe_finRange_eq_range, List.foldl_map]
  simp only [Fin.ofNat_val_eq_self]

/-- Settles O13: the insertion, the fold over the taps and the advance of the write index, for each stage. -/
theorem fsampFiltersOneSample : Obligations.FsampFiltersOneSample := by
  unfold Obligations.FsampFiltersOneSample
  rintro s x rfl
  have hexec : ∀ u, exec (.fsamp u) s =
      .next ((s.firStep (stageOf u) s.sampleOp).acceptWith (zext64 (s.firValue (stageOf u) s.sampleOp))) := fun _ => rfl
  constructor
  · rw [hexec, State.firValue, firOut, firAcc_eq_foldl]
    rfl
  · rw [hexec, State.firValue, firOut, firAcc_eq_foldl]
    rfl

/-! ### INIT, PRESET and the accessors (44) -/

/-- Settles O35: INIT's one check passes, and the accepted state is written out. -/
theorem initConfiguresItsPipeline : Obligations.InitConfiguresItsPipeline := by
  unfold Obligations.InitConfiguresItsPipeline
  intro s hfin hpos hinf
  have hrate : rateAccepted s.rateOp = true := by
    have hbad := mt (rateAccepted_eq_false_iff s.a0).mp
    simp only [hfin, hpos, Bool.true_eq_false, false_or] at hbad
    exact Bool.of_not_eq_false (hbad hinf)
  have hverdict : ∀ u, verdict (.init u) s = .ok := fun _ => if_pos hrate
  exact ⟨exec_of_verdict_ok (hverdict .down), exec_of_verdict_ok (hverdict .up)⟩

/-- Settles O38: PRESET has no check. -/
theorem presetClearsItsPipeline : Obligations.PresetClearsItsPipeline := by
  unfold Obligations.PresetClearsItsPipeline
  exact fun s => ⟨exec_of_verdict_ok (i := .preset .down) rfl, exec_of_verdict_ok (i := .preset .up) rfl⟩

/-- Settles O39: the one check of an accessor passes in a Ready unit. -/
theorem accessorsReturnTheField : Obligations.AccessorsReturnTheField := by
  unfold Obligations.AccessorsReturnTheField
  intro s u hready
  have hgettgt : exec (.gettgt u) s = .next (s.acceptWith (s.cfg u).tgtRate) :=
    exec_of_verdict_ok (i := .gettgt u) (if_pos hready)
  refine ⟨exec_of_verdict_ok (i := .getsrc u) (if_pos hready), hgettgt,
    exec_of_verdict_ok (i := .getratio u) (if_pos hready), fun hrates => ?_⟩
  obtain ⟨-, -, htarget, -⟩ := (PipeConfig.consistent_iff _).mp ((ratesConsistent_iff s).mp hrates u) hready
  rw [hgettgt, htarget]
  rfl

/-! ### EXPSZ (41 R124) -/

theorem expectedSize_eq_fits32 (s : State) :
    expectedSize s = fits32 (ceil64 (mul64 0 (u2f (s.a0.extractLsb' 0 32).toNat) s.cfgD.ratio)) := rfl

/-- Settles O22: the estimate exists and fits. -/
theorem expszReturnsTheEstimate : Obligations.ExpszReturnsTheEstimate := by
  unfold Obligations.ExpszReturnsTheEstimate
  intro s e hready hceil hfits
  have hsize : expectedSize s = some e := by
    rw [expectedSize_eq_fits32, hceil]
    exact if_pos hfits
  have hverdict : verdict .expsz s = .ok := by simp [verdict, hready, hsize]
  rw [exec_of_verdict_ok hverdict, accepted, hsize]
  rfl

/-- A Ready EXPSZ without an estimate is rejected with ERR_RANGE. -/
theorem exec_expsz_of_none {s : State} (hready : s.cfgD.ready = true) (hsize : expectedSize s = none) :
    exec .expsz s = .next (s.reject .range) := by
  have hverdict : verdict .expsz s = .range := by simp [verdict, hready, hsize]
  rw [exec_of_verdict_ne (by rw [hverdict]; decide), hverdict]

/-- Settles O23: unconfigured, an estimate that does not fit, and an infinite product, which has no ceiling. -/
theorem expszRejections : Obligations.ExpszRejections := by
  unfold Obligations.ExpszRejections
  intro s
  refine ⟨fun hready => next_check_of_eq_false hready, fun e hready hceil hbig => ?_, fun hready hinf => ?_⟩
  · refine exec_expsz_of_none hready ?_
    rw [expectedSize_eq_fits32, hceil]
    exact if_neg (Nat.not_le.mpr hbig)
  · refine exec_expsz_of_none hready ?_
    have hceil : ceil64 posInf64 = none := by decide +kernel
    rw [expectedSize_eq_fits32, hinf, hceil]
    rfl

/-! ### DPROC (42 R140) -/

theorem State.rangeFits_eq_false_iff {s : State} {sp : Space} {base len : Nat} :
    s.rangeFits sp base len = false ↔ s.size sp < base + len := by
  rw [State.rangeFits, decide_eq_false_iff_not, Nat.not_le]

/-- Settles O24: all four checks pass. -/
theorem dprocRunsTheBlock : Obligations.DprocRunsTheBlock := by
  unfold Obligations.DprocRunsTheBlock
  rintro s r hready hin hmid hcount rfl
  exact exec_of_verdict_ok (i := .dproc) (verdict_dproc_eq_ok_iff.mpr
    ⟨hready, State.rangeFits_eq_true_iff.mpr hin, State.rangeFits_eq_true_iff.mpr hmid, hcount⟩)

/-- A command whose verdict is an error is rejected with it. -/
theorem exec_of_verdict_eq {i : Instr} {s : State} {c : Err} (h : verdict i s = c) (hc : c ≠ .ok) :
    exec i s = .next (s.reject c) := by
  subst h
  exact exec_of_verdict_ne hc

/-- Settles O25: the first check that fails gives the verdict. -/
theorem dprocChecksInOrder : Obligations.DprocChecksInOrder := by
  unfold Obligations.DprocChecksInOrder
  intro s
  refine ⟨fun hready => next_check_of_eq_false hready, fun hready hrange => ?_, fun hready hin hmid hcount => ?_⟩
  · refine exec_of_verdict_eq (c := .range) ?_ (by decide)
    obtain hin | hmid := hrange
    · have hfits : s.rangeFits .input s.srcBaseOp s.lenOp = false := State.rangeFits_eq_false_iff.mpr hin
      simp [verdict, hready, hfits]
    · have hfits : s.rangeFits .mid s.dstBaseOp s.a1Op = false := State.rangeFits_eq_false_iff.mpr hmid
      simp [verdict, hready, hfits]
  · refine exec_of_verdict_eq (c := .cap) ?_ (by decide)
    have hfitsIn : s.rangeFits .input s.srcBaseOp s.lenOp = true := State.rangeFits_eq_true_iff.mpr hin
    have hfitsMid : s.rangeFits .mid s.dstBaseOp s.a1Op = true := State.rangeFits_eq_true_iff.mpr hmid
    have hover : ¬ dprocCount s ≤ s.a1Op := Nat.not_le.mpr hcount
    simp [verdict, hready, hfitsIn, hfitsMid, hover]

/-! ### UPROC (43 R150) -/

/-- Settles O28: all three checks pass, and neither M nor K is 0. -/
theorem uprocRunsTheBlock : Obligations.UprocRunsTheBlock := by
  unfold Obligations.UprocRunsTheBlock
  rintro s r hready hmid hout hm hk rfl
  have hblock : ¬(s.lenOp = 0 ∨ s.a1Op = 0) := by
    rintro (h | h)
    · exact hm (BitVec.eq_of_toNat_eq h)
    · exact hk (BitVec.eq_of_toNat_eq h)
  rw [exec_of_verdict_ok (i := .uproc) (verdict_uproc_eq_ok_iff.mpr
    ⟨hready, State.rangeFits_eq_true_iff.mpr hmid, State.rangeFits_eq_true_iff.mpr hout⟩),
    accepted_uproc_of_block hblock]
  rfl

/-- Settles O30: the first check that fails gives the verdict. -/
theorem uprocChecksInOrder : Obligations.UprocChecksInOrder := by
  unfold Obligations.UprocChecksInOrder
  intro s
  refine ⟨fun hready => next_check_of_eq_false hready, fun hready hrange => ?_⟩
  refine exec_of_verdict_eq (c := .range) ?_ (by decide)
  obtain hmid | hout := hrange
  · have hfits : s.rangeFits .mid s.srcBaseOp s.a1Op = false := State.rangeFits_eq_false_iff.mpr hmid
    simp [verdict, hready, hfits]
  · have hfits : s.rangeFits .output s.dstBaseOp s.lenOp = false := State.rangeFits_eq_false_iff.mpr hout
    simp [verdict, hready, hfits]

end Sys2Proof.Machine
end
